-- ==== Sys2Proof/Word.lean ====
section
/-!
DEFINITION. The word types of the block (spec/10_state.md R22, R33, R34) and the narrowing of a natural
number to a register.
-/

namespace Sys2Proof

/-- A register, a window word or a descriptor word: 32 bits (R22). -/
abbrev Word := BitVec 32

/-- One byte of `BUF` (R34). -/
abbrev Byte := BitVec 8

/-- A grant record `{g[3], g[2], g[1], g[0]}`: 128 bits (R106). -/
abbrev GrantBits := BitVec 128

/-- The register holding the natural number `n`. Arithmetic is on unbounded naturals and narrowed only
where a register is written (R7). -/
abbrev word (n : Nat) : Word := BitVec.ofNat 32 n

/-- One bit as a natural number. -/
abbrev bitNat (b : Bool) : Nat := if b then 1 else 0

end Sys2Proof
end

