-- ==== Sys2Proof/Syntax.lean ====
section
/-!
DEFINITION. The commands of the block: one constructor per row of spec/opcode_table.json
(spec/30_encoding.md R110 to R117). A field of a command word is the number it spells (R110).
-/

namespace Sys2Proof

/-- The direction of R10: `DL` = 0, `UL` = 1. -/
inductive Dir where
  | dl
  | ul
deriving DecidableEq, Repr

/-- The buffer-status-report variants in the source's listing order (R100). -/
inductive BsrVariant where
  | shortTruncated
  | short
  | longTruncated
  | long
deriving DecidableEq, Repr

/-- The seventeen commands (R117). -/
inductive Instr where
  /-- NOP, 0x00 (R240). -/
  | nop
  /-- SRESET, 0x01 (R241). -/
  | sreset
  /-- ENC_SUB, 0x10 (R141). -/
  | encSub (dir : Dir) (lcid : Nat)
  /-- ENC_PAD, 0x11 (R144). -/
  | encPad
  /-- MUX, 0x12 (R147). -/
  | mux (dir : Dir)
  /-- PARSE, 0x13 (R150). -/
  | parse (dir : Dir)
  /-- PARSE_BSR, 0x14 (R154). -/
  | parseBsr (variant : BsrVariant)
  /-- HQ_ALLOC, 0x20 (R172). -/
  | hqAlloc (dir : Dir) (dev : Nat)
  /-- HQ_MARK, 0x21 (R174). -/
  | hqMark
  /-- HQ_RESULT, 0x22 (R176). -/
  | hqResult (dir : Dir) (succ : Bool) (proc : Nat) (dev : Nat)
  /-- HQ_READ, 0x23 (R178). -/
  | hqRead (dir : Dir) (proc : Nat) (dev : Nat)
  /-- HQ_CTX, 0x24 (R180). -/
  | hqCtx (dir : Dir) (proc : Nat) (dev : Nat)
  /-- LC_REG, 0x30 (R201). -/
  | lcReg (ch : Nat) (dev : Nat)
  /-- LC_BUF, 0x31 (R203). -/
  | lcBuf (ch : Nat) (dev : Nat)
  /-- LC_TIME, 0x32 (R204). -/
  | lcTime (dev : Nat)
  /-- LC_RUN, 0x33 (R207). -/
  | lcRun (dev : Nat)
  /-- LC_READ, 0x34 (R218). -/
  | lcRead (ch : Nat) (dev : Nat)
deriving DecidableEq, Repr

/-- The opcodes of R117. -/
inductive Opcode where
  | nop | sreset
  | encSub | encPad | mux | parse | parseBsr
  | hqAlloc | hqMark | hqResult | hqRead | hqCtx
  | lcReg | lcBuf | lcTime | lcRun | lcRead
deriving DecidableEq, Repr

/-- Why a word is no command (R118). -/
inductive DecodeError where
  /-- The opcode is not in R117. -/
  | reservedOpcode (op : Nat)
  /-- A bit the opcode's format marks `0` is 1. -/
  | mustBeZero (op : Opcode)
deriving DecidableEq, Repr

end Sys2Proof
end

