-- ==== Sys2Proof/WellFormed.lean ====
section
/-!
DEFINITION. A command is well formed when every field fits the bits its format gives it
(spec/30_encoding.md R112, R115, R116). A well-formed field may still be out of range as a number: the
command then ends with the status code its rule names (R118), which is no matter of form.
-/

namespace Sys2Proof

/-- A channelId fits `cw[5:0]` (format K, R112). -/
def lcidFits (lcid : Nat) : Bool := decide (lcid < 64)

/-- A process index fits `cw[19:16]` (format H, R115). -/
def procFits (proc : Nat) : Bool := decide (proc < 16)

/-- A logical channel fits `cw[21:16]` (format L, R116). -/
def chFits (ch : Nat) : Bool := decide (ch < 64)

/-- A deviceId fits `cw[15:0]` (formats H and L, R115, R116). -/
def devFits (dev : Nat) : Bool := decide (dev < 65536)

/-- Every field fits its bits. -/
def Instr.wf : Instr → Bool
  | .nop => true
  | .sreset => true
  | .encSub _ lcid => lcidFits lcid
  | .encPad => true
  | .mux _ => true
  | .parse _ => true
  | .parseBsr _ => true
  | .hqAlloc _ dev => devFits dev
  | .hqMark => true
  | .hqResult _ _ proc dev => procFits proc && devFits dev
  | .hqRead _ proc dev => procFits proc && devFits dev
  | .hqCtx _ proc dev => procFits proc && devFits dev
  | .lcReg ch dev => chFits ch && devFits dev
  | .lcBuf ch dev => chFits ch && devFits dev
  | .lcTime dev => devFits dev
  | .lcRun dev => devFits dev
  | .lcRead ch dev => chFits ch && devFits dev

end Sys2Proof
end

