-- ==== Sys2Proof/Decode.lean ====
section
/-!
DEFINITION. Decoding a command word (spec/30_encoding.md R110 to R118), total and rejecting by name,
and after it the encoder.
-/

namespace Sys2Proof

/-- The field `v[hi:lo]` as the number it spells (R8, R110). -/
def bits (v hi lo : Nat) : Nat := v / 2 ^ lo % 2 ^ (hi + 1 - lo)

/-- `DL` = 0, `UL` = 1 (R10). -/
def dirOfNat (n : Nat) : Dir := if n = 0 then .dl else .ul

/-- `DL` = 0, `UL` = 1 (R10). -/
def dirNat : Dir → Nat
  | .dl => 0
  | .ul => 1

/-- The variant codes of R100. -/
def variantOfNat (n : Nat) : BsrVariant :=
  if n = 0 then .shortTruncated else if n = 1 then .short else if n = 2 then .longTruncated else .long

/-- The variant codes of R100. -/
def variantNat : BsrVariant → Nat
  | .shortTruncated => 0
  | .short => 1
  | .longTruncated => 2
  | .long => 3

/-- The opcode map of R117. -/
def opcodeNat : Opcode → Nat
  | .nop => 0x00
  | .sreset => 0x01
  | .encSub => 0x10
  | .encPad => 0x11
  | .mux => 0x12
  | .parse => 0x13
  | .parseBsr => 0x14
  | .hqAlloc => 0x20
  | .hqMark => 0x21
  | .hqResult => 0x22
  | .hqRead => 0x23
  | .hqCtx => 0x24
  | .lcReg => 0x30
  | .lcBuf => 0x31
  | .lcTime => 0x32
  | .lcRun => 0x33
  | .lcRead => 0x34

/-- Every opcode of R117, in the table's order. -/
def opcodes : List Opcode :=
  [.nop, .sreset, .encSub, .encPad, .mux, .parse, .parseBsr, .hqAlloc, .hqMark, .hqResult, .hqRead, .hqCtx]
  ++ [.lcReg, .lcBuf, .lcTime, .lcRun, .lcRead]

/-- The opcode a byte names, if R117 lists it. -/
def opcodeOfNat (n : Nat) : Option Opcode := opcodes.find? (fun o => opcodeNat o == n)

/-- The bits `(hi, lo)` an opcode's format marks `0` (R111 to R116). -/
def reservedBits : Opcode → List (Nat × Nat)
  | .nop => [(23, 0)]
  | .sreset => [(23, 0)]
  | .encSub => [(22, 6)]
  | .encPad => [(23, 0)]
  | .mux => [(22, 0)]
  | .parse => [(22, 0)]
  | .parseBsr => [(23, 2)]
  | .hqAlloc => [(22, 22), (21, 20), (19, 16)]
  | .hqMark => [(23, 0)]
  | .hqResult => [(21, 20)]
  | .hqRead => [(22, 22), (21, 20)]
  | .hqCtx => [(22, 22), (21, 20)]
  | .lcReg => [(23, 22)]
  | .lcBuf => [(23, 22)]
  | .lcTime => [(23, 22), (21, 16)]
  | .lcRun => [(23, 22), (21, 16)]
  | .lcRead => [(23, 22)]

/-- The command a word with this opcode and zero reserved bits spells (R111 to R116). -/
def fieldsOf (o : Opcode) (w : Nat) : Instr :=
  let dir := dirOfNat (bits w 23 23)
  let proc := bits w 19 16
  let ch := bits w 21 16
  let dev := bits w 15 0
  match o with
  | .nop => .nop
  | .sreset => .sreset
  | .encSub => .encSub dir (bits w 5 0)
  | .encPad => .encPad
  | .mux => .mux dir
  | .parse => .parse dir
  | .parseBsr => .parseBsr (variantOfNat (bits w 1 0))
  | .hqAlloc => .hqAlloc dir dev
  | .hqMark => .hqMark
  | .hqResult => .hqResult dir (decide (bits w 22 22 = 1)) proc dev
  | .hqRead => .hqRead dir proc dev
  | .hqCtx => .hqCtx dir proc dev
  | .lcReg => .lcReg ch dev
  | .lcBuf => .lcBuf ch dev
  | .lcTime => .lcTime dev
  | .lcRun => .lcRun dev
  | .lcRead => .lcRead ch dev

/-- The command a 32-bit word spells, or why it spells none (R110, R118). -/
def decode (cw : Word) : Except DecodeError Instr :=
  match opcodeOfNat (bits cw.toNat 31 24) with
  | none => .error (.reservedOpcode (bits cw.toNat 31 24))
  | some o =>
    if (reservedBits o).all (fun f => bits cw.toNat f.1 f.2 == 0) then .ok (fieldsOf o cw.toNat)
    else .error (.mustBeZero o)

/-- The opcode of a command. -/
def opcodeOf : Instr → Opcode
  | .nop => .nop
  | .sreset => .sreset
  | .encSub _ _ => .encSub
  | .encPad => .encPad
  | .mux _ => .mux
  | .parse _ => .parse
  | .parseBsr _ => .parseBsr
  | .hqAlloc _ _ => .hqAlloc
  | .hqMark => .hqMark
  | .hqResult _ _ _ _ => .hqResult
  | .hqRead _ _ _ => .hqRead
  | .hqCtx _ _ _ => .hqCtx
  | .lcReg _ _ => .lcReg
  | .lcBuf _ _ => .lcBuf
  | .lcTime _ => .lcTime
  | .lcRun _ => .lcRun
  | .lcRead _ _ => .lcRead

/-- The low 24 bits of a command's word (R111 to R116). -/
def fieldBits : Instr → Nat
  | .nop => 0
  | .sreset => 0
  | .encSub dir lcid => 2 ^ 23 * dirNat dir + lcid
  | .encPad => 0
  | .mux dir => 2 ^ 23 * dirNat dir
  | .parse dir => 2 ^ 23 * dirNat dir
  | .parseBsr variant => variantNat variant
  | .hqAlloc dir dev => 2 ^ 23 * dirNat dir + dev
  | .hqMark => 0
  | .hqResult dir succ proc dev => 2 ^ 23 * dirNat dir + 2 ^ 22 * bitNat succ + 2 ^ 16 * proc + dev
  | .hqRead dir proc dev => 2 ^ 23 * dirNat dir + 2 ^ 16 * proc + dev
  | .hqCtx dir proc dev => 2 ^ 23 * dirNat dir + 2 ^ 16 * proc + dev
  | .lcReg ch dev => 2 ^ 16 * ch + dev
  | .lcBuf ch dev => 2 ^ 16 * ch + dev
  | .lcTime dev => dev
  | .lcRun dev => dev
  | .lcRead ch dev => 2 ^ 16 * ch + dev

/-- The word of a well-formed command (R110 to R117). -/
def encode (i : Instr) : Word := word (2 ^ 24 * opcodeNat (opcodeOf i) + fieldBits i)

/-- The command read from an instruction of `nbits` bits of value `w`. A command word is one 32-bit
number and has no byte order inside the block (R63, R110). -/
def decodeTableWord (nbits w : Nat) : Option Instr :=
  match decode (word (w % 2 ^ nbits)) with
  | .ok i => some i
  | .error _ => none

end Sys2Proof
end

