-- ==== Sys2Proof/Config.lean ====
section
/-!
DEFINITION. The parameters of the block (spec/00_scope.md R6) and this hardware's values of them. A
parameter R6 leaves OPEN is an opaque constant with no body whose type admits exactly the legal values
(log entry 2).
-/

namespace Sys2Proof

/-- The parameters of R6, "consumed as read-only immutable parameters at construction". -/
structure Params where
  /-- `NUM_DEVICES`: deviceId runs 1..NUM_DEVICES. -/
  numDevices : Nat
  /-- `NUM_HARQ`: process index 0..NUM_HARQ-1. -/
  numHarq : Nat
  /-- `RV_SEQ`: the redundancy-version sequence; its length is `RV_LEN`. -/
  rvSeq : List (BitVec 2)
  /-- `NUM_RBGS`: carried in `CAP1`, not interpreted. -/
  numRbgs : Nat
  /-- The base-2 logarithm of `BUF_BYTES`. -/
  log2Buf : Nat
  /-- `BSR5_TABLE`, 32 entries. -/
  bsr5 : List Word
  /-- `BSR8_TABLE`, 256 entries. -/
  bsr8 : List Word
  /-- `BSR_FALLBACK_BYTES`. -/
  bsrFallback : Word
deriving DecidableEq, Repr

/-- `BUF_BYTES` (R6, R34). -/
def Params.bufBytes (p : Params) : Nat := 2 ^ p.log2Buf

/-- `DESC_ENTRIES = BUF_BYTES / 2` (R6, R35). -/
def Params.descEntries (p : Params) : Nat := p.bufBytes / 2

/-- `RV_LEN` (R6). -/
def Params.rvLen (p : Params) : Nat := p.rvSeq.length

/-- Non-decreasing in the index, as R6 asks of both tables. -/
def nonDecreasing : List Word → Bool
  | [] => true
  | [_] => true
  | a :: b :: rest => decide (a.toNat ≤ b.toNat) && nonDecreasing (b :: rest)

/-- The legal values of R6. -/
def Params.legal (p : Params) : Bool :=
  decide (1 ≤ p.numDevices ∧ p.numDevices ≤ 65535)
  && decide (1 ≤ p.numHarq ∧ p.numHarq ≤ 16)
  && decide (1 ≤ p.rvLen ∧ p.rvLen ≤ 4)
  && decide (1 ≤ p.numRbgs ∧ p.numRbgs ≤ 32)
  && decide (12 ≤ p.log2Buf ∧ p.log2Buf ≤ 24)
  && decide (p.bsr5.length = 32) && nonDecreasing p.bsr5
  && decide (p.bsr8.length = 256) && nonDecreasing p.bsr8
  && decide (1 ≤ p.bsrFallback.toNat)

/-- `LCP_MIN_GRANT`, fixed (R6). -/
abbrev lcpMinGrant : Nat := 8

/-- `MAX_LCID_DATA`, fixed (R6). -/
abbrev maxLcidData : Nat := 32

/-- `NUM_LCG`, fixed (R6). -/
abbrev numLcg : Nat := 8

/-- `NUM_PRIO`, fixed (R6). -/
abbrev numPrio : Nat := 16

/-- `PBR_INF`, the code of an unlimited prioritized bit rate (R40). -/
abbrev pbrInf : Word := 0xFFFFFFFF

/-- The default `BSR5_TABLE` of R103 (the spec marks it general knowledge, G4; log entry 3). -/
def bsr5Default : List Word :=
  [0, 10, 14, 20, 28, 38, 53, 74, 102, 142, 198, 276, 384, 535, 745, 1038]
  ++ [1446, 2014, 2806, 3909, 5446, 7587, 10570, 14726, 20516, 28581, 39818, 55474, 77284, 107669, 150000, 0xFFFFFFFF]

/-- The largest of the first entries up to index `i`. -/
def runningMax (raw : Nat → Word) : Nat → Word
  | 0 => raw 0
  | i + 1 => if (runningMax raw i).toNat ≤ (raw (i + 1)).toNat then raw (i + 1) else runningMax raw i

/-- OPEN in R6 (DESIGN CHOICE on the form, log entry 2): `NUM_DEVICES - 1`. -/
opaque Config.numDevicesLessOne : Fin 65535

/-- OPEN in R6 (log entry 2): `NUM_HARQ - 1`. -/
opaque Config.numHarqLessOne : Fin 16

/-- OPEN in R6 (log entry 2): `RV_SEQ[i]`. -/
opaque Config.rvEntry : Nat → BitVec 2

/-- OPEN in R6 (log entry 2): `RV_LEN - 1`. -/
opaque Config.rvLenLessOne : Fin 4

/-- OPEN in R6 (log entry 2): `NUM_RBGS - 1`. -/
opaque Config.numRbgsLessOne : Fin 32

/-- OPEN in R6 (log entry 2): `BSR8_TABLE` before it is made non-decreasing by `runningMax`, which
leaves every legal table as it is. -/
opaque Config.bsr8Raw : Nat → Word

/-- OPEN in R6 (log entry 2): `BSR_FALLBACK_BYTES`, a 0 standing for 1. -/
opaque Config.fallbackRaw : Word

/-- The parameters of this hardware: the values R6 gives, and an opaque constant where R6 says OPEN. -/
def Config.hardware : Params where
  numDevices := Config.numDevicesLessOne.val + 1
  numHarq := Config.numHarqLessOne.val + 1
  rvSeq := (List.range (Config.rvLenLessOne.val + 1)).map Config.rvEntry
  numRbgs := Config.numRbgsLessOne.val + 1
  log2Buf := 17
  bsr5 := bsr5Default
  bsr8 := (List.range 256).map (runningMax Config.bsr8Raw)
  bsrFallback := if Config.fallbackRaw = 0 then 1 else Config.fallbackRaw

end Sys2Proof
end

