-- ==== Sys2Proof/Machine/State.lean ====
section
/-!
DEFINITION. The state of the block (spec/10_state.md), as plain data, and its value after reset (R43).
-/

namespace Sys2Proof.Machine

/-- The non-zero status codes (spec/60_exceptions.md R250). Their numbers are `errCode`. -/
inductive ErrCode where
  /-- ERR_ILLEGAL, code 1. -/
  | illegal
  /-- ERR_LCID, code 2. -/
  | lcid
  /-- ERR_LEN, code 3. -/
  | len
  /-- ERR_PADLEN, code 4. -/
  | padLen
  /-- ERR_FORMAT, code 5. -/
  | format
  /-- ERR_TRUNC, code 6. -/
  | trunc
  /-- ERR_BOUNDS, code 7. -/
  | bounds
  /-- ERR_DEVICE, code 8. -/
  | device
  /-- ERR_PROC, code 9. -/
  | proc
  /-- ERR_HARQ_STATE, code 10. -/
  | harqState
  /-- ERR_CHANNEL, code 11. -/
  | channel
  /-- ERR_DUP, code 12. -/
  | dup
  /-- ERR_PARAM, code 13. -/
  | param
deriving DecidableEq, Repr

/-- One descriptor entry: three 32-bit words (R35). -/
structure Desc where
  w0 : Word
  w1 : Word
  w2 : Word
deriving DecidableEq, Repr

/-- A descriptor entry at reset (R43). -/
def Desc.zero : Desc := ⟨0, 0, 0⟩

/-- `state` of a HARQ record (R36). -/
inductive HarqState where
  | free
  | busy
deriving DecidableEq, Repr

/-- One HARQ process record (R36). -/
structure HarqRec where
  state : HarqState
  /-- The position in `RV_SEQ`, 0..RV_LEN-1. -/
  pos : Nat
  lastNDI : Bool
  hasCtx : Bool
  ctx : GrantBits
  lastTBS : Word
  grant : GrantBits
  grantTbs : Word
deriving DecidableEq, Repr

/-- A HARQ record at reset (R43). -/
def HarqRec.reset : HarqRec where
  state := .free
  pos := 0
  lastNDI := false
  hasCtx := false
  ctx := 0
  lastTBS := 0
  grant := 0
  grantTbs := 0

/-- One logical-channel record (R40). -/
structure LcRec where
  valid : Bool
  lcg : BitVec 3
  prio : BitVec 5
  pbr : Word
  bsd : BitVec 16
  pending : Word
  bj : Word
  elapsed : Word
deriving DecidableEq, Repr

/-- A logical-channel record at reset: not registered (R43). -/
def LcRec.reset : LcRec where
  valid := false
  lcg := 0
  prio := 0
  pbr := 0
  bsd := 0
  pending := 0
  bj := 0
  elapsed := 0

/-- What the host may do to the block, each only between commands (spec/20_memory.md R73). -/
inductive HostAction where
  /-- Read the window location at a byte offset. -/
  | read (off : Word)
  /-- Write a word to the window location at a byte offset; at `CMD` the word is a command (R70). -/
  | write (off : Word) (data : Word)
  /-- Assert the hardware reset input (spec/70_reset_and_hazards.md R290). -/
  | hardReset
deriving DecidableEq, Repr

/-- What the host's next action asks for: nothing, a command word for the state that has consumed the
action, or an action that has been performed. -/
inductive Fetched (σ : Type) where
  | idle
  | command (cw : Word) (s : σ)
  | performed (s : σ)

/-- Why the machine stops: nothing does. The block has no stuck state and no hang, and its refusal is an
ordinary next state (spec/60_exceptions.md R265), so this type has no constructor (log entry 8). -/
inductive Fault where
deriving DecidableEq, Repr

/-- Why an instruction has no meaning. -/
inductive Refusal where
  /-- An arm of `exec` that has no meaning yet raises it; it is safe, since nothing can be proved of a
  state after it. No arm does. -/
  | notModelled (mnemonic : String)
deriving DecidableEq, Repr

/-- The complete state of the block (R20), and after it the model's own fields. -/
structure State where
  /-- The general registers `x[0..15]` (R22). -/
  x : Vector Word 16
  /-- The grant staging registers `g[0..3]` (R33). -/
  g : Vector Word 4
  /-- `STATUS` (R30). -/
  status : Word
  /-- `FAULT` (R31). -/
  fault : Word
  /-- `CMDCNT` (R32). -/
  cmdcnt : Word
  /-- `BUF` (R34): the bytes that are not 0x00, by rising address. -/
  buf : List Host.Cell
  /-- `DESC` (R35): the entries that are not zero, by rising index. -/
  desc : List (Nat × Desc)
  /-- `HQ` (R36): the records that are not `HarqRec.reset`, by rising `hqKey`. -/
  hq : List (Nat × HarqRec)
  /-- `LC` (R39): the records that are not `LcRec.reset`, by rising `lcKey`. -/
  lc : List (Nat × LcRec)
  /-- The model's own: the parameters, the Config argument of the step (R13, R21; log entry 1). -/
  params : Params
  /-- The model's own: the actions the host has still to perform, the CommandWord argument of the step
  among them (R13, R73; log entry 5). -/
  script : List HostAction
  /-- The model's own: the word the host's last window read returned (log entry 6). -/
  rdata : Word
deriving DecidableEq, Repr

/-- The machine right after reset (R43). The model's own fields: this hardware's parameters, no host
action waiting, no word read (log entries 1, 5 and 6). -/
def State.reset : State where
  x := Vector.replicate 16 0
  g := Vector.replicate 4 0
  status := 0
  fault := 0
  cmdcnt := 0
  buf := []
  desc := []
  hq := []
  lc := []
  params := Config.hardware
  script := []
  rdata := 0

end Sys2Proof.Machine
end

