-- ==== Sys2Proof/Machine/Flags.lean ====
section
/-!
DEFINITION. The status codes, the status and sticky fault registers (spec/60_exceptions.md R250 to R253,
spec/10_state.md R25, R30, R31) and the constant registers (R27 to R29). The block has no arithmetic
flag (R25).
-/

namespace Sys2Proof.Machine

/-- The numbers of the status codes (R250). -/
def errCode : ErrCode → Nat
  | .illegal => 1
  | .lcid => 2
  | .len => 3
  | .padLen => 4
  | .format => 5
  | .trunc => 6
  | .bounds => 7
  | .device => 8
  | .proc => 9
  | .harqState => 10
  | .channel => 11
  | .dup => 12
  | .param => 13

/-- `STATUS` after a command with status code `k`: `STATUS[7:0] = k`, the rest 0 (R30). -/
def statusWord (k : Nat) : Word := word k

/-- `FAULT` with bit `k` set and every other bit kept (R253). -/
def faultSet (fault : Word) (k : Nat) : Word := fault ||| word (2 ^ k)

/-- `MPF_ID` (R27). -/
abbrev mpfId : Word := 0x4D504601

/-- `RV_SEQ[i]` as a number, an absent entry reading 0 (R28). -/
def rvAt (p : Params) (i : Nat) : Nat := (p.rvSeq.getD i 0).toNat

/-- `CAP0` (R28). -/
def cap0 (p : Params) : Word :=
  word (p.numDevices + 2 ^ 16 * p.numHarq + 2 ^ 21 * p.rvLen + 2 ^ 24 * rvAt p 0 + 2 ^ 26 * rvAt p 1
    + 2 ^ 28 * rvAt p 2 + 2 ^ 30 * rvAt p 3)

/-- `CAP1` (R29). -/
def cap1 (p : Params) : Word := word (p.log2Buf + 2 ^ 5 * p.numRbgs)

end Sys2Proof.Machine
end

