-- ==== Sys2Proof/Machine/Ops.lean ====
section
/-!
DEFINITION. The named operations over registers, memories and tables, the end of a command (R251), and
the refusal, which is the block's only form of taking an exception (R252, R259).
-/

namespace Sys2Proof.Machine

/-! ### Tables in canonical form

A memory or table is the list of its entries that differ from what it holds at reset, by strictly rising
key, so that equal memories are equal lists. -/

/-- What a table holds at key `a`: its entry, or `dflt` where it lists none. -/
def tableGet {α : Type} (dflt : α) : List (Nat × α) → Nat → α
  | [], _ => dflt
  | (k, v) :: rest, a => if a = k then v else tableGet dflt rest a

/-- The table with an entry put before the first greater key. -/
def tableInsert {α : Type} : List (Nat × α) → Nat → α → List (Nat × α)
  | [], a, v => [(a, v)]
  | (k, u) :: rest, a, v => if a < k then (a, v) :: (k, u) :: rest else (k, u) :: tableInsert rest a v

/-- The table without any entry at a key. -/
def tableErase {α : Type} : List (Nat × α) → Nat → List (Nat × α)
  | [], _ => []
  | (k, u) :: rest, a => if a = k then tableErase rest a else (k, u) :: tableErase rest a

/-- The table holding `v` at key `a`; writing `dflt` removes the entry. -/
def tableSet {α : Type} [DecidableEq α] (dflt : α) (t : List (Nat × α)) (a : Nat) (v : α) : List (Nat × α) :=
  if v = dflt then tableErase t a else tableInsert (tableErase t a) a v

/-- The canonical form: keys strictly rising, no entry equal to `dflt`. -/
def tableWf {α : Type} [DecidableEq α] (dflt : α) : List (Nat × α) → Bool
  | [] => true
  | (k, v) :: rest => decide (v ≠ dflt) && rest.all (fun e => decide (k < e.1)) && tableWf dflt rest

/-- The canonical form of `BUF`: an unlisted address reads 0x00 (R34, R43). -/
def Memory.wf (m : List Host.Cell) : Bool := tableWf (0 : Byte) m

/-! ### Registers -/

/-- `x[i]` (R9). -/
def State.reg (s : State) (i : Fin 16) : Word := s.x[i]

/-- `x[i] <- v` (R9). -/
def State.setReg (s : State) (i : Fin 16) (v : Word) : State := { s with x := s.x.set i v }

/-- `x[i]` as the natural number it holds (R7, R22). -/
def State.argN (s : State) (i : Fin 16) : Nat := (s.reg i).toNat

/-- `x[i] <- n` for a number `n` below 2^32 (R9). -/
def State.result (s : State) (i : Fin 16) (n : Nat) : State := s.setReg i (word n)

/-- `g[i]` (R9). -/
def State.grantReg (s : State) (i : Fin 4) : Word := s.g[i]

/-- `g[i] <- v` (R9). -/
def State.setGrantReg (s : State) (i : Fin 4) (v : Word) : State := { s with g := s.g.set i v }

/-! ### BUF -/

/-- `BUF[a]` (R34). -/
def State.readByte (s : State) (a : Nat) : Byte := tableGet 0 s.buf a

/-- `MemRead(off, n)` (R9). -/
def State.readBytes (s : State) (off n : Nat) : List Byte := (List.range n).map (fun i => s.readByte (off + i))

/-- The memory after storing a byte string from an address on. -/
def memWrite : List Host.Cell → Nat → List Byte → List Host.Cell
  | m, _, [] => m
  | m, off, b :: bs => memWrite (tableSet 0 m off b) (off + 1) bs

/-- `MemWrite(off, n, bytes)` (R9). -/
def State.writeBytes (s : State) (off : Nat) (bytes : List Byte) : State :=
  { s with buf := memWrite s.buf off bytes }

/-- The bounds check of R64: the region `(off, n)` lies in `BUF`, on unbounded naturals. -/
def State.fits (s : State) (off n : Nat) : Bool := decide (off + n ≤ s.params.bufBytes)

/-! ### DESC -/

/-- `DESC[k]` (R35). -/
def State.descAt (s : State) (k : Nat) : Desc := tableGet Desc.zero s.desc k

/-- The descriptor memory after writing entries from index `k` on. -/
def descWrite : List (Nat × Desc) → Nat → List Desc → List (Nat × Desc)
  | t, _, [] => t
  | t, k, d :: ds => descWrite (tableSet Desc.zero t k d) (k + 1) ds

/-- The list result of a command: entries 0.. are written, the others kept (R35). -/
def State.writeDescs (s : State) (ds : List Desc) : State := { s with desc := descWrite s.desc 0 ds }

/-! ### The HARQ table -/

/-- The key of `HQ[dev][dir][proc]`: a process index is below 16 (R6, R36). -/
def hqKey (dev : Nat) (dir : Dir) (proc : Nat) : Nat :=
  32 * dev + (match dir with | .dl => 0 | .ul => 16) + proc

/-- `HQ[dev][dir][proc]` (R10). -/
def State.harq (s : State) (dev : Nat) (dir : Dir) (proc : Nat) : HarqRec :=
  tableGet HarqRec.reset s.hq (hqKey dev dir proc)

/-- `HQ[dev][dir][proc] <- r` (R10). -/
def State.setHarq (s : State) (dev : Nat) (dir : Dir) (proc : Nat) (r : HarqRec) : State :=
  { s with hq := tableSet HarqRec.reset s.hq (hqKey dev dir proc) r }

/-! ### The logical-channel table -/

/-- The key of `LC[dev][ch]`: a channelId is below 64 (R39, R116). -/
def lcKey (dev ch : Nat) : Nat := 64 * dev + ch

/-- `LC[dev][ch]` (R10). -/
def State.chan (s : State) (dev ch : Nat) : LcRec := tableGet LcRec.reset s.lc (lcKey dev ch)

/-- `LC[dev][ch] <- r` (R10). -/
def State.setChan (s : State) (dev ch : Nat) (r : LcRec) : State :=
  { s with lc := tableSet LcRec.reset s.lc (lcKey dev ch) r }

/-! ### Reset and the end of a command -/

/-- Every piece of state at its reset value (R43, R241, R290). The parameters survive (R291); so do the
model's own record of the host (log entry 9). -/
def State.resetAll (s : State) : State :=
  { State.reset with params := s.params, script := s.script, rdata := s.rdata }

/-- The three writes every command makes but SRESET: its status code to `x[15]` and `STATUS[7:0]`, and
`CMDCNT` plus 1 (R251). -/
def State.conclude (s : State) (k : Nat) : State :=
  { s with x := s.x.set 15 (word k), status := statusWord k, cmdcnt := s.cmdcnt + 1 }

/-- The end of a command that succeeded (R251). -/
def State.complete (s : State) : State := s.conclude 0

/-- The refusal with a status code (R252). -/
def State.refuse (s : State) (e : ErrCode) : State :=
  { s.conclude (errCode e) with fault := faultSet s.fault (errCode e) }

/-- A command's end: `r` is the state with its effect, or the first check that failed (R252, R256). -/
def State.settle (s : State) (r : Except ErrCode State) : State :=
  match r with
  | .ok t => t.complete
  | .error e => s.refuse e

end Sys2Proof.Machine
end

