-- ==== Sys2Proof/Machine/Operands.lean ====
section
/-!
DEFINITION. The operands of the commands: sub-PDU header bytes (spec/30_encoding.md R90 to R99),
buffer-status-report bytes (R100 to R104), the grant record (R106), the address checks of the tables
(spec/42_harq.md R171, spec/43_lcp.md R202), and saturation (R7).
-/

namespace Sys2Proof.Machine

/-! ### Sub-PDU headers -/

/-- `LEN_IDS(dir)`: the channelIds whose header carries a length field (R93). -/
def lenIds (dir : Dir) (lcid : Nat) : Bool :=
  match dir with
  | .dl => decide (1 ≤ lcid ∧ lcid ≤ maxLcidData)
  | .ul => decide ((1 ≤ lcid ∧ lcid ≤ maxLcidData) ∨ (59 ≤ lcid ∧ lcid ≤ 62))

/-- The channelId of padding (R92). -/
abbrev padLcid : Nat := 63

/-- The header byte `{0, F, lcid}` (R91, R97). -/
def headerByte (f : Bool) (lcid : Nat) : Byte := BitVec.ofNat 8 (64 * bitNat f + lcid)

/-- `h[5:0]` (R91). -/
def headerLcid (h : Byte) : Nat := bits h.toNat 5 0

/-- `h[6]`, the length-field flag F (R91). -/
def headerF (h : Byte) : Bool := decide (bits h.toNat 6 6 = 1)

/-- The header length of a payload of `n` bytes (R96). -/
def headerLen (n : Nat) : Nat := if n ≤ 255 then 2 else 3

/-- The byte at index `i` of a byte string. -/
def byteAt (pdu : List Byte) (i : Nat) : Byte := pdu.getD i 0

/-- The header length and the value of the length field of the header at index `cur` (R95), or none
where the length field runs past the end. -/
def lengthField (pdu : List Byte) (cur : Nat) : Option (Nat × Nat) :=
  if headerF (byteAt pdu cur) then
    if cur + 3 ≤ pdu.length then some (3, 256 * (byteAt pdu (cur + 1)).toNat + (byteAt pdu (cur + 2)).toNat)
    else none
  else
    if cur + 2 ≤ pdu.length then some (2, (byteAt pdu (cur + 1)).toNat)
    else none

/-- `s[a..a+n)` (R7). -/
def slice (bytes : List Byte) (a n : Nat) : List Byte := (bytes.drop a).take n

/-! ### Buffer-status reports -/

/-- The short forms are variants 0 and 1 (R100). -/
def variantIsShort : BsrVariant → Bool
  | .shortTruncated => true
  | .short => true
  | .longTruncated => false
  | .long => false

/-- Which channelId carries which variant (R101, general knowledge G3). The block never applies this
map: the host does. -/
def variantOfLcid (lcid : Nat) : Option BsrVariant :=
  if lcid = 59 then some .shortTruncated
  else if lcid = 60 then some .longTruncated
  else if lcid = 61 then some .short
  else if lcid = 62 then some .long
  else none

/-- `b[7:5]` of a short report (R102). -/
def bsrGroup (b : Byte) : Nat := bits b.toNat 7 5

/-- `b[4:0]` of a short report (R102). -/
def bsrLevel (b : Byte) : Nat := bits b.toNat 4 0

/-- Bit `m[i]` of the bitmap of a long report: channel group `i` (R104). -/
def bsrBit (m : Byte) (i : Nat) : Bool := decide (bits m.toNat i i = 1)

/-! ### The grant record (R106) -/

/-- `{g[3], g[2], g[1], g[0]}`, `g[0]` the least significant word (R180). -/
def grantOf (s : State) : GrantBits :=
  s.grantReg 3 ++ s.grantReg 2 ++ s.grantReg 1 ++ s.grantReg 0

/-- Word `i` of a grant record: `g[i]` holds bits `32 i + 31` to `32 i` (R106, R180). -/
def grantWord (gr : GrantBits) (i : Nat) : Word := word (bits gr.toNat (32 * i + 31) (32 * i))

/-- deviceId, `g[0][15:0]`. -/
def grantDev (gr : GrantBits) : Nat := bits gr.toNat 15 0

/-- direction, `g[0][16]`. -/
def grantDir (gr : GrantBits) : Dir := dirOfNat (bits gr.toNat 16 16)

/-- harqId, `g[0][20:17]`. -/
def grantProc (gr : GrantBits) : Nat := bits gr.toNat 20 17

/-- kind, `g[0][21]`: true for a retransmission. -/
def grantIsRetx (gr : GrantBits) : Bool := decide (bits gr.toNat 21 21 = 1)

/-- ndi, `g[0][22]`: carried (R107). -/
def grantNdi (gr : GrantBits) : Nat := bits gr.toNat 22 22

/-- rv, `g[0][24:23]`: carried. -/
def grantRv (gr : GrantBits) : Nat := bits gr.toNat 24 23

/-- mappingType, `g[0][25]`: carried. -/
def grantMappingType (gr : GrantBits) : Nat := bits gr.toNat 25 25

/-- dmrsLength code, `g[0][26]`: carried. -/
def grantDmrsLength (gr : GrantBits) : Nat := bits gr.toNat 26 26

/-- layerCount, `g[0][30:27]`: carried. -/
def grantLayerCount (gr : GrantBits) : Nat := bits gr.toNat 30 27

/-- rbgBitmap, `g[1]`: carried. -/
def grantRbgBitmap (gr : GrantBits) : Nat := bits gr.toNat 63 32

/-- startSymbol, `g[2][3:0]`: carried. -/
def grantStartSymbol (gr : GrantBits) : Nat := bits gr.toNat 67 64

/-- numSymbols, `g[2][7:4]`: carried. -/
def grantNumSymbols (gr : GrantBits) : Nat := bits gr.toNat 71 68

/-- slotOffset, `g[2][15:8]`: carried. -/
def grantSlotOffset (gr : GrantBits) : Nat := bits gr.toNat 79 72

/-- mcs, `g[2][20:16]`: carried. -/
def grantMcs (gr : GrantBits) : Nat := bits gr.toNat 84 80

/-- feedbackSlotOffset, `g[2][28:21]` of a downlink grant: carried. -/
def grantFeedbackSlotOffset (gr : GrantBits) : Nat := bits gr.toNat 92 85

/-- The precoding word, `g[3]`: a matrix handle on the downlink; carried. -/
def grantPrecoding (gr : GrantBits) : Nat := bits gr.toNat 127 96

/-- The precoding indicator of an uplink grant, `g[3][5:0]`: carried. -/
def grantPrecodingIndicator (gr : GrantBits) : Nat := bits gr.toNat 101 96

/-- The antenna-port count of an uplink grant, `g[3][11:6]`: carried. -/
def grantAntennaPorts (gr : GrantBits) : Nat := bits gr.toNat 107 102

/-! ### Address checks -/

/-- `dev = 0 or dev > NUM_DEVICES` (R171, R202). -/
def badDevice (p : Params) (dev : Nat) : Bool := decide (dev = 0 ∨ p.numDevices < dev)

/-- `proc >= NUM_HARQ` (R171). -/
def badProc (p : Params) (proc : Nat) : Bool := decide (p.numHarq ≤ proc)

/-- `ch = 0 or ch > 32` (R202). -/
def badChannel (ch : Nat) : Bool := decide (ch = 0 ∨ maxLcidData < ch)

/-- `check_addr(dev, proc)` (R171): the first check that fails. -/
def checkAddr (p : Params) (dev proc : Nat) : Option ErrCode :=
  if badDevice p dev then some .device else if badProc p proc then some .proc else none

/-- `check_dev(dev)` and then `check_ch(ch)` (R202). -/
def checkDevCh (p : Params) (dev ch : Nat) : Option ErrCode :=
  if badDevice p dev then some .device else if badChannel ch then some .channel else none

/-- `check_dev(dev)` and then `check_reg(dev, ch)` (R202). -/
def checkReg (s : State) (dev ch : Nat) : Option ErrCode :=
  match checkDevCh s.params dev ch with
  | some e => some e
  | none => if (s.chan dev ch).valid then none else some .channel

/-! ### Arithmetic -/

/-- `sat32(v) = min(v, 2^32 - 1)` (R7). -/
def sat32 (v : Nat) : Nat := min v (2 ^ 32 - 1)

end Sys2Proof.Machine
end

