-- ==== Sys2Proof/Machine/Codec.lean ====
section
/-!
DEFINITION. The CODEC commands (spec/41_codec.md). Each has two definitions: the pure function over byte
strings the source gives, and the command that feeds it from registers and `BUF`. Checks are made in the
order the rule writes them (R140, R256).
-/

namespace Sys2Proof.Machine

/-! ### ENC_SUB -/

/-- `encodeSubPDU(lcid, payload, dir)` (R142). -/
def encodeSubPDU (lcid : Nat) (payload : List Byte) (dir : Dir) : Except ErrCode (List Byte) :=
  let n := payload.length
  if lenIds dir lcid = false then .error .lcid
  else if 65535 < n then .error .len
  else if n ≤ 255 then .ok ([headerByte false lcid, BitVec.ofNat 8 n] ++ payload)
  else .ok ([headerByte true lcid, BitVec.ofNat 8 (n / 256), BitVec.ofNat 8 (n % 256)] ++ payload)

/-- The effect of ENC_SUB (R141). -/
def encSub (dir : Dir) (lcid : Nat) (s : State) : Except ErrCode State :=
  let src := s.argN 0
  let n := s.argN 1
  let dst := s.argN 2
  let hl := headerLen n
  if lenIds dir lcid = false then .error .lcid
  else if 65535 < n then .error .len
  else if s.fits src n = false then .error .bounds
  else if s.fits dst (hl + n) = false then .error .bounds
  else
    match encodeSubPDU lcid (s.readBytes src n) dir with
    | .error e => .error e
    | .ok out => .ok (((s.writeBytes dst out).result 8 (hl + n)).result 9 hl)

/-- ENC_SUB (R141). -/
def execEncSub (dir : Dir) (lcid : Nat) (s : State) : Host.Outcome State Fault Refusal :=
  .next (s.settle (encSub dir lcid s))

/-! ### ENC_PAD -/

/-- `encodePadding(length)` (R145, R99). -/
def encodePadding (length : Nat) : Except ErrCode (List Byte) :=
  if length < 1 then .error .padLen
  else .ok (headerByte false padLcid :: List.replicate (length - 1) 0)

/-- The effect of ENC_PAD (R144). -/
def encPad (s : State) : Except ErrCode State :=
  let n := s.argN 1
  let dst := s.argN 2
  match encodePadding n with
  | .error e => .error e
  | .ok out =>
    if s.fits dst n = false then .error .bounds
    else .ok ((s.writeBytes dst out).result 8 n)

/-- ENC_PAD (R144). -/
def execEncPad (s : State) : Host.Outcome State Fault Refusal := .next (s.settle (encPad s))

/-! ### MUX -/

/-- `multiplex(data, ctrl, pad, dir)` (R148, R105). -/
def multiplex (data ctrl pad : List Byte) (dir : Dir) : List Byte :=
  match dir with
  | .dl => ctrl ++ data ++ pad
  | .ul => data ++ ctrl ++ pad

/-- The effect of MUX (R147). -/
def muxCmd (dir : Dir) (s : State) : Except ErrCode State :=
  let total := s.argN 1 + s.argN 3 + s.argN 5
  if s.fits (s.argN 0) (s.argN 1) = false then .error .bounds
  else if s.fits (s.argN 2) (s.argN 3) = false then .error .bounds
  else if s.fits (s.argN 4) (s.argN 5) = false then .error .bounds
  else if s.fits (s.argN 6) total = false then .error .bounds
  else
    let out := multiplex (s.readBytes (s.argN 0) (s.argN 1)) (s.readBytes (s.argN 2) (s.argN 3))
      (s.readBytes (s.argN 4) (s.argN 5)) dir
    .ok ((s.writeBytes (s.argN 6) out).result 8 total)

/-- MUX (R147). -/
def execMux (dir : Dir) (s : State) : Host.Outcome State Fault Refusal := .next (s.settle (muxCmd dir s))

/-! ### PARSE -/

/-- One parsed sub-PDU: its channelId, the index of its payload in the PDU, and the payload (R151). -/
structure SubPdu where
  lcid : Nat
  start : Nat
  payload : List Byte
deriving DecidableEq, Repr

/-- What `parse` returns: the list, the cursor, and whether padding ended the walk (R151). -/
structure Parsed where
  items : List SubPdu
  cursor : Nat
  padSeen : Bool
deriving DecidableEq, Repr

/-- The walk of R151 from the cursor on. The first argument bounds the number of sub-PDUs still to be
read; every one has at least two bytes, so a bound of the PDU's length is never used up (R310). -/
def parseFrom (dir : Dir) (pdu : List Byte) : Nat → Nat → List SubPdu → Except ErrCode Parsed
  | 0, cur, res => .ok ⟨res, cur, false⟩
  | fuel + 1, cur, res =>
    if pdu.length ≤ cur then .ok ⟨res, cur, false⟩
    else
      let lcid := headerLcid (byteAt pdu cur)
      if lcid = padLcid then .ok ⟨res, cur, true⟩
      else if lenIds dir lcid = false then .error .format
      else
        match lengthField pdu cur with
        | none => .error .trunc
        | some (hl, len) =>
          if pdu.length < cur + hl + len then .error .trunc
          else parseFrom dir pdu fuel (cur + hl + len) (res ++ [⟨lcid, cur + hl, slice pdu (cur + hl) len⟩])

/-- `parse(pdu, dir)` (R151). -/
def parse (pdu : List Byte) (dir : Dir) : Except ErrCode Parsed := parseFrom dir pdu pdu.length 0 []

/-- The descriptor of a sub-PDU of a PDU at offset `off` (R150). -/
def subPduDesc (off : Nat) (item : SubPdu) : Desc :=
  ⟨word item.lcid, word (off + item.start), word item.payload.length⟩

/-- The effect of PARSE (R150). -/
def parseCmd (dir : Dir) (s : State) : Except ErrCode State :=
  let off := s.argN 0
  let n := s.argN 1
  if s.fits off n = false then .error .bounds
  else
    match parse (s.readBytes off n) dir with
    | .error e => .error e
    | .ok r =>
      .ok ((((s.writeDescs (r.items.map (subPduDesc off))).result 8 r.items.length).result 9 r.cursor).result 10
        (bitNat r.padSeen))

/-- PARSE (R150). -/
def execParse (dir : Dir) (s : State) : Host.Outcome State Fault Refusal := .next (s.settle (parseCmd dir s))

/-! ### PARSE_BSR -/

/-- One entry of a buffer-status report: group, size in bytes, and whether the size is the fallback
level (R155). -/
structure BsrEntry where
  group : Nat
  size : Word
  fallback : Bool
deriving DecidableEq, Repr

/-- The long form from the channel groups still to be visited, byte `k` being the next (R155, R104). -/
def bsrLongFrom (p : Params) (bytes : List Byte) : List Nat → Nat → List BsrEntry
  | [], _ => []
  | i :: rest, k =>
    if bsrBit (byteAt bytes 0) i then
      if k < bytes.length then
        ⟨i, p.bsr8.getD (byteAt bytes k).toNat 0, false⟩ :: bsrLongFrom p bytes rest (k + 1)
      else ⟨i, p.bsrFallback, true⟩ :: bsrLongFrom p bytes rest k
    else bsrLongFrom p bytes rest k

/-- `parseBufferStatusReport(variant, bytes)` (R155). -/
def parseBufferStatusReport (p : Params) (variant : BsrVariant) (bytes : List Byte) :
    Except ErrCode (List BsrEntry) :=
  if bytes.length < 1 then .error .trunc
  else if variantIsShort variant then
    .ok [⟨bsrGroup (byteAt bytes 0), p.bsr5.getD (bsrLevel (byteAt bytes 0)) 0, false⟩]
  else .ok (bsrLongFrom p bytes (List.range numLcg) 1)

/-- The descriptor of a buffer-status entry (R154). -/
def bsrDesc (e : BsrEntry) : Desc := ⟨word e.group, e.size, word (bitNat e.fallback)⟩

/-- The effect of PARSE_BSR (R154). -/
def parseBsrCmd (variant : BsrVariant) (s : State) : Except ErrCode State :=
  let off := s.argN 0
  let n := s.argN 1
  if s.fits off n = false then .error .bounds
  else
    match parseBufferStatusReport s.params variant (s.readBytes off n) with
    | .error e => .error e
    | .ok r => .ok ((s.writeDescs (r.map bsrDesc)).result 8 r.length)

/-- PARSE_BSR (R154). -/
def execParseBsr (variant : BsrVariant) (s : State) : Host.Outcome State Fault Refusal :=
  .next (s.settle (parseBsrCmd variant s))

end Sys2Proof.Machine
end

