-- ==== Sys2Proof/Machine/Harq.lean ====
section
/-!
DEFINITION. The HARQ table commands (spec/42_harq.md): the source's functions on one record, and the
commands that address a record and report from it.
-/

namespace Sys2Proof.Machine

/-- `state` as HQ_READ returns it: 0 for Free, 1 for Busy (R36, R178). -/
def harqStateNat : HarqState → Nat
  | .free => 0
  | .busy => 1

/-! ### HQ_ALLOC -/

/-- `allocateFreeProcess(dev, dir)` (R173): the first Free process of the index scan. -/
def allocateFreeProcess (s : State) (dev : Nat) (dir : Dir) : Option Nat :=
  (List.range s.params.numHarq).find? (fun proc => decide ((s.harq dev dir proc).state = .free))

/-- The effect of HQ_ALLOC (R172). -/
def hqAlloc (dir : Dir) (dev : Nat) (s : State) : Except ErrCode State :=
  if badDevice s.params dev then .error .device
  else
    match allocateFreeProcess s dev dir with
    | none => .ok ((s.result 8 0).result 9 0)
    | some proc => .ok ((s.result 8 1).result 9 proc)

/-- HQ_ALLOC (R172). -/
def execHqAlloc (dir : Dir) (dev : Nat) (s : State) : Host.Outcome State Fault Refusal :=
  .next (s.settle (hqAlloc dir dev s))

/-! ### HQ_MARK -/

/-- `markBusy(P, grant, tbs)` (R175). -/
def markBusy (r : HarqRec) (grant : GrantBits) (tbs : Word) : Except ErrCode HarqRec :=
  if grantIsRetx grant then
    if r.state = .busy ∧ r.hasCtx = true then
      .ok { r with grant := grant, grantTbs := tbs, pos := r.pos + 1, hasCtx := false }
    else .error .harqState
  else
    if r.state = .free then
      .ok { r with state := .busy, grant := grant, grantTbs := tbs, lastNDI := !r.lastNDI, pos := 0 }
    else .error .harqState

/-- The effect of HQ_MARK (R174): the grant's own fields address the record. -/
def hqMark (s : State) : Except ErrCode State :=
  let grant := grantOf s
  let dev := grantDev grant
  let dir := grantDir grant
  let proc := grantProc grant
  match checkAddr s.params dev proc with
  | some e => .error e
  | none =>
    match markBusy (s.harq dev dir proc) grant (s.reg 0) with
    | .error e => .error e
    | .ok r =>
      .ok ((((s.setHarq dev dir proc r).result 8 (bitNat r.lastNDI)).result 9 r.pos).result 10 (rvAt s.params r.pos))

/-- HQ_MARK (R174). -/
def execHqMark (s : State) : Host.Outcome State Fault Refusal := .next (s.settle (hqMark s))

/-! ### HQ_RESULT -/

/-- The outcomes HQ_RESULT returns (R177). -/
abbrev outcomeAcked : Nat := 0

/-- A retransmission is wanted (R177). -/
abbrev outcomeRetx : Nat := 1

/-- The packet is dropped: the redundancy-version sequence is exhausted (R177, R183). -/
abbrev outcomeDropped : Nat := 2

/-- `onReceptionResult(P, success)` (R177): the record after, and the outcome. -/
def onReceptionResult (p : Params) (r : HarqRec) (success : Bool) : Except ErrCode (HarqRec × Nat) :=
  if r.state = .busy then
    if success then .ok ({ r with state := .free, hasCtx := false, pos := 0 }, outcomeAcked)
    else if r.pos = p.rvLen - 1 then .ok ({ r with state := .free, hasCtx := false, pos := 0 }, outcomeDropped)
    else
      .ok ({ r with ctx := r.grant, hasCtx := true
                    lastTBS := if grantIsRetx r.grant then r.lastTBS else r.grantTbs }, outcomeRetx)
  else .error .harqState

/-- The effect of HQ_RESULT (R176). -/
def hqResult (dir : Dir) (succ : Bool) (proc dev : Nat) (s : State) : Except ErrCode State :=
  match checkAddr s.params dev proc with
  | some e => .error e
  | none =>
    match onReceptionResult s.params (s.harq dev dir proc) succ with
    | .error e => .error e
    | .ok (r, outcome) => .ok ((s.setHarq dev dir proc r).result 8 outcome)

/-- HQ_RESULT (R176). -/
def execHqResult (dir : Dir) (succ : Bool) (proc dev : Nat) (s : State) : Host.Outcome State Fault Refusal :=
  .next (s.settle (hqResult dir succ proc dev s))

/-! ### HQ_READ -/

/-- The effect of HQ_READ (R178). -/
def hqRead (dir : Dir) (proc dev : Nat) (s : State) : Except ErrCode State :=
  match checkAddr s.params dev proc with
  | some e => .error e
  | none =>
    let r := s.harq dev dir proc
    .ok ((((((s.result 8 (harqStateNat r.state)).result 9 r.pos).result 10 (rvAt s.params r.pos)).result 11
      (bitNat r.lastNDI)).result 12 (bitNat r.hasCtx)).setReg 13 r.lastTBS)

/-- HQ_READ (R178). -/
def execHqRead (dir : Dir) (proc dev : Nat) (s : State) : Host.Outcome State Fault Refusal :=
  .next (s.settle (hqRead dir proc dev s))

/-! ### HQ_CTX -/

/-- The effect of HQ_CTX (R180). Reading the context does not consume it. -/
def hqCtx (dir : Dir) (proc dev : Nat) (s : State) : Except ErrCode State :=
  match checkAddr s.params dev proc with
  | some e => .error e
  | none =>
    let r := s.harq dev dir proc
    if r.hasCtx = false then .error .harqState
    else
      .ok (((((s.setGrantReg 0 (grantWord r.ctx 0)).setGrantReg 1 (grantWord r.ctx 1)).setGrantReg 2
        (grantWord r.ctx 2)).setGrantReg 3 (grantWord r.ctx 3)).setReg 8 r.lastTBS)

/-- HQ_CTX (R180). -/
def execHqCtx (dir : Dir) (proc dev : Nat) (s : State) : Host.Outcome State Fault Refusal :=
  .next (s.settle (hqCtx dir proc dev s))

end Sys2Proof.Machine
end

