-- ==== Sys2Proof/Machine/Lcp.lean ====
section
/-!
DEFINITION. The LCP commands (spec/43_lcp.md): the two-round run over the channels of one device
(R205 to R212) on natural numbers (R213), and the commands around it.
-/

namespace Sys2Proof.Machine

/-! ### LC_REG, LC_BUF, LC_TIME -/

/-- The range check of LC_REG on `x[0..3]`: priority, group and bucket duration (R201). -/
def lcParamBad (bsd prio lcg : Nat) : Bool :=
  decide (prio < 1 ∨ numPrio < prio ∨ numLcg ≤ lcg ∨ 65535 < bsd)

/-- The effect of LC_REG (R201, R44). -/
def lcReg (ch dev : Nat) (s : State) : Except ErrCode State :=
  match checkDevCh s.params dev ch with
  | some e => .error e
  | none =>
    if lcParamBad (s.argN 1) (s.argN 2) (s.argN 3) then .error .param
    else if (s.chan dev ch).valid then .error .dup
    else
      .ok (s.setChan dev ch { valid := true
                              lcg := BitVec.ofNat 3 (s.argN 3)
                              prio := BitVec.ofNat 5 (s.argN 2)
                              pbr := s.reg 0
                              bsd := BitVec.ofNat 16 (s.argN 1)
                              pending := 0
                              bj := 0
                              elapsed := 0 })

/-- LC_REG (R201). -/
def execLcReg (ch dev : Nat) (s : State) : Host.Outcome State Fault Refusal := .next (s.settle (lcReg ch dev s))

/-- The effect of LC_BUF (R203): the value replaces the old one. -/
def lcBuf (ch dev : Nat) (s : State) : Except ErrCode State :=
  match checkReg s dev ch with
  | some e => .error e
  | none => .ok (s.setChan dev ch { s.chan dev ch with pending := s.reg 0 })

/-- LC_BUF (R203). -/
def execLcBuf (ch dev : Nat) (s : State) : Host.Outcome State Fault Refusal := .next (s.settle (lcBuf ch dev s))

/-- The channelIds of a device's records, 1..32 (R39). -/
def channelIds : List Nat := List.range' 1 maxLcidData

/-- A record after `dt` more milliseconds (R204). -/
def lcElapse (dt : Nat) (c : LcRec) : LcRec := { c with elapsed := word (sat32 (c.elapsed.toNat + dt)) }

/-- LC_TIME over a list of channelIds: the registered ones advance (R204). -/
def lcTimeOver (dev dt : Nat) : List Nat → State → State
  | [], s => s
  | ch :: rest, s =>
    lcTimeOver dev dt rest
      (if (s.chan dev ch).valid then s.setChan dev ch (lcElapse dt (s.chan dev ch)) else s)

/-- The effect of LC_TIME (R204). -/
def lcTime (dev : Nat) (s : State) : Except ErrCode State :=
  if badDevice s.params dev then .error .device
  else .ok (lcTimeOver dev (s.argN 0) channelIds s)

/-- LC_TIME (R204). -/
def execLcTime (dev : Nat) (s : State) : Host.Outcome State Fault Refusal := .next (s.settle (lcTime dev s))

/-! ### The LCP run -/

/-- A channel of the set C during a run: its record's numbers and `alloc`, the bytes granted to it so far
(R206). -/
structure LcpChan where
  id : Nat
  prio : Nat
  unlimited : Bool
  pbr : Nat
  bsd : Nat
  elapsed : Nat
  pending : Nat
  bj : Nat
  alloc : Nat
deriving DecidableEq, Repr

/-- A registered record as the run sees it. -/
def lcpChanOf (ch : Nat) (c : LcRec) : LcpChan where
  id := ch
  prio := c.prio.toNat
  unlimited := decide (c.pbr = pbrInf)
  pbr := c.pbr.toNat
  bsd := c.bsd.toNat
  elapsed := c.elapsed.toNat
  pending := c.pending.toNat
  bj := c.bj.toNat
  alloc := 0

/-- The registered channels of a device by ascending channelId (R206). -/
def registered (s : State) (dev : Nat) : List LcpChan :=
  (channelIds.filter (fun ch => (s.chan dev ch).valid)).map (fun ch => lcpChanOf ch (s.chan dev ch))

/-- The order of service: by priority, highest first (the smallest number), and by ascending channelId
inside a priority (R206). A priority field has 5 bits. -/
def serviceOrder (cs : List LcpChan) : List LcpChan :=
  (List.range 32).flatMap (fun p => cs.filter (fun c => decide (c.prio = p)))

/-- Step 1 on one channel (R208). -/
def bucketUpdate (budget : Nat) (c : LcpChan) : LcpChan :=
  { c with bj := if c.unlimited then min c.pending budget
                 else sat32 (c.bj + c.pbr * min c.elapsed c.bsd / 1000) }

/-- A channel after using `u` bytes. -/
def useBytes (u : Nat) (c : LcpChan) : LcpChan := { c with alloc := c.alloc + u, pending := c.pending - u }

/-- The bytes Round 1 gives a channel with `rem` bytes left: `min(min(bj, rem), pending)` (R209). -/
def round1Use (rem : Nat) (c : LcpChan) : Nat := min (min c.bj rem) c.pending

/-- Round 1 in the order of service (R209): the channels after, and the remaining budget. -/
def round1 : Nat → List LcpChan → List LcpChan × Nat
  | rem, [] => ([], rem)
  | rem, c :: rest =>
    if rem < lcpMinGrant then (c :: rest, rem)
    else if 0 < c.bj ∧ 0 < c.pending then
      let u := round1Use rem c
      let r := round1 (rem - u) rest
      ({ useBytes u c with bj := if c.unlimited then c.bj else c.bj - u } :: r.1, r.2)
    else
      let r := round1 rem rest
      (c :: r.1, r.2)

/-- A channel Round 2 serves at priority `p` (R210). -/
def wants (p : Nat) (c : LcpChan) : Bool := decide (c.prio = p ∧ 0 < c.pending)

/-- The share of the `i`-th served channel (R210): the first `r` get one byte more. -/
def shareOf (q r i : Nat) : Nat := if i < r then q + 1 else q

/-- One iteration of Round 2 at priority `p` (R210): every served channel, `i` of them passed, uses the
smaller of its share and its pending bytes. The channels after, and the bytes used. -/
def shareOut (p q r : Nat) : Nat → List LcpChan → List LcpChan × Nat
  | _, [] => ([], 0)
  | i, c :: rest =>
    if wants p c then
      let u := min (shareOf q r i) c.pending
      let t := shareOut p q r (i + 1) rest
      (useBytes u c :: t.1, u + t.2)
    else
      let t := shareOut p q r i rest
      (c :: t.1, t.2)

/-- The iterations of Round 2 at priority `p` (R210). The first argument bounds their number: an
iteration that does not end the run leaves one served channel fewer (R215). -/
def round2Loop (p : Nat) : Nat → Nat → List LcpChan → List LcpChan × Nat
  | 0, rem, cs => (cs, rem)
  | fuel + 1, rem, cs =>
    let n := (cs.filter (wants p)).length
    if rem < lcpMinGrant then (cs, rem)
    else if n = 0 then (cs, rem)
    else
      let t := shareOut p (rem / n) (rem % n) 0 cs
      round2Loop p fuel (rem - t.2) t.1

/-- Round 2 over a list of priorities (R210). Once the remaining budget is below the minimum grant no
later priority changes anything, as "the whole algorithm goes to step 4" asks. -/
def round2 : List Nat → Nat → List LcpChan → List LcpChan × Nat
  | [], rem, cs => (cs, rem)
  | p :: rest, rem, cs =>
    let t := round2Loop p (cs.length + 1) rem cs
    round2 rest t.2 t.1

/-- The priorities 1..16 (R210). -/
def priorities : List Nat := List.range' 1 numPrio

/-- The number of active channels (R206). -/
def activeCount (cs : List LcpChan) : Nat := (cs.filter (fun c => decide (0 < c.pending))).length

/-- `lcpRun(C, budget)` on channels in the order of service (R212): the channels after, and the unused
byte count. -/
def lcpRun (cs : List LcpChan) (budget : Nat) : List LcpChan × Nat :=
  let cs1 := cs.map (bucketUpdate budget)
  let t := if 2 ≤ activeCount cs1 then round1 budget cs1 else (cs1, budget)
  let u := round2 priorities t.2 t.1
  (u.1.map (fun c => { c with elapsed := 0 }), u.2)

/-- The output list of a run (R211): the channels granted bytes, in the order of service. -/
def lcpOutput (cs : List LcpChan) : List Desc :=
  (cs.filter (fun c => decide (0 < c.alloc))).map (fun c => ⟨word c.id, word c.alloc, 0⟩)

/-- The runtime fields of a record after a run (R211). -/
def lcpRecord (old : LcRec) (c : LcpChan) : LcRec :=
  { old with pending := word c.pending, bj := word c.bj, elapsed := word c.elapsed }

/-- The records of a run written back. -/
def writeBack (dev : Nat) : List LcpChan → State → State
  | [], s => s
  | c :: rest, s => writeBack dev rest (s.setChan dev c.id (lcpRecord (s.chan dev c.id) c))

/-- The effect of LC_RUN (R207). -/
def lcRun (dev : Nat) (s : State) : Except ErrCode State :=
  if badDevice s.params dev then .error .device
  else
    let budget := s.argN 0
    let t := lcpRun (serviceOrder (registered s dev)) budget
    let out := lcpOutput t.1
    .ok (((((writeBack dev t.1 s).writeDescs out).result 8 out.length).result 9 t.2).result 10 (budget - t.2))

/-- LC_RUN (R207). -/
def execLcRun (dev : Nat) (s : State) : Host.Outcome State Fault Refusal := .next (s.settle (lcRun dev s))

/-! ### LC_READ -/

/-- The effect of LC_READ (R218). -/
def lcRead (ch dev : Nat) (s : State) : Except ErrCode State :=
  match checkReg s dev ch with
  | some e => .error e
  | none =>
    let c := s.chan dev ch
    .ok (((((((s.setReg 8 c.pending).setReg 9 c.bj).setReg 10 c.elapsed).setReg 11 c.pbr).result 12
      c.bsd.toNat).result 13 c.prio.toNat).result 14 c.lcg.toNat)

/-- LC_READ (R218). -/
def execLcRead (ch dev : Nat) (s : State) : Host.Outcome State Fault Refusal := .next (s.settle (lcRead ch dev s))

end Sys2Proof.Machine
end

