-- ==== Sys2Proof/Machine/System.lean ====
section
/-!
DEFINITION. The system commands (spec/44_system.md).
-/

namespace Sys2Proof.Machine

/-- NOP (R240). -/
def execNop (s : State) : Host.Outcome State Fault Refusal := .next (s.settle (.ok s))

/-- SRESET (R241): the word itself is not counted. -/
def execSreset (s : State) : Host.Outcome State Fault Refusal := .next s.resetAll

end Sys2Proof.Machine
end

