-- ==== Sys2Proof/Machine/Dispatch.lean ====
section
/-!
DEFINITION. One arm per command, each one call of its meaning.
-/

namespace Sys2Proof.Machine

def exec (i : Instr) (s : State) : Host.Outcome State Fault Refusal :=
  match i with
  | .nop => Sys2Proof.Machine.execNop s
  | .sreset => Sys2Proof.Machine.execSreset s
  | .encSub dir lcid => Sys2Proof.Machine.execEncSub dir lcid s
  | .encPad => Sys2Proof.Machine.execEncPad s
  | .mux dir => Sys2Proof.Machine.execMux dir s
  | .parse dir => Sys2Proof.Machine.execParse dir s
  | .parseBsr variant => Sys2Proof.Machine.execParseBsr variant s
  | .hqAlloc dir dev => Sys2Proof.Machine.execHqAlloc dir dev s
  | .hqMark => Sys2Proof.Machine.execHqMark s
  | .hqResult dir succ proc dev => Sys2Proof.Machine.execHqResult dir succ proc dev s
  | .hqRead dir proc dev => Sys2Proof.Machine.execHqRead dir proc dev s
  | .hqCtx dir proc dev => Sys2Proof.Machine.execHqCtx dir proc dev s
  | .lcReg ch dev => Sys2Proof.Machine.execLcReg ch dev s
  | .lcBuf ch dev => Sys2Proof.Machine.execLcBuf ch dev s
  | .lcTime dev => Sys2Proof.Machine.execLcTime dev s
  | .lcRun dev => Sys2Proof.Machine.execLcRun dev s
  | .lcRead ch dev => Sys2Proof.Machine.execLcRead ch dev s

end Sys2Proof.Machine
end

