-- ==== Sys2Proof/Machine/Window.lean ====
section
/-!
DEFINITION. The host window (spec/20_memory.md R72) and what the host's next action asks of the block
(R73).
-/

namespace Sys2Proof.Machine

/-- A location of the window (R72). -/
inductive WindowLoc where
  | reg (i : Fin 16)
  | grantReg (i : Fin 4)
  | cmd
  | status
  | fault
  | cmdcnt
  | mpfId
  | cap0
  | cap1
  | buf (a : Nat)
  | desc (k : Nat) (j : Nat)
  | reserved
deriving DecidableEq, Repr

/-- Where `BUF[0]` stands in the window (R72). -/
abbrev bufBase : Nat := 0x01000000

/-- Where `DESC[0].w0` stands in the window (R72). -/
abbrev descBase : Nat := 0x08000000

/-- The offset of `CMD` (R72). -/
abbrev cmdOffset : Word := 0x080

/-- The location at a byte offset (R72). An offset that is no multiple of 4 is none of the map's, so it
is reserved (log entry 10). -/
def windowLoc (p : Params) (off : Word) : WindowLoc :=
  let o := off.toNat
  if o % 4 ≠ 0 then .reserved
  else if o < 0x040 then .reg (Fin.ofNat 16 (o / 4))
  else if o < 0x050 then .grantReg (Fin.ofNat 4 ((o - 0x040) / 4))
  else if o = 0x080 then .cmd
  else if o = 0x084 then .status
  else if o = 0x088 then .fault
  else if o = 0x08C then .cmdcnt
  else if o = 0x090 then .mpfId
  else if o = 0x094 then .cap0
  else if o = 0x098 then .cap1
  else if bufBase ≤ o ∧ o < bufBase + 4 * p.bufBytes then .buf ((o - bufBase) / 4)
  else if descBase ≤ o ∧ o < descBase + 12 * p.descEntries then
    .desc ((o - descBase) / 12) ((o - descBase) % 12 / 4)
  else .reserved

/-- Word `j` of a descriptor entry (R35). -/
def descWord (d : Desc) (j : Nat) : Word := if j = 0 then d.w0 else if j = 1 then d.w1 else d.w2

/-- A descriptor entry with word `j` replaced (R35). -/
def descSetWord (d : Desc) (j : Nat) (v : Word) : Desc :=
  if j = 0 then { d with w0 := v } else if j = 1 then { d with w1 := v } else { d with w2 := v }

/-- What a window read returns (R72). It has no side effect (R66). -/
def windowRead (s : State) (off : Word) : Word :=
  match windowLoc s.params off with
  | .reg i => s.reg i
  | .grantReg i => s.grantReg i
  | .cmd => 0
  | .status => s.status
  | .fault => s.fault
  | .cmdcnt => s.cmdcnt
  | .mpfId => mpfId
  | .cap0 => cap0 s.params
  | .cap1 => cap1 s.params
  | .buf a => word (s.readByte a).toNat
  | .desc k j => descWord (s.descAt k) j
  | .reserved => 0

/-- A window write to a location other than `CMD` (R72): read-only registers and reserved locations
ignore it, and a `BUF` location takes bits 7:0. -/
def windowWrite (s : State) (off : Word) (data : Word) : State :=
  match windowLoc s.params off with
  | .reg i => s.setReg i data
  | .grantReg i => s.setGrantReg i data
  | .cmd => s
  | .status => s
  | .fault => s
  | .cmdcnt => s
  | .mpfId => s
  | .cap0 => s
  | .cap1 => s
  | .buf a => { s with buf := tableSet 0 s.buf a (BitVec.ofNat 8 data.toNat) }
  | .desc k j => { s with desc := tableSet Desc.zero s.desc k (descSetWord (s.descAt k) j data) }
  | .reserved => s

/-- The host's next action, taken from the script (R73): a write to `CMD` is a command word (R70), every
other action is performed here, and with none left the block waits (R291, R295). -/
def fetch (s : State) : Fetched State :=
  match s.script with
  | [] => .idle
  | .read off :: rest => .performed { s with script := rest, rdata := windowRead s off }
  | .write off data :: rest =>
    if windowLoc s.params off = .cmd then .command data { s with script := rest }
    else .performed (windowWrite { s with script := rest } off data)
  | .hardReset :: rest => .performed { s with script := rest }.resetAll

/-- `wr xN, v` of the spec's listings (R122). -/
def hostWr (i : Nat) (v : Nat) : HostAction := .write (word (4 * i)) (word v)

/-- `wg gN, v` (R122). -/
def hostWg (i : Nat) (v : Nat) : HostAction := .write (word (0x040 + 4 * i)) (word v)

/-- `wb off, b0 b1 ...` (R122): one window write a byte. -/
def hostWb : Nat → List Nat → List HostAction
  | _, [] => []
  | off, b :: rest => .write (word (bufBase + 4 * off)) (word b) :: hostWb (off + 1) rest

/-- `rd` of the location at a byte offset (R122). -/
def hostRd (off : Nat) : HostAction := .read (word off)

/-- The write of a command word to `CMD` (R70). -/
def hostCmd (cw : Nat) : HostAction := .write cmdOffset (word cw)

end Sys2Proof.Machine
end

