-- ==== Sys2Proof/Machine/Step.lean ====
section
/-!
DEFINITION. One step: one action of the host (spec/20_memory.md R73). A command word runs its command,
and a word that is no command is refused with `ERR_ILLEGAL` (spec/30_encoding.md R118).
-/

namespace Sys2Proof.Machine

/-- One host action. With no action left the block waits and nothing changes (R291, R295). -/
def step (s : State) : Host.Outcome State Fault Refusal :=
  match fetch s with
  | .idle => .next s
  | .performed t => .next t
  | .command cw t =>
    match decode cw with
    | .ok i => exec i t
    | .error _ => .next (t.refuse .illegal)

/-- `s` with the write of a command word to `CMD` as the host's next action. -/
def State.withFetchWord (s : State) (nbits w : Nat) : State :=
  { s with script := .write cmdOffset (word (w % 2 ^ nbits)) :: s.script }

end Sys2Proof.Machine
end

