-- ==== Sys2Proof/Safety.lean ====
section
/-!
DEFINITION. What counts as a safe run, in the terms the statements use: no command was refused, which the
sticky `FAULT` register records (spec/60_exceptions.md R253, spec/70_reset_and_hazards.md R294), and what
it means that a command was accepted, refused, or left a part of the state alone.
-/

namespace Sys2Proof.Machine

/-- Nothing has gone wrong since reset: `FAULT = 0` (R253, R294). -/
def State.clean (s : State) : Bool := decide (s.fault = 0)

/-- The model's own fields are as before: the parameters, the host's further actions, its last read. -/
def HostSideKept (s t : State) : Prop := t.params = s.params ∧ t.script = s.script ∧ t.rdata = s.rdata

/-- The command accepted in `s` ended with status 0 in `t` (R251): `x[15]` and `STATUS` are 0, `FAULT` is as
before, `CMDCNT` counts it. -/
def Accepted (s t : State) : Prop :=
  t.reg 15 = 0 ∧ t.status = 0 ∧ t.fault = s.fault ∧ t.cmdcnt = s.cmdcnt + 1 ∧ HostSideKept s t

/-- Every general register outside `written` and `x[15]` is as before (R23). -/
def RegsKept (s t : State) (written : List (Fin 16)) : Prop := ∀ i, i ∉ written → i ≠ 15 → t.reg i = s.reg i

/-- Every byte of `BUF` outside the region `(off, n)` reads as before. -/
def BufKeptOutside (s t : State) (off n : Nat) : Prop :=
  ∀ a, a < off ∨ off + n ≤ a → t.readByte a = s.readByte a

/-- The region of `BUF` from `off` on holds a byte string. -/
def BufHolds (t : State) (off : Nat) (bytes : List Byte) : Prop :=
  ∀ i, i < bytes.length → t.readByte (off + i) = bytes.getD i 0

/-- `DESC` holds a list in entries 0.. and every further entry is as before (R35). -/
def DescHolds (s t : State) (ds : List Desc) : Prop :=
  ∀ k, t.descAt k = if k < ds.length then ds.getD k Desc.zero else s.descAt k

/-- The state after performing `n` actions of the host, if every step answers a next state. -/
def runScript : Nat → State → Option State
  | 0, s => some s
  | n + 1, s =>
    match step s with
    | .next t => runScript n t
    | .fault _ => none
    | .refused _ => none

/-- The four memories and the grant staging registers are as before. -/
def MemoriesKept (s t : State) : Prop :=
  t.g = s.g ∧ t.buf = s.buf ∧ t.desc = s.desc ∧ t.hq = s.hq ∧ t.lc = s.lc

/-- `exec` ends a command with the refusal of R252, spelled out: the code to `x[15]` and `STATUS`, its
`FAULT` bit set, `CMDCNT` plus 1, nothing else. -/
def Refuses (i : Instr) (s : State) (code : Nat) : Prop :=
  exec i s = .next { s with x := s.x.set 15 (word code)
                            status := word code
                            fault := s.fault ||| word (2 ^ code)
                            cmdcnt := s.cmdcnt + 1 }

/-- Every piece of state reads as after a reset (R43). -/
def State.HasResetValues (t : State) : Prop :=
  (∀ i, t.reg i = 0) ∧ (∀ i, t.grantReg i = 0) ∧ t.status = 0 ∧ t.fault = 0 ∧ t.cmdcnt = 0
    ∧ (∀ a, t.readByte a = 0) ∧ (∀ k, t.descAt k = ⟨0, 0, 0⟩)
    ∧ (∀ dev dir proc, (t.harq dev dir proc).state = .free ∧ (t.harq dev dir proc).pos = 0
        ∧ (t.harq dev dir proc).lastNDI = false ∧ (t.harq dev dir proc).hasCtx = false
        ∧ (t.harq dev dir proc).ctx = 0 ∧ (t.harq dev dir proc).lastTBS = 0
        ∧ (t.harq dev dir proc).grant = 0 ∧ (t.harq dev dir proc).grantTbs = 0)
    ∧ (∀ dev ch, t.chan dev ch = ⟨false, 0, 0, 0, 0, 0, 0, 0⟩)
    ∧ windowRead t 0x090 = mpfId ∧ windowRead t 0x094 = cap0 t.params ∧ windowRead t 0x098 = cap1 t.params

/-! ### The rules of the wire formats, as relations -/

/-- `LEN_IDS(dir)` (R93). -/
def InLenIds (dir : Dir) (lcid : Nat) : Prop :=
  (1 ≤ lcid ∧ lcid ≤ 32) ∨ (dir = .ul ∧ 59 ≤ lcid ∧ lcid ≤ 62)

/-- The header length and the length `L` that the header at the cursor announces (R95): the flag is bit 6
of the header byte, a 2-byte field has its most significant byte first. -/
def Announces (pdu : List Byte) (cur hl len : Nat) : Prop :=
  if (pdu.getD cur 0).getLsbD 6 then
    hl = 3 ∧ len = 256 * (pdu.getD (cur + 1) 0).toNat + (pdu.getD (cur + 2) 0).toNat
  else hl = 2 ∧ len = (pdu.getD (cur + 1) 0).toNat

/-- The walk of `parse` from a cursor on, as R151 writes it: what it returns, its list being the sub-PDUs
from there on. -/
inductive ParseWalk (dir : Dir) (pdu : List Byte) : Nat → Except ErrCode Parsed → Prop
  /-- The cursor stands at the end. -/
  | atEnd (cur : Nat) : pdu.length ≤ cur → ParseWalk dir pdu cur (.ok ⟨[], cur, false⟩)
  /-- A padding header ends the walk, the remainder is not examined. -/
  | padding (cur : Nat) : cur < pdu.length → (pdu.getD cur 0).toNat % 64 = 63 →
      ParseWalk dir pdu cur (.ok ⟨[], cur, true⟩)
  /-- Any other channelId without a length field is a format error. -/
  | badId (cur : Nat) : cur < pdu.length → (pdu.getD cur 0).toNat % 64 ≠ 63 →
      ¬ InLenIds dir ((pdu.getD cur 0).toNat % 64) → ParseWalk dir pdu cur (.error .format)
  /-- The length field runs past the end. -/
  | cutField (cur hl len : Nat) : cur < pdu.length → InLenIds dir ((pdu.getD cur 0).toNat % 64) →
      Announces pdu cur hl len → pdu.length < cur + hl → ParseWalk dir pdu cur (.error .trunc)
  /-- The payload runs past the end. -/
  | cutPayload (cur hl len : Nat) : cur < pdu.length → InLenIds dir ((pdu.getD cur 0).toNat % 64) →
      Announces pdu cur hl len → cur + hl ≤ pdu.length → pdu.length < cur + hl + len →
      ParseWalk dir pdu cur (.error .trunc)
  /-- A sub-PDU, and the walk goes on after it. -/
  | subPdu (cur hl len : Nat) (r : Parsed) : cur < pdu.length → InLenIds dir ((pdu.getD cur 0).toNat % 64) →
      Announces pdu cur hl len → cur + hl + len ≤ pdu.length →
      ParseWalk dir pdu (cur + hl + len) (.ok r) →
      ParseWalk dir pdu cur
        (.ok ⟨⟨(pdu.getD cur 0).toNat % 64, cur + hl, (pdu.drop (cur + hl)).take len⟩ :: r.items, r.cursor, r.padSeen⟩)
  /-- An error further on fails the whole PDU. -/
  | laterError (cur hl len : Nat) (e : ErrCode) : cur < pdu.length →
      InLenIds dir ((pdu.getD cur 0).toNat % 64) → Announces pdu cur hl len → cur + hl + len ≤ pdu.length →
      ParseWalk dir pdu (cur + hl + len) (.error e) → ParseWalk dir pdu cur (.error e)

/-- The channel groups whose bit is set in the bitmap of a long report, ascending (R104). -/
def bsrGroups (m : Byte) : List Nat := (List.range 8).filter (fun i => m.getLsbD i)

/-- The `k`-th entry of a long report (R104): the byte at index `1 + k` is its level where one remains,
the fallback level stands where none does. -/
def bsrLongDesc (p : Params) (bytes : List Byte) (k : Nat) : Desc :=
  let group := (bsrGroups (bytes.getD 0 0)).getD k 0
  if 1 + k < bytes.length then ⟨word group, p.bsr8.getD (bytes.getD (1 + k) 0).toNat 0, 0⟩
  else ⟨word group, p.bsrFallback, 1⟩

/-! ### The rules of the LCP, as relations -/

/-- Step 1 on one channel (R208): an unlimited channel's bucket holds the smaller of pending and budget, a
finite one grows by rate times time over 1000, rounded down and saturated. -/
def bucketFilled (budget : Nat) (c : LcpChan) : LcpChan :=
  { c with bj := if c.unlimited then min c.pending budget
                 else min (c.bj + c.pbr * min c.elapsed c.bsd / 1000) (2 ^ 32 - 1) }

/-- Two or more channels are active, which is when Round 1 takes place (R206, R209). -/
def AtLeastTwoActive (cs : List LcpChan) : Prop := 2 ≤ (cs.filter (fun c => decide (0 < c.pending))).length

/-- Round 1 as R209 writes it: `Round1Walk budget cs cs' rem'` says that it leaves the channels `cs'` and the
remaining budget `rem'`. Channel `j` uses `us[j]` bytes: the smallest of its bucket, what is left before it
and its pending bytes, and nothing once fewer than 8 bytes are left; its bucket falls by what it used,
unless its rate is unlimited. -/
def Round1Walk (budget : Nat) (cs cs' : List LcpChan) (rem' : Nat) : Prop :=
  ∃ us : List Nat, us.length = cs.length
    ∧ (∀ j c, cs[j]? = some c → us.getD j 0 =
        if budget - (us.take j).sum < 8 then 0 else min (min c.bj (budget - (us.take j).sum)) c.pending)
    ∧ cs' = List.zipWith (fun c u => { c with alloc := c.alloc + u
                                              pending := c.pending - u
                                              bj := if c.unlimited then c.bj else c.bj - u }) cs us
    ∧ rem' = budget - us.sum

/-- The bytes channel `j` uses in one iteration of Round 2 at priority `p` with `rem` bytes left (R210):
with `n` served channels, the first `rem mod n` of them have the share `rem div n + 1`, the others
`rem div n`, and each uses the smaller of its share and its pending bytes. -/
def iterationUse (p rem : Nat) (cs : List LcpChan) (j : Nat) (c : LcpChan) : Nat :=
  let n := (cs.filter (wants p)).length
  let i := ((cs.take j).filter (wants p)).length
  if wants p c then min (rem / n + (if i < rem % n then 1 else 0)) c.pending else 0

/-- The channels after one iteration (R210). -/
def iterate (p rem : Nat) (cs : List LcpChan) : List LcpChan :=
  cs.mapIdx (fun j c => { c with alloc := c.alloc + iterationUse p rem cs j c
                                 pending := c.pending - iterationUse p rem cs j c })

/-- The bytes one iteration uses (R210). -/
def iterationTotal (p rem : Nat) (cs : List LcpChan) : Nat :=
  (cs.mapIdx (fun j c => iterationUse p rem cs j c)).sum

/-- Round 2 from priority `p` on, as R210 writes it: `Round2Walk p rem cs cs' rem'` says that it leaves
the channels `cs'` and the remaining budget `rem'`. -/
inductive Round2Walk : Nat → Nat → List LcpChan → List LcpChan → Nat → Prop
  /-- Fewer than 8 bytes remain: the whole algorithm goes to step 4. -/
  | tooLittle (p rem : Nat) (cs : List LcpChan) : p ≤ 16 → rem < 8 → Round2Walk p rem cs cs rem
  /-- All sixteen priorities are done. -/
  | allDone (rem : Nat) (cs : List LcpChan) : Round2Walk 17 rem cs cs rem
  /-- No channel of this priority has pending bytes: the next priority. -/
  | nextPriority (p rem : Nat) (cs cs' : List LcpChan) (rem' : Nat) : p ≤ 16 → 8 ≤ rem →
      (∀ c ∈ cs, wants p c = false) → Round2Walk (p + 1) rem cs cs' rem' → Round2Walk p rem cs cs' rem'
  /-- One iteration, and again. -/
  | iteration (p rem : Nat) (cs cs' : List LcpChan) (rem' : Nat) : p ≤ 16 → 8 ≤ rem →
      (∃ c ∈ cs, wants p c = true) →
      Round2Walk p (rem - iterationTotal p rem cs) (iterate p rem cs) cs' rem' →
      Round2Walk p rem cs cs' rem'

/-- A whole run on channels in the order of service, as R212 composes it: step 1 on every channel, Round 1
exactly where at least two channels are active, Round 2 from priority 1 on, and every elapsed time 0. -/
def RunWalk (budget : Nat) (cs cs' : List LcpChan) (rem' : Nat) : Prop :=
  ∃ (cs1 : List LcpChan) (rem1 : Nat) (cs2 : List LcpChan),
    (AtLeastTwoActive cs → Round1Walk budget (cs.map (bucketFilled budget)) cs1 rem1)
    ∧ (¬ AtLeastTwoActive cs → cs1 = cs.map (bucketFilled budget) ∧ rem1 = budget)
    ∧ Round2Walk 1 rem1 cs1 cs2 rem'
    ∧ cs' = cs2.map (fun c => { c with elapsed := 0 })

/-- The order of service (R206). -/
def ServedBefore (c d : LcpChan) : Prop := c.prio < d.prio ∨ (c.prio = d.prio ∧ c.id < d.id)

/-! ### A HARQ process through its redundancy-version sequence -/

/-- Failure reports, each followed by the retransmission mark it asks for (R184): none if an operation is
refused or a report returns another outcome than 1. -/
def retransmit (p : Params) : HarqRec → List (GrantBits × Word) → Option HarqRec
  | r, [] => some r
  | r, (grant, tbs) :: rest =>
    match onReceptionResult p r false with
    | .error _ => none
    | .ok (w, outcome) =>
      if outcome = 1 then
        match markBusy w grant tbs with
        | .error _ => none
        | .ok r' => retransmit p r' rest
      else none

/-! ### Invariants -/

/-- Every memory and table is in its one canonical form. -/
def State.canonical (s : State) : Bool :=
  Memory.wf s.buf && tableWf Desc.zero s.desc && tableWf HarqRec.reset s.hq && tableWf LcRec.reset s.lc

/-- Nothing is held outside the memories and tables the parameters give: `BUF` addresses, `DESC` indices,
HARQ records of existing devices and processes, logical-channel records of existing devices and
channels (R34, R35, R36, R39). -/
def State.inRange (s : State) : Bool :=
  s.buf.all (fun e => decide (e.1 < s.params.bufBytes))
  && s.desc.all (fun e => decide (e.1 < s.params.descEntries))
  && s.hq.all (fun e => decide (1 ≤ e.1 / 32 ∧ e.1 / 32 ≤ s.params.numDevices ∧ e.1 % 16 < s.params.numHarq))
  && s.lc.all (fun e => decide (1 ≤ e.1 / 64 ∧ e.1 / 64 ≤ s.params.numDevices ∧ 1 ≤ e.1 % 64 ∧ e.1 % 64 ≤ 32))

/-- The invariants I2 to I6 of a HARQ record (R37). -/
def HarqRecOk (p : Params) (r : HarqRec) : Prop :=
  (r.hasCtx = true → r.state = .busy) ∧ r.pos ≤ p.rvLen - 1 ∧ (r.hasCtx = true → r.pos < p.rvLen - 1)
    ∧ (r.state = .free → r.pos = 0) ∧ (r.hasCtx = true → r.ctx = r.grant)

/-- The invariants I2 to I6 of every HARQ record (R37). -/
def State.HarqOk (s : State) : Prop := ∀ dev dir proc, HarqRecOk s.params (s.harq dev dir proc)

/-- A registered channel has a priority of 1..16 (R40); an unregistered one is in its reset state (R41). -/
def LcRecOk (r : LcRec) : Prop :=
  (r.valid = true → 1 ≤ r.prio.toNat ∧ r.prio.toNat ≤ 16) ∧ (r.valid = false → r = LcRec.reset)

/-- `LcRecOk` of every record. -/
def State.LcOk (s : State) : Prop := ∀ dev ch, LcRecOk (s.chan dev ch)

/-- `STATUS` holds a status code and nothing else (R30, R250), `FAULT` has only the bits 1..13 (R31), and
the last command's code, if it is not 0, is among them (R25). -/
def State.StatusOk (s : State) : Prop :=
  s.status.toNat ≤ 13 ∧ s.fault &&& 0x3FFE = s.fault ∧ (s.status ≠ 0 → s.fault.getLsbD s.status.toNat = true)

end Sys2Proof.Machine
end

