-- ==== Sys2Proof/Certificates/Slice0/Obligations.lean ====
section
/-!
DEFINITION. The statements for the provers. Each docstring names the rule of spec/ it formalises. Most
rules of the wrapper are decisions of the spec itself (spec/92_eei_decisions.md), which they say where
they stand; a statement that rests on a choice of the model names its log entry.
-/

open Sys2Proof Sys2Proof.Machine

/-! ## Command words -/

/-- The `match` column of spec/opcode_table.json. -/
def Sys2Proof.tableMatch : Opcode → Word
  | .nop => 0x00000000
  | .sreset => 0x01000000
  | .encSub => 0x10000000
  | .encPad => 0x11000000
  | .mux => 0x12000000
  | .parse => 0x13000000
  | .parseBsr => 0x14000000
  | .hqAlloc => 0x20000000
  | .hqMark => 0x21000000
  | .hqResult => 0x22000000
  | .hqRead => 0x23000000
  | .hqCtx => 0x24000000
  | .lcReg => 0x30000000
  | .lcBuf => 0x31000000
  | .lcTime => 0x32000000
  | .lcRun => 0x33000000
  | .lcRead => 0x34000000

/-- The `mask` column of spec/opcode_table.json. -/
def Sys2Proof.tableMask : Opcode → Word
  | .nop => 0xFFFFFFFF
  | .sreset => 0xFFFFFFFF
  | .encSub => 0xFF7FFFC0
  | .encPad => 0xFFFFFFFF
  | .mux => 0xFF7FFFFF
  | .parse => 0xFF7FFFFF
  | .parseBsr => 0xFFFFFFFC
  | .hqAlloc => 0xFF7F0000
  | .hqMark => 0xFFFFFFFF
  | .hqResult => 0xFF300000
  | .hqRead => 0xFF700000
  | .hqCtx => 0xFF700000
  | .lcReg => 0xFFC00000
  | .lcBuf => 0xFFC00000
  | .lcTime => 0xFFFF0000
  | .lcRun => 0xFFFF0000
  | .lcRead => 0xFFC00000

/-- Decoding the encoding of a well-formed command gives it back (R110 to R117). -/
def Obligations.DecodeEncodeRoundTrip : Prop :=
  ∀ i : Instr, i.wf = true → decode (encode i) = .ok i

/-- A word that decodes is the encoding of a well-formed command: each command has one word (R110). -/
def Obligations.DecodedWordIsItsEncoding : Prop :=
  ∀ (w : Word) (i : Instr), decode w = .ok i → i.wf = true ∧ encode i = w

/-- A word decodes to a command of an opcode exactly where it agrees with the row's match under the row's
mask (R117, R118, spec/opcode_table.json). -/
def Obligations.DecodeAgreesWithOpcodeTable : Prop :=
  ∀ (w : Word) (o : Opcode), (∃ i, decode w = .ok i ∧ opcodeOf i = o) ↔ w &&& tableMask o = tableMatch o

/-- A few words of the spec's listings decode to the commands it says (spec/95_test_vectors.md). -/
def Obligations.SampleWordsDecode : Prop :=
  decode 0x10800020 = .ok (.encSub .ul 32) ∧ decode 0x12800000 = .ok (.mux .ul)
    ∧ decode 0x14000002 = .ok (.parseBsr .longTruncated) ∧ decode 0x22810002 = .ok (.hqResult .ul false 1 2)
    ∧ decode 0x22400001 = .ok (.hqResult .dl true 0 1) ∧ decode 0x34050001 = .ok (.lcRead 5 1)
    ∧ decode 0x10400005 = .error (.mustBeZero .encSub) ∧ decode 0x02000000 = .error (.reservedOpcode 2)

/-! ## The step and the host window -/

/-- A step whose next host action writes a command word to `CMD` runs the decoded command (R70), the
action being consumed; and `withFetchWord` puts such an action first (log entry 5). -/
def Obligations.StepRunsTheDecodedCommand : Prop :=
  (∀ (s : State) (cw : Word) (rest : List HostAction) (i : Instr),
    s.script = .write 0x080 cw :: rest → decode cw = .ok i → step s = exec i { s with script := rest })
  ∧ (∀ (s : State) (cw : Word) (i : Instr), decode cw = .ok i →
      step (s.withFetchWord 32 cw.toNat) = exec i s)

/-- An illegal word, one that agrees with no row of the opcode table, is refused with `ERR_ILLEGAL`: code
1 to `x[15]` and `STATUS`, `FAULT[1]`, `CMDCNT` plus 1, nothing else (R118). -/
def Obligations.IllegalWordIsRefused : Prop :=
  ∀ (s : State) (cw : Word) (rest : List HostAction), s.script = .write 0x080 cw :: rest →
    (∀ o, cw &&& tableMask o ≠ tableMatch o) →
    step s = .next { s with script := rest
                            x := s.x.set 15 1
                            status := 1
                            fault := s.fault ||| 2
                            cmdcnt := s.cmdcnt + 1 }

/-- Every step answers a next state: no word and no host action stops the block (R13, R265). With no
action left it stays as it is (R295; the model's reading, log entry 7). -/
def Obligations.EveryStepGoesOn : Prop :=
  (∀ s : State, ∃ t, step s = .next t) ∧ (∀ s : State, s.script = [] → step s = .next s)

/-- A host read returns what R72 says of the location and has no side effect (R66): only the model's own
record of the host changes (log entry 6). Every offset that is none of the map's named locations reads 0, the
row 0x09C to 0x0FC and the last row of R72 alike; an offset that is no multiple of 4 is taken as such an
offset (the model's reading, log entry 10). What is read is `windowRead`, of which the statements about
`MPF_ID`, `CAP0` and `CAP1` speak. -/
def Obligations.HostReadReturnsTheLocation : Prop :=
  ∀ (s : State) (off : Word) (rest : List HostAction), s.script = .read off :: rest →
    ∃ v, step s = .next { s with script := rest, rdata := v }
      ∧ v = windowRead s off
      ∧ (∀ i : Fin 16, off.toNat = 4 * i.val → v = s.reg i)
      ∧ (∀ i : Fin 4, off.toNat = 0x040 + 4 * i.val → v = s.grantReg i)
      ∧ (off = 0x080 → v = 0) ∧ (off = 0x084 → v = s.status) ∧ (off = 0x088 → v = s.fault)
      ∧ (off = 0x08C → v = s.cmdcnt) ∧ (off = 0x090 → v = 0x4D504601)
      ∧ (off = 0x094 → v = cap0 s.params) ∧ (off = 0x098 → v = cap1 s.params)
      ∧ (s.params.legal = true → ∀ a, a < s.params.bufBytes → off.toNat = 0x01000000 + 4 * a →
          v = (s.readByte a).setWidth 32)
      ∧ (s.params.legal = true → ∀ k, k < s.params.descEntries →
          (off.toNat = 0x08000000 + 12 * k → v = (s.descAt k).w0)
          ∧ (off.toNat = 0x08000000 + 12 * k + 4 → v = (s.descAt k).w1)
          ∧ (off.toNat = 0x08000000 + 12 * k + 8 → v = (s.descAt k).w2))
      ∧ (0x050 ≤ off.toNat → off ∉ [0x084, 0x088, 0x08C, 0x090, 0x094, 0x098] →
          ¬ (0x01000000 ≤ off.toNat ∧ off.toNat < 0x01000000 + 4 * s.params.bufBytes) →
          ¬ (0x08000000 ≤ off.toNat ∧ off.toNat < 0x08000000 + 12 * s.params.descEntries) → v = 0)
      ∧ (off.toNat % 4 ≠ 0 → v = 0)

/-- A host write to any location but `CMD` changes what that location reads as and no other location
(R72): registers and `DESC` words take the word, a `BUF` location its bits 7:0, the read-only registers
and the reserved locations ignore it. An offset that is no multiple of 4 is taken as reserved (the model's
reading, log entry 10). The tables are out of the host's reach (R60). -/
def Obligations.HostWriteChangesOneLocation : Prop :=
  ∀ (s : State) (off v : Word) (rest : List HostAction), s.script = .write off v :: rest → off ≠ 0x080 →
    s.params.legal = true →
    ∃ t, step s = .next t ∧ t.script = rest ∧ t.params = s.params ∧ t.rdata = s.rdata
      ∧ t.hq = s.hq ∧ t.lc = s.lc ∧ t.status = s.status ∧ t.fault = s.fault ∧ t.cmdcnt = s.cmdcnt
      ∧ (∀ off' : Word, off' ≠ off → windowRead t off' = windowRead s off')
      ∧ windowRead t off =
          (if off.toNat % 4 ≠ 0 then windowRead s off
           else if off.toNat < 0x050 then v
           else if 0x01000000 ≤ off.toNat ∧ off.toNat < 0x01000000 + 4 * s.params.bufBytes then v &&& 0xFF
           else if 0x08000000 ≤ off.toNat ∧ off.toNat < 0x08000000 + 12 * s.params.descEntries then v
           else windowRead s off)

/-- `MPF_ID` is the constant of R27, in every state and after reset. -/
def Obligations.MpfIdIsConstant : Prop :=
  (∀ s : State, windowRead s 0x090 = 0x4D504601) ∧ windowRead State.reset 0x090 = 0x4D504601

/-- `CAP0` holds the parameters in the fields of R28, an absent redundancy version reading 0. -/
def Obligations.Cap0HoldsItsFields : Prop :=
  ∀ s : State, s.params.legal = true →
    ((windowRead s 0x094).extractLsb' 0 16).toNat = s.params.numDevices
    ∧ ((windowRead s 0x094).extractLsb' 16 5).toNat = s.params.numHarq
    ∧ ((windowRead s 0x094).extractLsb' 21 3).toNat = s.params.rvLen
    ∧ (∀ i, i < 4 → (windowRead s 0x094).extractLsb' (24 + 2 * i) 2 = s.params.rvSeq.getD i 0)

/-- `CAP1` holds the parameters in the fields of R29. -/
def Obligations.Cap1HoldsItsFields : Prop :=
  ∀ s : State, s.params.legal = true →
    2 ^ ((windowRead s 0x098).extractLsb' 0 5).toNat = s.params.bufBytes
    ∧ ((windowRead s 0x098).extractLsb' 5 6).toNat = s.params.numRbgs
    ∧ (windowRead s 0x098).extractLsb' 11 21 = 0

/-! ## What every command does -/

/-- Every command but SRESET writes its status code, 0..13, to `x[15]` and `STATUS` and counts in
`CMDCNT`, whether accepted or refused (R251). -/
def Obligations.EveryCommandReportsItsStatus : Prop :=
  ∀ (i : Instr) (s : State), i ≠ .sreset →
    ∃ (t : State) (k : Nat), exec i s = .next t ∧ k ≤ 13 ∧ t.reg 15 = word k
      ∧ t.status = word k ∧ t.cmdcnt = s.cmdcnt + 1

/-- A command that ends with a non-zero status code has changed nothing but the four marks (R252). -/
def Obligations.RefusalChangesOnlyTheMarks : Prop :=
  ∀ (i : Instr) (s t : State), exec i s = .next t → t.status ≠ 0 →
    ∃ k, 1 ≤ k ∧ k ≤ 13 ∧ t = { s with x := s.x.set 15 (word k)
                                       status := word k
                                       fault := s.fault ||| word (2 ^ k)
                                       cmdcnt := s.cmdcnt + 1 }

/-- `FAULT` is sticky and no command depends on it (R253): with any other value in `FAULT`, every command
but SRESET does the same and its old bits stay; SRESET and the hardware reset clear it. -/
def Obligations.FaultIsStickyAndNeverRead : Prop :=
  (∀ (i : Instr) (s : State) (f : Word), i ≠ .sreset →
    ∃ t, exec i { s with fault := 0 } = .next t
      ∧ exec i { s with fault := f } = .next { t with fault := f ||| t.fault })
  ∧ (∀ s : State, ∃ t, exec .sreset s = .next t ∧ t.fault = 0)
  ∧ (∀ (s : State) (rest : List HostAction), s.script = .hardReset :: rest →
      ∃ t, step s = .next t ∧ t.fault = 0)

/-- No command reads `STATUS` (R25) or `DESC` (R35): with other contents there, it does the same. -/
def Obligations.NoCommandReadsStatusOrDesc : Prop :=
  ∀ (i : Instr) (s : State) (v : Word) (ds : List (Nat × Desc)),
    exec i { s with status := v } = exec i s
    ∧ ∃ t t', exec i s = .next t ∧ exec i { s with desc := ds } = .next t' ∧ { t' with desc := t.desc } = t

/-- Commands never write `x[0..7]`, and a refused one writes no result register (R23). -/
def Obligations.ArgumentRegistersAreNeverWritten : Prop :=
  ∀ (i : Instr) (s t : State), i ≠ .sreset → exec i s = .next t →
    (∀ j : Fin 16, j.val < 8 → t.reg j = s.reg j)
    ∧ (t.status ≠ 0 → ∀ j : Fin 16, j.val < 15 → t.reg j = s.reg j)

/-- Each memory is written by the commands the rules name and by no other: `BUF` (R34), `DESC` (R35), the
grant registers (R33), `HQ` and `LC` (R140, R170, R200). -/
def Obligations.MemoriesHaveTheirNamedWriters : Prop :=
  ∀ (i : Instr) (s t : State), i ≠ .sreset → exec i s = .next t →
    (opcodeOf i ∉ [.encSub, .encPad, .mux] → t.buf = s.buf)
    ∧ (opcodeOf i ∉ [.parse, .parseBsr, .lcRun] → t.desc = s.desc)
    ∧ (opcodeOf i ≠ .hqCtx → t.g = s.g)
    ∧ (opcodeOf i ∉ [.hqMark, .hqResult] → t.hq = s.hq)
    ∧ (opcodeOf i ∉ [.lcReg, .lcBuf, .lcTime, .lcRun] → t.lc = s.lc)

/-- No command, no host action and no reset changes the parameters (R6, R291). The parameters stand in
the state by the model's choice (log entry 1). -/
def Obligations.ParametersNeverChange : Prop :=
  (∀ s t : State, step s = .next t → t.params = s.params)
  ∧ (∀ (i : Instr) (s t : State), exec i s = .next t → t.params = s.params)

/-- NOP, the all-zero word, writes status 0 and counts, and changes nothing else, no `FAULT` bit either;
the opcode with any other bit set is no command (R240). -/
def Obligations.NopOnlyReports : Prop :=
  (∀ s : State, exec .nop s = .next { s with x := s.x.set 15 0, status := 0, cmdcnt := s.cmdcnt + 1 })
  ∧ decode 0x00000000 = .ok .nop
  ∧ (∀ w : Word, w ≠ 0 → w.toNat < 2 ^ 24 → decode w = .error (.mustBeZero .nop))

/-- SRESET, the word `0x01000000`, and the hardware reset input put every piece of state at its reset
value, and the state after the one is the state after the other (R241, R290, R43). What the model adds
to the state survives (log entry 9). -/
def Obligations.BothResetsGiveTheResetState : Prop :=
  (∀ s : State, exec .sreset s =
      .next { State.reset with params := s.params, script := s.script, rdata := s.rdata })
  ∧ (∀ (s : State) (rest : List HostAction), s.script = .write 0x080 0x01000000 :: rest →
      step s = step { s with script := .hardReset :: rest })

/-- After the start, after SRESET and after the hardware reset every piece of state reads as R43 says
(R43, R290). -/
def Obligations.ResetValues : Prop :=
  State.reset.HasResetValues
  ∧ (∀ s : State, ∃ t, exec .sreset s = .next t ∧ t.HasResetValues)
  ∧ (∀ (s : State) (rest : List HostAction), s.script = .hardReset :: rest →
      ∃ t, step s = .next t ∧ t.HasResetValues)

/-! ## CODEC -/

/-- ENC_SUB (R141, R142): with an accepted channelId, a payload of at most 65535 bytes and both regions in
`BUF`, it stores the header and the payload as it stood before, and reports the lengths; otherwise the
first check that fails, in the order channelId, length, bounds, refuses it. -/
def Obligations.EncSubStoresTheSubPdu : Prop :=
  ∀ (dir : Dir) (lcid : Nat) (s : State),
    let src := (s.reg 0).toNat
    let n := (s.reg 1).toNat
    let dst := (s.reg 2).toNat
    let hl := if n ≤ 255 then 2 else 3
    (InLenIds dir lcid → n ≤ 65535 → src + n ≤ s.params.bufBytes → dst + (hl + n) ≤ s.params.bufBytes →
      ∃ t, exec (.encSub dir lcid) s = .next t ∧ Accepted s t ∧ RegsKept s t [8, 9]
        ∧ t.reg 8 = word (hl + n) ∧ t.reg 9 = word hl
        ∧ (t.readByte dst).toNat = (if n ≤ 255 then lcid else 64 + lcid)
        ∧ (n ≤ 255 → (t.readByte (dst + 1)).toNat = n)
        ∧ (255 < n → (t.readByte (dst + 1)).toNat = n / 256 ∧ (t.readByte (dst + 2)).toNat = n % 256)
        ∧ (∀ i, i < n → t.readByte (dst + hl + i) = s.readByte (src + i))
        ∧ BufKeptOutside s t dst (hl + n)
        ∧ t.g = s.g ∧ t.desc = s.desc ∧ t.hq = s.hq ∧ t.lc = s.lc)
    ∧ (¬ InLenIds dir lcid → Refuses (.encSub dir lcid) s 2)
    ∧ (InLenIds dir lcid → 65535 < n → Refuses (.encSub dir lcid) s 3)
    ∧ (InLenIds dir lcid → n ≤ 65535 →
        (s.params.bufBytes < src + n ∨ s.params.bufBytes < dst + (hl + n)) → Refuses (.encSub dir lcid) s 7)

/-- ENC_PAD (R144, R145): a length of at least 1 that fits `BUF` stores `0x3F` and zeros; length 0 is
refused whatever the offset, and then a region past the end. -/
def Obligations.EncPadStoresPadding : Prop :=
  ∀ s : State,
    let n := (s.reg 1).toNat
    let dst := (s.reg 2).toNat
    (1 ≤ n → dst + n ≤ s.params.bufBytes →
      ∃ t, exec .encPad s = .next t ∧ Accepted s t ∧ RegsKept s t [8] ∧ t.reg 8 = word n
        ∧ t.readByte dst = 0x3F ∧ (∀ a, dst < a → a < dst + n → t.readByte a = 0)
        ∧ BufKeptOutside s t dst n ∧ t.g = s.g ∧ t.desc = s.desc ∧ t.hq = s.hq ∧ t.lc = s.lc)
    ∧ (n < 1 → Refuses .encPad s 4)
    ∧ (1 ≤ n → s.params.bufBytes < dst + n → Refuses .encPad s 7)

/-- MUX (R147, R148): the three regions, as they stood before, one after another in the order of the
direction; any region past the end is refused. -/
def Obligations.MuxConcatenatesByDirection : Prop :=
  ∀ (dir : Dir) (s : State),
    let dataOff := (s.reg 0).toNat
    let dataLen := (s.reg 1).toNat
    let ctrlOff := (s.reg 2).toNat
    let ctrlLen := (s.reg 3).toNat
    let padOff := (s.reg 4).toNat
    let padLen := (s.reg 5).toNat
    let dst := (s.reg 6).toNat
    let total := dataLen + ctrlLen + padLen
    let inBuf := dataOff + dataLen ≤ s.params.bufBytes ∧ ctrlOff + ctrlLen ≤ s.params.bufBytes
      ∧ padOff + padLen ≤ s.params.bufBytes ∧ dst + total ≤ s.params.bufBytes
    (inBuf →
      ∃ t, exec (.mux dir) s = .next t ∧ Accepted s t ∧ RegsKept s t [8] ∧ t.reg 8 = word total
        ∧ (dir = .dl → BufHolds t dst (s.readBytes ctrlOff ctrlLen ++ s.readBytes dataOff dataLen
            ++ s.readBytes padOff padLen))
        ∧ (dir = .ul → BufHolds t dst (s.readBytes dataOff dataLen ++ s.readBytes ctrlOff ctrlLen
            ++ s.readBytes padOff padLen))
        ∧ BufKeptOutside s t dst total ∧ t.g = s.g ∧ t.desc = s.desc ∧ t.hq = s.hq ∧ t.lc = s.lc)
    ∧ (¬ inBuf → Refuses (.mux dir) s 7)

/-- `parse` is the walk of R151 to its end: the walk has one outcome, and `parse` returns it. -/
def Obligations.ParseIsTheWalk : Prop :=
  ∀ (pdu : List Byte) (dir : Dir) (out : Except ErrCode Parsed),
    ParseWalk dir pdu 0 out ↔ parse pdu dir = out

/-- PARSE (R150): on a PDU in `BUF` that the walk accepts, the list goes to `DESC` with absolute payload
offsets, and the count, the cursor and the padding flag to `x[8..10]`; `BUF` is not copied. A region past
the end, a format error and a truncation refuse it. -/
def Obligations.ParseReportsTheWalk : Prop :=
  ∀ (dir : Dir) (s : State),
    let off := (s.reg 0).toNat
    let n := (s.reg 1).toNat
    (off + n ≤ s.params.bufBytes → ∀ r, ParseWalk dir (s.readBytes off n) 0 (.ok r) →
      ∃ t, exec (.parse dir) s = .next t ∧ Accepted s t ∧ RegsKept s t [8, 9, 10]
        ∧ t.reg 8 = word r.items.length ∧ t.reg 9 = word r.cursor ∧ t.reg 10 = word (if r.padSeen then 1 else 0)
        ∧ DescHolds s t (r.items.map (fun it => ⟨word it.lcid, word (off + it.start), word it.payload.length⟩))
        ∧ t.g = s.g ∧ t.buf = s.buf ∧ t.hq = s.hq ∧ t.lc = s.lc)
    ∧ (s.params.bufBytes < off + n → Refuses (.parse dir) s 7)
    ∧ (off + n ≤ s.params.bufBytes → ParseWalk dir (s.readBytes off n) 0 (.error .format) →
        Refuses (.parse dir) s 5)
    ∧ (off + n ≤ s.params.bufBytes → ParseWalk dir (s.readBytes off n) 0 (.error .trunc) →
        Refuses (.parse dir) s 6)

/-- Framing and parsing agree (property P1 of spec/95_test_vectors.md, R142, R145, R148, R151), for whole
PDUs: data and control sub-PDUs of accepted channelIds, encoded, multiplexed in the order of the
direction, with or without padding, parse back to exactly the channelIds and payloads, in the order of
the PDU; the cursor stands where the padding begins. -/
def Obligations.ParseInvertsFraming : Prop :=
  ∀ (dir : Dir) (data ctrl : List (Nat × List Byte)) (dataEnc ctrlEnc : List (List Byte)) (padLen : Nat)
    (pad : List Byte),
    (∀ it ∈ data ++ ctrl, InLenIds dir it.1 ∧ it.2.length ≤ 65535) →
    List.Forall₂ (fun it b => encodeSubPDU it.1 it.2 dir = .ok b) data dataEnc →
    List.Forall₂ (fun it b => encodeSubPDU it.1 it.2 dir = .ok b) ctrl ctrlEnc →
    (padLen = 0 ∧ pad = [] ∨ encodePadding padLen = .ok pad) →
    ∃ r, parse (multiplex dataEnc.flatten ctrlEnc.flatten pad dir) dir = .ok r
      ∧ r.items.map (fun it => (it.lcid, it.payload)) = (match dir with | .dl => ctrl ++ data | .ul => data ++ ctrl)
      ∧ r.cursor = dataEnc.flatten.length + ctrlEnc.flatten.length
      ∧ r.padSeen = decide (pad ≠ [])

/-- `encodeSubPDU` as R142 writes it: which pairs it refuses and why, and the header and payload it gives
for the others. -/
def Obligations.EncodeSubPduIsItsRule : Prop :=
  ∀ (dir : Dir) (lcid : Nat) (payload : List Byte), lcid < 64 →
    let n := payload.length
    let hl := if n ≤ 255 then 2 else 3
    (¬ InLenIds dir lcid → encodeSubPDU lcid payload dir = .error .lcid)
    ∧ (InLenIds dir lcid → 65535 < n → encodeSubPDU lcid payload dir = .error .len)
    ∧ (InLenIds dir lcid → n ≤ 65535 →
        ∃ b, encodeSubPDU lcid payload dir = .ok b ∧ b.length = hl + n ∧ b.drop hl = payload
          ∧ (b.getD 0 0).toNat = (if n ≤ 255 then lcid else 64 + lcid)
          ∧ (n ≤ 255 → (b.getD 1 0).toNat = n)
          ∧ (255 < n → (b.getD 1 0).toNat = n / 256 ∧ (b.getD 2 0).toNat = n % 256))

/-- ENC_SUB and then PARSE of what it stored (R141, R150): one sub-PDU, its payload the bytes ENC_SUB was
given. -/
def Obligations.EncSubThenParse : Prop :=
  ∀ (dir : Dir) (lcid : Nat) (s : State),
    let src := (s.reg 0).toNat
    let n := (s.reg 1).toNat
    let dst := (s.reg 2).toNat
    let hl := if n ≤ 255 then 2 else 3
    InLenIds dir lcid → n ≤ 65535 → src + n ≤ s.params.bufBytes → dst + (hl + n) ≤ s.params.bufBytes →
    ∃ t u, exec (.encSub dir lcid) s = .next t
      ∧ exec (.parse dir) ((t.setReg 0 (s.reg 2)).setReg 1 (t.reg 8)) = .next u
      ∧ u.reg 15 = 0 ∧ u.reg 8 = 1 ∧ u.reg 9 = word (hl + n) ∧ u.reg 10 = 0
      ∧ u.descAt 0 = ⟨word lcid, word (dst + hl), word n⟩
      ∧ (∀ i, i < n → u.readByte (dst + hl + i) = s.readByte (src + i))

/-- The parser ignores bit 7 of the first header of a PDU, and bit 6 too where it is padding (R97), and
it does not examine the bytes after a padding header (R99). -/
def Obligations.ReservedBitsAndPaddingAreIgnored : Prop :=
  (∀ (dir : Dir) (h : Byte) (rest : List Byte), parse ((h ^^^ 0x80) :: rest) dir = parse (h :: rest) dir)
  ∧ (∀ (dir : Dir) (h : Byte) (rest : List Byte), h.toNat % 64 = 63 → parse (h :: rest) dir = .ok ⟨[], 0, true⟩)
  ∧ (∀ (dir : Dir) (pdu tail tail' : List Byte) (h : Byte) (r : Parsed), h.toNat % 64 = 63 →
      parse pdu dir = .ok r → r.padSeen = false →
      parse (pdu ++ h :: tail) dir = .ok ⟨r.items, pdu.length, true⟩
      ∧ parse (pdu ++ h :: tail') dir = parse (pdu ++ h :: tail) dir)

/-- Every parsed list lies in its PDU and fits `DESC` (R35, R150): the sub-PDUs do not overlap, each
payload is its slice, and there are at most half as many as the PDU has bytes. -/
def Obligations.ParsedListFitsThePdu : Prop :=
  ∀ (dir : Dir) (pdu : List Byte) (r : Parsed), parse pdu dir = .ok r →
    2 * r.items.length ≤ pdu.length ∧ r.cursor ≤ pdu.length ∧ (r.padSeen = false → r.cursor = pdu.length)
    ∧ (∀ it ∈ r.items, InLenIds dir it.lcid ∧ 2 ≤ it.start ∧ it.start + it.payload.length ≤ r.cursor
        ∧ it.payload = (pdu.drop it.start).take it.payload.length)
    ∧ r.items.Pairwise (fun a b => a.start + a.payload.length + 2 ≤ b.start)

/-- PARSE_BSR, short forms (R154, R155, R102): one entry, group from bits 7:5 and size from the table at
bits 4:0; further bytes are ignored. -/
def Obligations.ParseBsrShortForms : Prop :=
  ∀ (v : BsrVariant) (s : State), v = .short ∨ v = .shortTruncated →
    let off := (s.reg 0).toNat
    let n := (s.reg 1).toNat
    let b := s.readByte off
    1 ≤ n → off + n ≤ s.params.bufBytes →
      ∃ t, exec (.parseBsr v) s = .next t ∧ Accepted s t ∧ RegsKept s t [8] ∧ t.reg 8 = 1
        ∧ DescHolds s t [⟨(b.extractLsb' 5 3).setWidth 32, s.params.bsr5.getD (b.extractLsb' 0 5).toNat 0, 0⟩]
        ∧ t.g = s.g ∧ t.buf = s.buf ∧ t.hq = s.hq ∧ t.lc = s.lc

/-- PARSE_BSR, long forms (R154, R155, R104): one entry a set bit of the bitmap in ascending group, each
with the level of its byte, or the fallback level where the bytes have run out. -/
def Obligations.ParseBsrLongForms : Prop :=
  ∀ (v : BsrVariant) (s : State), v = .long ∨ v = .longTruncated →
    let off := (s.reg 0).toNat
    let n := (s.reg 1).toNat
    let bytes := s.readBytes off n
    let count := (bsrGroups (s.readByte off)).length
    1 ≤ n → off + n ≤ s.params.bufBytes →
      ∃ t, exec (.parseBsr v) s = .next t ∧ Accepted s t ∧ RegsKept s t [8] ∧ t.reg 8 = word count
        ∧ (∀ k, k < count → t.descAt k = bsrLongDesc s.params bytes k)
        ∧ (∀ k, count ≤ k → t.descAt k = s.descAt k)
        ∧ t.g = s.g ∧ t.buf = s.buf ∧ t.hq = s.hq ∧ t.lc = s.lc

/-- PARSE_BSR refuses a region past the end of `BUF`, and then a report of no bytes, for every variant
(R154, R155). -/
def Obligations.ParseBsrRefusals : Prop :=
  ∀ (v : BsrVariant) (s : State),
    let off := (s.reg 0).toNat
    let n := (s.reg 1).toNat
    (s.params.bufBytes < off + n → Refuses (.parseBsr v) s 7)
    ∧ (off + n ≤ s.params.bufBytes → n = 0 → Refuses (.parseBsr v) s 6)

/-! ## HARQT -/

/-- HQ_ALLOC (R172, R173): the least Free process of the device and direction, or none, and the table as
before; a device out of range is refused. -/
def Obligations.HqAllocFindsTheLeastFree : Prop :=
  ∀ (dir : Dir) (dev : Nat) (s : State),
    (1 ≤ dev → dev ≤ s.params.numDevices → ∀ p, p < s.params.numHarq →
      (s.harq dev dir p).state = .free → (∀ q, q < p → (s.harq dev dir q).state = .busy) →
      ∃ t, exec (.hqAlloc dir dev) s = .next t ∧ Accepted s t ∧ RegsKept s t [8, 9] ∧ t.reg 8 = 1
        ∧ t.reg 9 = word p ∧ MemoriesKept s t)
    ∧ (1 ≤ dev → dev ≤ s.params.numDevices →
        (∀ q, q < s.params.numHarq → (s.harq dev dir q).state = .busy) →
        ∃ t, exec (.hqAlloc dir dev) s = .next t ∧ Accepted s t ∧ RegsKept s t [8, 9] ∧ t.reg 8 = 0
          ∧ t.reg 9 = 0 ∧ MemoriesKept s t)
    ∧ (dev = 0 ∨ s.params.numDevices < dev → Refuses (.hqAlloc dir dev) s 8)

/-- HQ_MARK (R174, R175): the grant in `g[0..3]` addresses the record. A New mark on a Free process and a
Retx mark on a process with a context store the grant and move the record as R175 says, and report NDI,
position and redundancy version; every other record is as before. Otherwise the device, the process
index, or the record's state refuses it, in that order. -/
def Obligations.HqMarkMovesTheRecord : Prop :=
  ∀ s : State,
    let g0 := s.grantReg 0
    let grant : GrantBits := s.grantReg 3 ++ s.grantReg 2 ++ s.grantReg 1 ++ g0
    let dev := g0.toNat % 65536
    let dir := if g0.getLsbD 16 then Dir.ul else Dir.dl
    let proc := g0.toNat / 2 ^ 17 % 16
    let retx := g0.getLsbD 21
    let old := s.harq dev dir proc
    let goes := fun new : HarqRec =>
      ∃ t, exec .hqMark s = .next t ∧ Accepted s t ∧ RegsKept s t [8, 9, 10]
        ∧ t.harq dev dir proc = new
        ∧ (∀ d di q, q < 16 → (d, di, q) ≠ (dev, dir, proc) → t.harq d di q = s.harq d di q)
        ∧ t.reg 8 = word (if new.lastNDI then 1 else 0) ∧ t.reg 9 = word new.pos
        ∧ t.reg 10 = (s.params.rvSeq.getD new.pos 0).setWidth 32
        ∧ t.g = s.g ∧ t.buf = s.buf ∧ t.desc = s.desc ∧ t.lc = s.lc
    let addressed := 1 ≤ dev ∧ dev ≤ s.params.numDevices ∧ proc < s.params.numHarq
    (addressed → retx = false → old.state = .free →
        goes { old with state := .busy, grant := grant, grantTbs := s.reg 0, lastNDI := !old.lastNDI, pos := 0 })
    ∧ (addressed → retx = true → old.state = .busy → old.hasCtx = true →
        goes { old with grant := grant, grantTbs := s.reg 0, pos := old.pos + 1, hasCtx := false })
    ∧ (addressed → retx = false → old.state = .busy → Refuses .hqMark s 10)
    ∧ (addressed → retx = true → ¬ (old.state = .busy ∧ old.hasCtx = true) → Refuses .hqMark s 10)
    ∧ (dev = 0 ∨ s.params.numDevices < dev → Refuses .hqMark s 8)
    ∧ (1 ≤ dev → dev ≤ s.params.numDevices → s.params.numHarq ≤ proc → Refuses .hqMark s 9)

/-- HQ_RESULT (R176, R177, R183): success frees a Busy process; failure drops the packet at the last
redundancy version and otherwise stores the context, with the size of an original transmission; every
other record is as before. A Free process and an address out of range refuse it. -/
def Obligations.HqResultMovesTheRecord : Prop :=
  ∀ (dir : Dir) (succ : Bool) (proc dev : Nat) (s : State), proc < 16 →
    let old := s.harq dev dir proc
    let goes := fun (new : HarqRec) (outcome : Nat) =>
      ∃ t, exec (.hqResult dir succ proc dev) s = .next t ∧ Accepted s t ∧ RegsKept s t [8]
        ∧ t.reg 8 = word outcome ∧ t.harq dev dir proc = new
        ∧ (∀ d di q, q < 16 → (d, di, q) ≠ (dev, dir, proc) → t.harq d di q = s.harq d di q)
        ∧ t.g = s.g ∧ t.buf = s.buf ∧ t.desc = s.desc ∧ t.lc = s.lc
    let addressed := 1 ≤ dev ∧ dev ≤ s.params.numDevices ∧ proc < s.params.numHarq
    (addressed → old.state = .busy → succ = true →
        goes { old with state := .free, hasCtx := false, pos := 0 } 0)
    ∧ (addressed → old.state = .busy → succ = false → old.pos = s.params.rvLen - 1 →
        goes { old with state := .free, hasCtx := false, pos := 0 } 2)
    ∧ (addressed → old.state = .busy → succ = false → old.pos ≠ s.params.rvLen - 1 →
        goes { old with ctx := old.grant, hasCtx := true
                        lastTBS := if old.grant.getLsbD 21 then old.lastTBS else old.grantTbs } 1)
    ∧ (addressed → old.state = .free → Refuses (.hqResult dir succ proc dev) s 10)
    ∧ (dev = 0 ∨ s.params.numDevices < dev → Refuses (.hqResult dir succ proc dev) s 8)
    ∧ (1 ≤ dev → dev ≤ s.params.numDevices → s.params.numHarq ≤ proc → Refuses (.hqResult dir succ proc dev) s 9)

/-- HQ_READ (R178): the record's fields to `x[8..13]`, the tables as before; an address out of range
refuses it. -/
def Obligations.HqReadReportsTheRecord : Prop :=
  ∀ (dir : Dir) (proc dev : Nat) (s : State),
    let r := s.harq dev dir proc
    (1 ≤ dev → dev ≤ s.params.numDevices → proc < s.params.numHarq →
      ∃ t, exec (.hqRead dir proc dev) s = .next t ∧ Accepted s t ∧ RegsKept s t [8, 9, 10, 11, 12, 13]
        ∧ t.reg 8 = (if r.state = .free then 0 else 1) ∧ t.reg 9 = word r.pos
        ∧ t.reg 10 = (s.params.rvSeq.getD r.pos 0).setWidth 32 ∧ t.reg 11 = word (if r.lastNDI then 1 else 0)
        ∧ t.reg 12 = word (if r.hasCtx then 1 else 0) ∧ t.reg 13 = r.lastTBS ∧ MemoriesKept s t)
    ∧ (dev = 0 ∨ s.params.numDevices < dev → Refuses (.hqRead dir proc dev) s 8)
    ∧ (1 ≤ dev → dev ≤ s.params.numDevices → s.params.numHarq ≤ proc → Refuses (.hqRead dir proc dev) s 9)

/-- HQ_CTX (R180): the context to `g[0..3]` and the cached size to `x[8]`, the record as before; without a
context, or with an address out of range, it is refused. -/
def Obligations.HqCtxReturnsTheContext : Prop :=
  ∀ (dir : Dir) (proc dev : Nat) (s : State),
    let r := s.harq dev dir proc
    (1 ≤ dev → dev ≤ s.params.numDevices → proc < s.params.numHarq → r.hasCtx = true →
      ∃ t, exec (.hqCtx dir proc dev) s = .next t ∧ Accepted s t ∧ RegsKept s t [8] ∧ t.reg 8 = r.lastTBS
        ∧ (∀ i : Fin 4, t.grantReg i = r.ctx.extractLsb' (32 * i.val) 32)
        ∧ t.buf = s.buf ∧ t.desc = s.desc ∧ t.hq = s.hq ∧ t.lc = s.lc)
    ∧ (1 ≤ dev → dev ≤ s.params.numDevices → proc < s.params.numHarq → r.hasCtx = false →
        Refuses (.hqCtx dir proc dev) s 10)
    ∧ (dev = 0 ∨ s.params.numDevices < dev → Refuses (.hqCtx dir proc dev) s 8)
    ∧ (1 ≤ dev → dev ≤ s.params.numDevices → s.params.numHarq ≤ proc → Refuses (.hqCtx dir proc dev) s 9)

/-- A grant is carried verbatim (R107): after a New mark that R175 accepts and a failure report before the
last redundancy version, HQ_CTX returns in `g[0..3]` every bit of the grant, reserved bits included, and
in `x[8]` the size given with it. -/
def Obligations.GrantIsCarriedVerbatim : Prop :=
  ∀ s : State,
    let g0 := s.grantReg 0
    let dev := g0.toNat % 65536
    let dir := if g0.getLsbD 16 then Dir.ul else Dir.dl
    let proc := g0.toNat / 2 ^ 17 % 16
    1 ≤ dev → dev ≤ s.params.numDevices → proc < s.params.numHarq → g0.getLsbD 21 = false →
    (s.harq dev dir proc).state = .free → 2 ≤ s.params.rvLen →
    ∃ t u v, exec .hqMark s = .next t ∧ exec (.hqResult dir false proc dev) t = .next u
      ∧ exec (.hqCtx dir proc dev) u = .next v ∧ v.reg 15 = 0 ∧ v.reg 8 = s.reg 0
      ∧ (∀ i : Fin 4, v.grantReg i = s.grantReg i)

/-- The invariants I2 to I6 of every HARQ record are kept by every step, whatever the host does (R37). -/
def Obligations.HarqInvariantIsKept : Prop :=
  ∀ s t : State, s.HarqOk → step s = .next t → t.HarqOk

/-- A process that cycles through its whole redundancy-version sequence without success ends Free with
its context cleared (R184 (b), property P4): after the New mark and `k` failure reports, each followed by
its retransmission mark, the process is Busy at position `k` with no context and the NDI of the New mark;
at the last position the next failure drops the packet with outcome 2. Stated of the operations of R175
and R177 on one record. -/
def Obligations.FullSequenceEndsFree : Prop :=
  ∀ (p : Params) (r r1 : HarqRec) (first : GrantBits) (tbs : Word) (retxs : List (GrantBits × Word)),
    p.legal = true → HarqRecOk p r → r.state = .free → first.getLsbD 21 = false →
    (∀ g ∈ retxs, g.1.getLsbD 21 = true) → markBusy r first tbs = .ok r1 → retxs.length ≤ p.rvLen - 1 →
    ∃ rk, retransmit p r1 retxs = some rk ∧ rk.state = .busy ∧ rk.pos = retxs.length ∧ rk.hasCtx = false
      ∧ rk.lastNDI = !r.lastNDI
      ∧ (retxs.length = p.rvLen - 1 →
          ∃ rf, onReceptionResult p rk false = .ok (rf, 2) ∧ rf.state = .free ∧ rf.hasCtx = false ∧ rf.pos = 0)

/-! ## LCP -/

/-- LC_REG (R201, R44): registers one channel with the values of `x[0..3]` and zero runtime fields, every
other record as before; device, channel, parameters and a second registration refuse it, in that
order. -/
def Obligations.LcRegRegistersOneChannel : Prop :=
  ∀ (ch dev : Nat) (s : State), ch < 64 →
    let bsd := (s.reg 1).toNat
    let prio := (s.reg 2).toNat
    let lcg := (s.reg 3).toNat
    let goodDev := 1 ≤ dev ∧ dev ≤ s.params.numDevices
    let goodCh := 1 ≤ ch ∧ ch ≤ 32
    let goodParam := 1 ≤ prio ∧ prio ≤ 16 ∧ lcg ≤ 7 ∧ bsd ≤ 65535
    (goodDev → goodCh → goodParam → (s.chan dev ch).valid = false →
      ∃ t, exec (.lcReg ch dev) s = .next t ∧ Accepted s t ∧ RegsKept s t []
        ∧ (t.chan dev ch).valid = true ∧ (t.chan dev ch).lcg.toNat = lcg ∧ (t.chan dev ch).prio.toNat = prio
        ∧ (t.chan dev ch).pbr = s.reg 0 ∧ (t.chan dev ch).bsd.toNat = bsd ∧ (t.chan dev ch).pending = 0
        ∧ (t.chan dev ch).bj = 0 ∧ (t.chan dev ch).elapsed = 0
        ∧ (∀ d c, c < 64 → (d, c) ≠ (dev, ch) → t.chan d c = s.chan d c)
        ∧ t.g = s.g ∧ t.buf = s.buf ∧ t.desc = s.desc ∧ t.hq = s.hq)
    ∧ (¬ goodDev → Refuses (.lcReg ch dev) s 8)
    ∧ (goodDev → ¬ goodCh → Refuses (.lcReg ch dev) s 11)
    ∧ (goodDev → goodCh → ¬ goodParam → Refuses (.lcReg ch dev) s 13)
    ∧ (goodDev → goodCh → goodParam → (s.chan dev ch).valid = true → Refuses (.lcReg ch dev) s 12)

/-- LC_BUF (R203) replaces the pending bytes of a registered channel and leaves everything else of the
tables; device and channel refuse it, an unregistered channel too. -/
def Obligations.LcBufReplacesPending : Prop :=
  ∀ (ch dev : Nat) (s : State), ch < 64 →
    let goodDev := 1 ≤ dev ∧ dev ≤ s.params.numDevices
    let goodCh := 1 ≤ ch ∧ ch ≤ 32
    (goodDev → goodCh → (s.chan dev ch).valid = true →
      ∃ t, exec (.lcBuf ch dev) s = .next t ∧ Accepted s t ∧ RegsKept s t []
        ∧ t.chan dev ch = { s.chan dev ch with pending := s.reg 0 }
        ∧ (∀ d c, c < 64 → (d, c) ≠ (dev, ch) → t.chan d c = s.chan d c)
        ∧ t.g = s.g ∧ t.buf = s.buf ∧ t.desc = s.desc ∧ t.hq = s.hq)
    ∧ (¬ goodDev → Refuses (.lcBuf ch dev) s 8)
    ∧ (goodDev → ¬ goodCh ∨ (s.chan dev ch).valid = false → Refuses (.lcBuf ch dev) s 11)

/-- LC_TIME (R204) adds `x[0]` milliseconds to every registered channel of the device, saturating, and
changes no other record; a device out of range refuses it. -/
def Obligations.LcTimeAdvancesTheDevice : Prop :=
  ∀ (dev : Nat) (s : State),
    (1 ≤ dev → dev ≤ s.params.numDevices →
      ∃ t, exec (.lcTime dev) s = .next t ∧ Accepted s t ∧ RegsKept s t []
        ∧ (∀ d c, c < 64 → t.chan d c =
            if d = dev ∧ 1 ≤ c ∧ c ≤ 32 ∧ (s.chan d c).valid = true then
              { s.chan d c with elapsed := word (min ((s.chan d c).elapsed.toNat + (s.reg 0).toNat) (2 ^ 32 - 1)) }
            else s.chan d c)
        ∧ t.g = s.g ∧ t.buf = s.buf ∧ t.desc = s.desc ∧ t.hq = s.hq)
    ∧ (dev = 0 ∨ s.params.numDevices < dev → Refuses (.lcTime dev) s 8)

/-- LC_RUN conserves the budget (R207, R211, R214): it completes; a channel is granted what its pending
bytes fall by, never more than it had; the grants and the remainder sum to the budget; at the end fewer
than 8 bytes remain or nothing is pending; every elapsed time is 0, no configuration changes, no other
record changes; and `DESC` holds one entry for each channel granted bytes. -/
def Obligations.LcRunConservesTheBudget : Prop :=
  ∀ (dev : Nat) (s : State), 1 ≤ dev → dev ≤ s.params.numDevices →
    let budget := (s.reg 0).toNat
    ∃ (t : State) (rem : Nat) (out : List Desc),
      exec (.lcRun dev) s = .next t ∧ Accepted s t ∧ RegsKept s t [8, 9, 10]
      ∧ rem ≤ budget ∧ t.reg 8 = word out.length ∧ t.reg 9 = word rem ∧ t.reg 10 = word (budget - rem)
      ∧ (∀ c, 1 ≤ c → c ≤ 32 → (s.chan dev c).valid = true →
          (t.chan dev c).pending.toNat ≤ (s.chan dev c).pending.toNat ∧ (t.chan dev c).elapsed = 0
          ∧ (t.chan dev c).valid = true ∧ (t.chan dev c).lcg = (s.chan dev c).lcg
          ∧ (t.chan dev c).prio = (s.chan dev c).prio ∧ (t.chan dev c).pbr = (s.chan dev c).pbr
          ∧ (t.chan dev c).bsd = (s.chan dev c).bsd)
      ∧ (∀ d c, c < 64 → ¬ (d = dev ∧ 1 ≤ c ∧ c ≤ 32 ∧ (s.chan dev c).valid = true) → t.chan d c = s.chan d c)
      ∧ ((List.range' 1 32).map (fun c => (s.chan dev c).pending.toNat - (t.chan dev c).pending.toNat)).sum + rem
          = budget
      ∧ (s.LcOk → rem < 8 ∨ ∀ c, 1 ≤ c → c ≤ 32 → (s.chan dev c).valid = true → (t.chan dev c).pending = 0)
      ∧ out.Perm (((List.range' 1 32).filter
            (fun c => decide ((t.chan dev c).pending.toNat < (s.chan dev c).pending.toNat))).map
            (fun c => ⟨word c, word ((s.chan dev c).pending.toNat - (t.chan dev c).pending.toNat), 0⟩))
      ∧ DescHolds s t out ∧ t.g = s.g ∧ t.buf = s.buf ∧ t.hq = s.hq

/-- LC_RUN (R207) makes the run of R212 on the registered channels of the device in the order of service:
every channel, active or not, has its bucket filled (R208); Round 1 takes place exactly where at least two
channels are active (R209); Round 2 follows with the budget then left (R210); every elapsed time is 0, the
list names the channels granted bytes in the order of service (R211), and the records are written back. A
device out of range refuses it. -/
def Obligations.LcRunAppliesTheRun : Prop :=
  ∀ (dev : Nat) (s : State),
    let budget := (s.reg 0).toNat
    (1 ≤ dev → dev ≤ s.params.numDevices →
      ∃ (t : State) (cs : List LcpChan) (rem : Nat),
        RunWalk budget (serviceOrder (registered s dev)) cs rem
        ∧ exec (.lcRun dev) s = .next t ∧ Accepted s t ∧ RegsKept s t [8, 9, 10]
        ∧ t.reg 8 = word (cs.filter (fun c => decide (0 < c.alloc))).length
        ∧ t.reg 9 = word rem ∧ t.reg 10 = word (budget - rem)
        ∧ DescHolds s t ((cs.filter (fun c => decide (0 < c.alloc))).map (fun c => ⟨word c.id, word c.alloc, 0⟩))
        ∧ (∀ c ∈ cs, c.elapsed = 0 ∧ t.chan dev c.id
            = { s.chan dev c.id with pending := word c.pending, bj := word c.bj, elapsed := word c.elapsed }))
    ∧ (dev = 0 ∨ s.params.numDevices < dev → Refuses (.lcRun dev) s 8)

/-- The order of service (R206): priority first, the smaller number first, and ascending channelId inside
a priority; its channels are the registered records of the device, with their numbers and nothing
granted yet. -/
def Obligations.ServiceOrderIsByPriority : Prop :=
  ∀ (dev : Nat) (s : State),
    (serviceOrder (registered s dev)).Pairwise ServedBefore
    ∧ (∀ c : LcpChan, c ∈ serviceOrder (registered s dev) ↔
        1 ≤ c.id ∧ c.id ≤ 32 ∧ (s.chan dev c.id).valid = true ∧ c.prio = (s.chan dev c.id).prio.toNat
        ∧ (c.unlimited = true ↔ (s.chan dev c.id).pbr = 0xFFFFFFFF) ∧ c.pbr = (s.chan dev c.id).pbr.toNat
        ∧ c.bsd = (s.chan dev c.id).bsd.toNat ∧ c.elapsed = (s.chan dev c.id).elapsed.toNat
        ∧ c.pending = (s.chan dev c.id).pending.toNat ∧ c.bj = (s.chan dev c.id).bj.toNat ∧ c.alloc = 0)

/-- The bucket update alone (R208), seen in LC_RUN with a budget below 8 bytes, which grants nothing
(R207): an unlimited channel's level becomes the smaller of pending and budget, a finite one grows by
rate times time over 1000, rounded down and saturated; pending bytes stay, elapsed times are reset. -/
def Obligations.SmallBudgetOnlyFillsBuckets : Prop :=
  ∀ (dev : Nat) (s : State), 1 ≤ dev → dev ≤ s.params.numDevices → (s.reg 0).toNat < 8 →
    ∃ t, exec (.lcRun dev) s = .next t ∧ Accepted s t ∧ t.reg 8 = 0 ∧ t.reg 9 = s.reg 0 ∧ t.reg 10 = 0
      ∧ t.desc = s.desc
      ∧ (∀ c, 1 ≤ c → c ≤ 32 → (s.chan dev c).valid = true →
          (t.chan dev c).pending = (s.chan dev c).pending ∧ (t.chan dev c).elapsed = 0
          ∧ (t.chan dev c).bj.toNat =
              if (s.chan dev c).pbr = 0xFFFFFFFF then min (s.chan dev c).pending.toNat (s.reg 0).toNat
              else min ((s.chan dev c).bj.toNat + (s.chan dev c).pbr.toNat
                * min (s.chan dev c).elapsed.toNat (s.chan dev c).bsd.toNat / 1000) (2 ^ 32 - 1))

/-- Round 1 (R209): with `rem` bytes left before it, a channel uses the smallest of its bucket, `rem` and
its pending bytes, and nothing once `rem` is below 8; its bucket falls by what it used, unless its rate is
unlimited. -/
def Obligations.Round1GivesBucketShares : Prop :=
  ∀ (budget : Nat) (cs : List LcpChan), ∃ us : List Nat, us.length = cs.length
    ∧ (∀ j c, cs[j]? = some c → us.getD j 0 =
        if budget - (us.take j).sum < 8 then 0 else min (min c.bj (budget - (us.take j).sum)) c.pending)
    ∧ us.sum ≤ budget
    ∧ round1 budget cs =
        (List.zipWith (fun c u => { c with alloc := c.alloc + u
                                           pending := c.pending - u
                                           bj := if c.unlimited then c.bj else c.bj - u }) cs us,
         budget - us.sum)

/-- Round 2 is the walk of R210 over the priorities 1..16, and the walk has one outcome: its iterations
end by themselves (R215). -/
def Obligations.Round2IsTheWalk : Prop :=
  ∀ (rem : Nat) (cs cs' : List LcpChan) (rem' : Nat),
    Round2Walk 1 rem cs cs' rem' ↔ round2 priorities rem cs = (cs', rem')

/-- With exactly one active channel Round 1 is skipped (R207, R209): the channel is served from Round 2
without regard to its bucket, which keeps its step-1 level. -/
def Obligations.SingleActiveChannelSkipsItsBucket : Prop :=
  ∀ (dev : Nat) (s : State) (c : Nat), 1 ≤ dev → dev ≤ s.params.numDevices → s.LcOk → 8 ≤ (s.reg 0).toNat →
    1 ≤ c → c ≤ 32 → (s.chan dev c).valid = true → (s.chan dev c).pending ≠ 0 →
    (∀ c', 1 ≤ c' → c' ≤ 32 → c' ≠ c → (s.chan dev c').pending = 0) →
    let used := min (s.chan dev c).pending.toNat (s.reg 0).toNat
    ∃ t, exec (.lcRun dev) s = .next t ∧ Accepted s t ∧ t.reg 8 = 1
      ∧ t.reg 9 = word ((s.reg 0).toNat - used) ∧ t.reg 10 = word used
      ∧ DescHolds s t [⟨word c, word used, 0⟩]
      ∧ (t.chan dev c).pending = word ((s.chan dev c).pending.toNat - used)
      ∧ (t.chan dev c).bj.toNat =
          if (s.chan dev c).pbr = 0xFFFFFFFF then min (s.chan dev c).pending.toNat (s.reg 0).toNat
          else min ((s.chan dev c).bj.toNat + (s.chan dev c).pbr.toNat
            * min (s.chan dev c).elapsed.toNat (s.chan dev c).bsd.toNat / 1000) (2 ^ 32 - 1)

/-- LC_READ (R218): the fields of a registered channel to `x[8..14]`, the tables as before; device and
channel refuse it, an unregistered channel too. -/
def Obligations.LcReadReportsTheChannel : Prop :=
  ∀ (ch dev : Nat) (s : State),
    let c := s.chan dev ch
    let goodDev := 1 ≤ dev ∧ dev ≤ s.params.numDevices
    let goodCh := 1 ≤ ch ∧ ch ≤ 32
    (goodDev → goodCh → c.valid = true →
      ∃ t, exec (.lcRead ch dev) s = .next t ∧ Accepted s t ∧ RegsKept s t [8, 9, 10, 11, 12, 13, 14]
        ∧ t.reg 8 = c.pending ∧ t.reg 9 = c.bj ∧ t.reg 10 = c.elapsed ∧ t.reg 11 = c.pbr
        ∧ t.reg 12 = c.bsd.setWidth 32 ∧ t.reg 13 = c.prio.setWidth 32 ∧ t.reg 14 = c.lcg.setWidth 32
        ∧ MemoriesKept s t)
    ∧ (¬ goodDev → Refuses (.lcRead ch dev) s 8)
    ∧ (goodDev → ¬ goodCh ∨ c.valid = false → Refuses (.lcRead ch dev) s 11)

/-- The configuration of a registered channel never changes until reset (R41), and a command of one
device changes no channel of another (R200). -/
def Obligations.ChannelConfigurationIsImmutable : Prop :=
  ∀ (i : Instr) (s t : State) (d c : Nat), i ≠ .sreset → i.wf = true → c < 64 → exec i s = .next t →
    ((s.chan d c).valid = true →
      (t.chan d c).valid = true ∧ (t.chan d c).lcg = (s.chan d c).lcg ∧ (t.chan d c).prio = (s.chan d c).prio
      ∧ (t.chan d c).pbr = (s.chan d c).pbr ∧ (t.chan d c).bsd = (s.chan d c).bsd)
    ∧ ((∀ ch, i ≠ .lcReg ch d ∧ i ≠ .lcBuf ch d) → i ≠ .lcTime d → i ≠ .lcRun d → t.chan d c = s.chan d c)

/-! ## Invariants -/

/-- Every step keeps every memory and table in its canonical form and within the ranges the parameters
give (R34, R35, R36, R39): no access lands outside them, and no list overruns `DESC`. The canonical form and
the keys of the tables are the model's own representation (log entries 4 and 16); the ranges are the rules'. -/
def Obligations.MemoriesStayCanonicalAndInRange : Prop :=
  ∀ s t : State, s.params.legal = true → s.canonical = true → s.inRange = true → step s = .next t →
    t.canonical = true ∧ t.inRange = true

/-- Every step keeps the status registers as their rules say they always read (R25, R30, R31). -/
def Obligations.StatusRegistersStayLegal : Prop :=
  ∀ s t : State, s.StatusOk → step s = .next t → t.StatusOk

/-- Every step keeps every logical-channel record legal: a registered one has a priority of 1..16, an
unregistered one is in its reset state (R40, R41). -/
def Obligations.ChannelRecordsStayLegal : Prop :=
  ∀ s t : State, s.LcOk → step s = .next t → t.LcOk

/-- The invariants hold at reset, and the parameters of this hardware are legal (R6, R37, R43; the OPEN
parameters are opaque constants by the model's choice, log entry 2). -/
def Obligations.InvariantsHoldAtReset : Prop :=
  State.reset.canonical = true ∧ State.reset.inRange = true ∧ State.reset.HarqOk ∧ State.reset.LcOk
    ∧ State.reset.StatusOk ∧ State.reset.params.legal = true
end

