-- ==== Sys2Proof/Laws/Decode.lean ====
section
/-!
SUPPORT. What decoding and encoding can do, said once: a word that decodes has its opcode's reserved bits
zero and its fields are read from it, and the encoding of a well-formed command is its opcode above its
field bits.
-/

namespace Sys2Proof

theorem opcodeOfNat_opcodeNat (o : Opcode) : opcodeOfNat (opcodeNat o) = some o := by cases o <;> rfl

theorem opcodeNat_of_opcodeOfNat {n : Nat} {o : Opcode} (h : opcodeOfNat n = some o) : opcodeNat o = n := by
  simpa using List.find?_some h

theorem opcodeNat_le (o : Opcode) : opcodeNat o ≤ 52 := by cases o <;> decide

theorem opcodeOf_fieldsOf (o : Opcode) (w : Nat) : opcodeOf (fieldsOf o w) = o := by cases o <;> rfl

/-- The ways a word can decode: its opcode byte names no opcode, a reserved bit is 1, or it spells the
command of its fields. -/
theorem decode_cases (w : Word) :
    (opcodeOfNat (bits w.toNat 31 24) = none ∧ decode w = .error (.reservedOpcode (bits w.toNat 31 24)))
    ∨ ∃ o, opcodeNat o = bits w.toNat 31 24
        ∧ (((reservedBits o).all (fun f => bits w.toNat f.1 f.2 == 0) = true ∧ decode w = .ok (fieldsOf o w.toNat))
          ∨ ((reservedBits o).all (fun f => bits w.toNat f.1 f.2 == 0) = false ∧ decode w = .error (.mustBeZero o))) := by
  unfold decode
  cases h : opcodeOfNat (bits w.toNat 31 24) with
  | none => exact .inl ⟨rfl, rfl⟩
  | some o =>
    refine .inr ⟨o, opcodeNat_of_opcodeOfNat h, ?_⟩
    by_cases hr : (reservedBits o).all (fun f => bits w.toNat f.1 f.2 == 0) = true
    · exact .inl ⟨hr, by simp only [hr, if_true]⟩
    · exact .inr ⟨by simpa using hr, by simp only [hr]; rfl⟩

/-- A word with an opcode's byte and zeros in its reserved bits decodes to the command of its fields. -/
theorem decode_eq_ok (o : Opcode) (w : Word) (v : Nat) (h1 : w.toNat = v) (h2 : bits v 31 24 = opcodeNat o)
    (hr : (reservedBits o).all (fun f => bits v f.1 f.2 == 0) = true) : decode w = .ok (fieldsOf o v) := by
  unfold decode
  rw [h1, h2, opcodeOfNat_opcodeNat]
  simp only [hr, if_true]

/-- The fields of a well-formed command lie below its opcode byte. -/
theorem fieldBits_lt (i : Instr) (h : i.wf = true) : fieldBits i < 2 ^ 24 := by
  cases i with
  | encSub d l => cases d <;> simp [Instr.wf, lcidFits, fieldBits, dirNat] at * <;> omega
  | hqResult d b q e => cases d <;> cases b <;> simp [Instr.wf, devFits, procFits, fieldBits, dirNat] at * <;> omega
  | hqAlloc d e => cases d <;> simp [Instr.wf, devFits, fieldBits, dirNat] at * <;> omega
  | hqRead d q e => cases d <;> simp [Instr.wf, devFits, procFits, fieldBits, dirNat] at * <;> omega
  | hqCtx d q e => cases d <;> simp [Instr.wf, devFits, procFits, fieldBits, dirNat] at * <;> omega
  | mux d => cases d <;> simp [fieldBits, dirNat] at *
  | parse d => cases d <;> simp [fieldBits, dirNat] at *
  | parseBsr v => cases v <;> simp [fieldBits, variantNat] at *
  | _ => simp [Instr.wf, devFits, chFits, fieldBits] at * <;> omega

theorem word_opcode_toNat (x f : Nat) (hx : x ≤ 52) (hf : f < 2 ^ 24) :
    (word (2 ^ 24 * x + f)).toNat = 2 ^ 24 * x + f := by
  rw [BitVec.toNat_ofNat]; omega

/-- The word of a well-formed command as a number: its opcode above its field bits. -/
theorem encode_toNat (i : Instr) (h : i.wf = true) :
    (encode i).toNat = 2 ^ 24 * opcodeNat (opcodeOf i) + fieldBits i :=
  word_opcode_toNat _ _ (opcodeNat_le _) (fieldBits_lt i h)

theorem bits_opcode (x f : Nat) (hx : x ≤ 52) (hf : f < 2 ^ 24) : bits (2 ^ 24 * x + f) 31 24 = x := by
  unfold bits; omega

theorem bits_31_24 (w : Word) : bits w.toNat 31 24 = w.toNat / 2 ^ 24 := by
  have hw : w.toNat < 4294967296 := w.isLt
  unfold bits; omega

/-- The opcode byte is in no field below it. -/
theorem bits_low (x f hi lo : Nat) (h1 : lo ≤ hi) (h : hi < 24) :
    bits (2 ^ 24 * x + f) hi lo = bits f hi lo := by
  unfold bits
  have e : 2 ^ 24 * x = 2 ^ lo * (2 ^ (hi + 1 - lo) * (2 ^ (23 - hi) * x)) := by
    rw [← mul_assoc, ← pow_add, ← mul_assoc, ← pow_add]; congr 2; omega
  rw [e, Nat.mul_add_div (by positivity), Nat.mul_add_mod]

theorem reserved_le (o : Opcode) : ∀ f ∈ reservedBits o, f.2 ≤ f.1 ∧ f.1 < 24 := by cases o <;> decide

/-- The fields of a word are read from the bits below its opcode byte. -/
theorem fieldsOf_low (o : Opcode) (x f : Nat) : fieldsOf o (2 ^ 24 * x + f) = fieldsOf o f := by
  have h := fun hi lo (h1 : lo ≤ hi) (h2 : hi < 24) => bits_low x f hi lo h1 h2
  cases o <;> simp only [fieldsOf, h 23 23 (by decide) (by decide), h 22 22 (by decide) (by decide),
    h 21 16 (by decide) (by decide), h 19 16 (by decide) (by decide), h 15 0 (by decide) (by decide),
    h 5 0 (by decide) (by decide), h 1 0 (by decide) (by decide)]

@[simp] theorem dirOfNat_dirNat (d : Dir) : dirOfNat (dirNat d) = d := by cases d <;> rfl
@[simp] theorem variantOfNat_variantNat (v : BsrVariant) : variantOfNat (variantNat v) = v := by cases v <;> rfl
theorem dirNat_lt (d : Dir) : dirNat d < 2 := by cases d <;> decide
theorem bitNat_lt (b : Bool) : bitNat b < 2 := by cases b <;> decide
theorem variantNat_lt (v : BsrVariant) : variantNat v < 4 := by cases v <;> decide

/-- The fields of format K (R112). -/
theorem bits_formK (d l : Nat) (hd : d < 2) (hl : l < 64) :
    bits (2 ^ 23 * d + l) 23 23 = d ∧ bits (2 ^ 23 * d + l) 22 6 = 0 ∧ bits (2 ^ 23 * d + l) 5 0 = l := by
  unfold bits; omega

/-- The fields of format H (R115). -/
theorem bits_formH (d b p e : Nat) (hd : d < 2) (hb : b < 2) (hp : p < 16) (he : e < 65536) :
    bits (2 ^ 23 * d + 2 ^ 22 * b + 2 ^ 16 * p + e) 23 23 = d
    ∧ bits (2 ^ 23 * d + 2 ^ 22 * b + 2 ^ 16 * p + e) 22 22 = b
    ∧ bits (2 ^ 23 * d + 2 ^ 22 * b + 2 ^ 16 * p + e) 21 20 = 0
    ∧ bits (2 ^ 23 * d + 2 ^ 22 * b + 2 ^ 16 * p + e) 19 16 = p
    ∧ bits (2 ^ 23 * d + 2 ^ 22 * b + 2 ^ 16 * p + e) 15 0 = e := by
  unfold bits; omega

/-- The fields of format L (R116). -/
theorem bits_formL (c e : Nat) (hc : c < 64) (he : e < 65536) :
    bits (2 ^ 16 * c + e) 23 22 = 0 ∧ bits (2 ^ 16 * c + e) 21 16 = c ∧ bits (2 ^ 16 * c + e) 15 0 = e := by
  unfold bits; omega

end Sys2Proof
end

