-- ==== Sys2Proof/Laws/State.lean ====
section
/-!
SUPPORT. What each update of the state does to each field, one lemma a field and update, so that no proof
unfolds an update of the record.
-/

namespace Sys2Proof.Machine

/-! ### setReg -/

@[simp] theorem State.setReg_x (s : State) (i : Fin 16) (v : Word) : (s.setReg i v).x = s.x.set i v := rfl
@[simp] theorem State.setReg_g (s : State) (i : Fin 16) (v : Word) : (s.setReg i v).g = s.g := rfl
@[simp] theorem State.setReg_status (s : State) (i : Fin 16) (v : Word) : (s.setReg i v).status = s.status := rfl
@[simp] theorem State.setReg_fault (s : State) (i : Fin 16) (v : Word) : (s.setReg i v).fault = s.fault := rfl
@[simp] theorem State.setReg_cmdcnt (s : State) (i : Fin 16) (v : Word) : (s.setReg i v).cmdcnt = s.cmdcnt := rfl
@[simp] theorem State.setReg_buf (s : State) (i : Fin 16) (v : Word) : (s.setReg i v).buf = s.buf := rfl
@[simp] theorem State.setReg_desc (s : State) (i : Fin 16) (v : Word) : (s.setReg i v).desc = s.desc := rfl
@[simp] theorem State.setReg_hq (s : State) (i : Fin 16) (v : Word) : (s.setReg i v).hq = s.hq := rfl
@[simp] theorem State.setReg_lc (s : State) (i : Fin 16) (v : Word) : (s.setReg i v).lc = s.lc := rfl
@[simp] theorem State.setReg_params (s : State) (i : Fin 16) (v : Word) : (s.setReg i v).params = s.params := rfl
@[simp] theorem State.setReg_script (s : State) (i : Fin 16) (v : Word) : (s.setReg i v).script = s.script := rfl
@[simp] theorem State.setReg_rdata (s : State) (i : Fin 16) (v : Word) : (s.setReg i v).rdata = s.rdata := rfl

/-! ### result -/

@[simp] theorem State.result_x (s : State) (i : Fin 16) (n : Nat) : (s.result i n).x = s.x.set i (word n) := rfl
@[simp] theorem State.result_g (s : State) (i : Fin 16) (n : Nat) : (s.result i n).g = s.g := rfl
@[simp] theorem State.result_status (s : State) (i : Fin 16) (n : Nat) : (s.result i n).status = s.status := rfl
@[simp] theorem State.result_fault (s : State) (i : Fin 16) (n : Nat) : (s.result i n).fault = s.fault := rfl
@[simp] theorem State.result_cmdcnt (s : State) (i : Fin 16) (n : Nat) : (s.result i n).cmdcnt = s.cmdcnt := rfl
@[simp] theorem State.result_buf (s : State) (i : Fin 16) (n : Nat) : (s.result i n).buf = s.buf := rfl
@[simp] theorem State.result_desc (s : State) (i : Fin 16) (n : Nat) : (s.result i n).desc = s.desc := rfl
@[simp] theorem State.result_hq (s : State) (i : Fin 16) (n : Nat) : (s.result i n).hq = s.hq := rfl
@[simp] theorem State.result_lc (s : State) (i : Fin 16) (n : Nat) : (s.result i n).lc = s.lc := rfl
@[simp] theorem State.result_params (s : State) (i : Fin 16) (n : Nat) : (s.result i n).params = s.params := rfl
@[simp] theorem State.result_script (s : State) (i : Fin 16) (n : Nat) : (s.result i n).script = s.script := rfl
@[simp] theorem State.result_rdata (s : State) (i : Fin 16) (n : Nat) : (s.result i n).rdata = s.rdata := rfl

/-! ### setGrantReg -/

@[simp] theorem State.setGrantReg_x (s : State) (i : Fin 4) (v : Word) : (s.setGrantReg i v).x = s.x := rfl
@[simp] theorem State.setGrantReg_g (s : State) (i : Fin 4) (v : Word) : (s.setGrantReg i v).g = s.g.set i v := rfl
@[simp] theorem State.setGrantReg_status (s : State) (i : Fin 4) (v : Word) : (s.setGrantReg i v).status = s.status := rfl
@[simp] theorem State.setGrantReg_fault (s : State) (i : Fin 4) (v : Word) : (s.setGrantReg i v).fault = s.fault := rfl
@[simp] theorem State.setGrantReg_cmdcnt (s : State) (i : Fin 4) (v : Word) : (s.setGrantReg i v).cmdcnt = s.cmdcnt := rfl
@[simp] theorem State.setGrantReg_buf (s : State) (i : Fin 4) (v : Word) : (s.setGrantReg i v).buf = s.buf := rfl
@[simp] theorem State.setGrantReg_desc (s : State) (i : Fin 4) (v : Word) : (s.setGrantReg i v).desc = s.desc := rfl
@[simp] theorem State.setGrantReg_hq (s : State) (i : Fin 4) (v : Word) : (s.setGrantReg i v).hq = s.hq := rfl
@[simp] theorem State.setGrantReg_lc (s : State) (i : Fin 4) (v : Word) : (s.setGrantReg i v).lc = s.lc := rfl
@[simp] theorem State.setGrantReg_params (s : State) (i : Fin 4) (v : Word) : (s.setGrantReg i v).params = s.params := rfl
@[simp] theorem State.setGrantReg_script (s : State) (i : Fin 4) (v : Word) : (s.setGrantReg i v).script = s.script := rfl
@[simp] theorem State.setGrantReg_rdata (s : State) (i : Fin 4) (v : Word) : (s.setGrantReg i v).rdata = s.rdata := rfl

/-! ### writeBytes -/

@[simp] theorem State.writeBytes_x (s : State) (off : Nat) (bs : List Byte) : (s.writeBytes off bs).x = s.x := rfl
@[simp] theorem State.writeBytes_g (s : State) (off : Nat) (bs : List Byte) : (s.writeBytes off bs).g = s.g := rfl
@[simp] theorem State.writeBytes_status (s : State) (off : Nat) (bs : List Byte) : (s.writeBytes off bs).status = s.status := rfl
@[simp] theorem State.writeBytes_fault (s : State) (off : Nat) (bs : List Byte) : (s.writeBytes off bs).fault = s.fault := rfl
@[simp] theorem State.writeBytes_cmdcnt (s : State) (off : Nat) (bs : List Byte) : (s.writeBytes off bs).cmdcnt = s.cmdcnt := rfl
@[simp] theorem State.writeBytes_buf (s : State) (off : Nat) (bs : List Byte) : (s.writeBytes off bs).buf = memWrite s.buf off bs := rfl
@[simp] theorem State.writeBytes_desc (s : State) (off : Nat) (bs : List Byte) : (s.writeBytes off bs).desc = s.desc := rfl
@[simp] theorem State.writeBytes_hq (s : State) (off : Nat) (bs : List Byte) : (s.writeBytes off bs).hq = s.hq := rfl
@[simp] theorem State.writeBytes_lc (s : State) (off : Nat) (bs : List Byte) : (s.writeBytes off bs).lc = s.lc := rfl
@[simp] theorem State.writeBytes_params (s : State) (off : Nat) (bs : List Byte) : (s.writeBytes off bs).params = s.params := rfl
@[simp] theorem State.writeBytes_script (s : State) (off : Nat) (bs : List Byte) : (s.writeBytes off bs).script = s.script := rfl
@[simp] theorem State.writeBytes_rdata (s : State) (off : Nat) (bs : List Byte) : (s.writeBytes off bs).rdata = s.rdata := rfl

/-! ### writeDescs -/

@[simp] theorem State.writeDescs_x (s : State) (ds : List Desc) : (s.writeDescs ds).x = s.x := rfl
@[simp] theorem State.writeDescs_g (s : State) (ds : List Desc) : (s.writeDescs ds).g = s.g := rfl
@[simp] theorem State.writeDescs_status (s : State) (ds : List Desc) : (s.writeDescs ds).status = s.status := rfl
@[simp] theorem State.writeDescs_fault (s : State) (ds : List Desc) : (s.writeDescs ds).fault = s.fault := rfl
@[simp] theorem State.writeDescs_cmdcnt (s : State) (ds : List Desc) : (s.writeDescs ds).cmdcnt = s.cmdcnt := rfl
@[simp] theorem State.writeDescs_buf (s : State) (ds : List Desc) : (s.writeDescs ds).buf = s.buf := rfl
@[simp] theorem State.writeDescs_desc (s : State) (ds : List Desc) : (s.writeDescs ds).desc = descWrite s.desc 0 ds := rfl
@[simp] theorem State.writeDescs_hq (s : State) (ds : List Desc) : (s.writeDescs ds).hq = s.hq := rfl
@[simp] theorem State.writeDescs_lc (s : State) (ds : List Desc) : (s.writeDescs ds).lc = s.lc := rfl
@[simp] theorem State.writeDescs_params (s : State) (ds : List Desc) : (s.writeDescs ds).params = s.params := rfl
@[simp] theorem State.writeDescs_script (s : State) (ds : List Desc) : (s.writeDescs ds).script = s.script := rfl
@[simp] theorem State.writeDescs_rdata (s : State) (ds : List Desc) : (s.writeDescs ds).rdata = s.rdata := rfl

/-! ### setHarq -/

@[simp] theorem State.setHarq_x (s : State) (dev : Nat) (dir : Dir) (proc : Nat) (r : HarqRec) : (s.setHarq dev dir proc r).x = s.x := rfl
@[simp] theorem State.setHarq_g (s : State) (dev : Nat) (dir : Dir) (proc : Nat) (r : HarqRec) : (s.setHarq dev dir proc r).g = s.g := rfl
@[simp] theorem State.setHarq_status (s : State) (dev : Nat) (dir : Dir) (proc : Nat) (r : HarqRec) : (s.setHarq dev dir proc r).status = s.status := rfl
@[simp] theorem State.setHarq_fault (s : State) (dev : Nat) (dir : Dir) (proc : Nat) (r : HarqRec) : (s.setHarq dev dir proc r).fault = s.fault := rfl
@[simp] theorem State.setHarq_cmdcnt (s : State) (dev : Nat) (dir : Dir) (proc : Nat) (r : HarqRec) : (s.setHarq dev dir proc r).cmdcnt = s.cmdcnt := rfl
@[simp] theorem State.setHarq_buf (s : State) (dev : Nat) (dir : Dir) (proc : Nat) (r : HarqRec) : (s.setHarq dev dir proc r).buf = s.buf := rfl
@[simp] theorem State.setHarq_desc (s : State) (dev : Nat) (dir : Dir) (proc : Nat) (r : HarqRec) : (s.setHarq dev dir proc r).desc = s.desc := rfl
@[simp] theorem State.setHarq_hq (s : State) (dev : Nat) (dir : Dir) (proc : Nat) (r : HarqRec) : (s.setHarq dev dir proc r).hq = tableSet HarqRec.reset s.hq (hqKey dev dir proc) r := rfl
@[simp] theorem State.setHarq_lc (s : State) (dev : Nat) (dir : Dir) (proc : Nat) (r : HarqRec) : (s.setHarq dev dir proc r).lc = s.lc := rfl
@[simp] theorem State.setHarq_params (s : State) (dev : Nat) (dir : Dir) (proc : Nat) (r : HarqRec) : (s.setHarq dev dir proc r).params = s.params := rfl
@[simp] theorem State.setHarq_script (s : State) (dev : Nat) (dir : Dir) (proc : Nat) (r : HarqRec) : (s.setHarq dev dir proc r).script = s.script := rfl
@[simp] theorem State.setHarq_rdata (s : State) (dev : Nat) (dir : Dir) (proc : Nat) (r : HarqRec) : (s.setHarq dev dir proc r).rdata = s.rdata := rfl

/-! ### setChan -/

@[simp] theorem State.setChan_x (s : State) (dev ch : Nat) (r : LcRec) : (s.setChan dev ch r).x = s.x := rfl
@[simp] theorem State.setChan_g (s : State) (dev ch : Nat) (r : LcRec) : (s.setChan dev ch r).g = s.g := rfl
@[simp] theorem State.setChan_status (s : State) (dev ch : Nat) (r : LcRec) : (s.setChan dev ch r).status = s.status := rfl
@[simp] theorem State.setChan_fault (s : State) (dev ch : Nat) (r : LcRec) : (s.setChan dev ch r).fault = s.fault := rfl
@[simp] theorem State.setChan_cmdcnt (s : State) (dev ch : Nat) (r : LcRec) : (s.setChan dev ch r).cmdcnt = s.cmdcnt := rfl
@[simp] theorem State.setChan_buf (s : State) (dev ch : Nat) (r : LcRec) : (s.setChan dev ch r).buf = s.buf := rfl
@[simp] theorem State.setChan_desc (s : State) (dev ch : Nat) (r : LcRec) : (s.setChan dev ch r).desc = s.desc := rfl
@[simp] theorem State.setChan_hq (s : State) (dev ch : Nat) (r : LcRec) : (s.setChan dev ch r).hq = s.hq := rfl
@[simp] theorem State.setChan_lc (s : State) (dev ch : Nat) (r : LcRec) : (s.setChan dev ch r).lc = tableSet LcRec.reset s.lc (lcKey dev ch) r := rfl
@[simp] theorem State.setChan_params (s : State) (dev ch : Nat) (r : LcRec) : (s.setChan dev ch r).params = s.params := rfl
@[simp] theorem State.setChan_script (s : State) (dev ch : Nat) (r : LcRec) : (s.setChan dev ch r).script = s.script := rfl
@[simp] theorem State.setChan_rdata (s : State) (dev ch : Nat) (r : LcRec) : (s.setChan dev ch r).rdata = s.rdata := rfl

/-! ### resetAll -/

@[simp] theorem State.resetAll_x (s : State) : (s.resetAll).x = Vector.replicate 16 0 := rfl
@[simp] theorem State.resetAll_g (s : State) : (s.resetAll).g = Vector.replicate 4 0 := rfl
@[simp] theorem State.resetAll_status (s : State) : (s.resetAll).status = 0 := rfl
@[simp] theorem State.resetAll_fault (s : State) : (s.resetAll).fault = 0 := rfl
@[simp] theorem State.resetAll_cmdcnt (s : State) : (s.resetAll).cmdcnt = 0 := rfl
@[simp] theorem State.resetAll_buf (s : State) : (s.resetAll).buf = [] := rfl
@[simp] theorem State.resetAll_desc (s : State) : (s.resetAll).desc = [] := rfl
@[simp] theorem State.resetAll_hq (s : State) : (s.resetAll).hq = [] := rfl
@[simp] theorem State.resetAll_lc (s : State) : (s.resetAll).lc = [] := rfl
@[simp] theorem State.resetAll_params (s : State) : (s.resetAll).params = s.params := rfl
@[simp] theorem State.resetAll_script (s : State) : (s.resetAll).script = s.script := rfl
@[simp] theorem State.resetAll_rdata (s : State) : (s.resetAll).rdata = s.rdata := rfl

/-! ### conclude -/

@[simp] theorem State.conclude_x (s : State) (k : Nat) : (s.conclude k).x = s.x.set 15 (word k) := rfl
@[simp] theorem State.conclude_g (s : State) (k : Nat) : (s.conclude k).g = s.g := rfl
@[simp] theorem State.conclude_status (s : State) (k : Nat) : (s.conclude k).status = statusWord k := rfl
@[simp] theorem State.conclude_fault (s : State) (k : Nat) : (s.conclude k).fault = s.fault := rfl
@[simp] theorem State.conclude_cmdcnt (s : State) (k : Nat) : (s.conclude k).cmdcnt = s.cmdcnt + 1 := rfl
@[simp] theorem State.conclude_buf (s : State) (k : Nat) : (s.conclude k).buf = s.buf := rfl
@[simp] theorem State.conclude_desc (s : State) (k : Nat) : (s.conclude k).desc = s.desc := rfl
@[simp] theorem State.conclude_hq (s : State) (k : Nat) : (s.conclude k).hq = s.hq := rfl
@[simp] theorem State.conclude_lc (s : State) (k : Nat) : (s.conclude k).lc = s.lc := rfl
@[simp] theorem State.conclude_params (s : State) (k : Nat) : (s.conclude k).params = s.params := rfl
@[simp] theorem State.conclude_script (s : State) (k : Nat) : (s.conclude k).script = s.script := rfl
@[simp] theorem State.conclude_rdata (s : State) (k : Nat) : (s.conclude k).rdata = s.rdata := rfl

/-! ### complete -/

@[simp] theorem State.complete_x (s : State) : (s.complete).x = s.x.set 15 (word 0) := rfl
@[simp] theorem State.complete_g (s : State) : (s.complete).g = s.g := rfl
@[simp] theorem State.complete_status (s : State) : (s.complete).status = statusWord 0 := rfl
@[simp] theorem State.complete_fault (s : State) : (s.complete).fault = s.fault := rfl
@[simp] theorem State.complete_cmdcnt (s : State) : (s.complete).cmdcnt = s.cmdcnt + 1 := rfl
@[simp] theorem State.complete_buf (s : State) : (s.complete).buf = s.buf := rfl
@[simp] theorem State.complete_desc (s : State) : (s.complete).desc = s.desc := rfl
@[simp] theorem State.complete_hq (s : State) : (s.complete).hq = s.hq := rfl
@[simp] theorem State.complete_lc (s : State) : (s.complete).lc = s.lc := rfl
@[simp] theorem State.complete_params (s : State) : (s.complete).params = s.params := rfl
@[simp] theorem State.complete_script (s : State) : (s.complete).script = s.script := rfl
@[simp] theorem State.complete_rdata (s : State) : (s.complete).rdata = s.rdata := rfl

/-! ### refuse -/

@[simp] theorem State.refuse_x (s : State) (e : ErrCode) : (s.refuse e).x = s.x.set 15 (word (errCode e)) := rfl
@[simp] theorem State.refuse_g (s : State) (e : ErrCode) : (s.refuse e).g = s.g := rfl
@[simp] theorem State.refuse_status (s : State) (e : ErrCode) : (s.refuse e).status = statusWord (errCode e) := rfl
@[simp] theorem State.refuse_fault (s : State) (e : ErrCode) : (s.refuse e).fault = faultSet s.fault (errCode e) := rfl
@[simp] theorem State.refuse_cmdcnt (s : State) (e : ErrCode) : (s.refuse e).cmdcnt = s.cmdcnt + 1 := rfl
@[simp] theorem State.refuse_buf (s : State) (e : ErrCode) : (s.refuse e).buf = s.buf := rfl
@[simp] theorem State.refuse_desc (s : State) (e : ErrCode) : (s.refuse e).desc = s.desc := rfl
@[simp] theorem State.refuse_hq (s : State) (e : ErrCode) : (s.refuse e).hq = s.hq := rfl
@[simp] theorem State.refuse_lc (s : State) (e : ErrCode) : (s.refuse e).lc = s.lc := rfl
@[simp] theorem State.refuse_params (s : State) (e : ErrCode) : (s.refuse e).params = s.params := rfl
@[simp] theorem State.refuse_script (s : State) (e : ErrCode) : (s.refuse e).script = s.script := rfl
@[simp] theorem State.refuse_rdata (s : State) (e : ErrCode) : (s.refuse e).rdata = s.rdata := rfl

end Sys2Proof.Machine
end

