-- ==== Sys2Proof/Laws/Tables.lean ====
section
/-!
SUPPORT. The laws of the tables: what a read returns after a write, that every write keeps the canonical
form, and that a canonical table is determined by what it holds.
-/

namespace Sys2Proof.Machine

variable {α : Type}

/-! ### Reads -/

@[simp] theorem tableGet_nil (d : α) (a : Nat) : tableGet d [] a = d := rfl

theorem tableGet_erase (d : α) (t : List (Nat × α)) (a b : Nat) :
    tableGet d (tableErase t a) b = if b = a then d else tableGet d t b := by
  induction t with
  | nil => simp [tableErase]
  | cons e t ih =>
    simp only [tableErase, tableGet]
    split
    · rename_i h; rw [ih, ← h]; split <;> rfl
    · simp only [tableGet, ih]
      split_ifs <;> simp_all

theorem tableGet_insert (d : α) (t : List (Nat × α)) (a b : Nat) (v : α) (hb : b ≠ a) :
    tableGet d (tableInsert t a v) b = tableGet d t b := by
  induction t with
  | nil => simp [tableInsert, tableGet, hb]
  | cons e t ih =>
    simp only [tableInsert]
    split
    · simp [tableGet, hb]
    · simp only [tableGet]; rw [ih]

theorem tableErase_key_ne (t : List (Nat × α)) (a : Nat) : ∀ e ∈ tableErase t a, e.1 ≠ a := by
  induction t with
  | nil => simp [tableErase]
  | cons e t ih =>
    simp only [tableErase]
    split
    · exact ih
    · rename_i h
      intro e' he'
      rcases List.mem_cons.1 he' with rfl | he'
      · exact fun h' => h h'.symm
      · exact ih e' he'

theorem tableGet_insert_self (d : α) (t : List (Nat × α)) (a : Nat) (v : α) (h : ∀ e ∈ t, e.1 ≠ a) :
    tableGet d (tableInsert t a v) a = v := by
  induction t with
  | nil => simp [tableInsert, tableGet]
  | cons e t ih =>
    simp only [tableInsert]
    split
    · simp [tableGet]
    · have h1 : a ≠ e.1 := fun h' => h e (by simp) h'.symm
      simp only [tableGet, h1, if_false]
      exact ih fun e' he' => h e' (by simp [he'])

/-- Read after write, at the same key and at any other, for any list at all. -/
theorem tableGet_set [DecidableEq α] (d : α) (t : List (Nat × α)) (a b : Nat) (v : α) :
    tableGet d (tableSet d t a v) b = if b = a then v else tableGet d t b := by
  unfold tableSet
  split
  · rename_i h; rw [tableGet_erase, h]
  · by_cases hb : b = a
    · subst hb
      rw [tableGet_insert_self d _ _ _ (tableErase_key_ne t b)]; simp
    · rw [tableGet_insert d _ _ _ _ hb, tableGet_erase]; simp [hb]

/-! ### The canonical form -/

theorem tableErase_mem (t : List (Nat × α)) (a : Nat) (e : Nat × α) (h : e ∈ tableErase t a) : e ∈ t := by
  induction t with
  | nil => simp [tableErase] at h
  | cons e' t ih =>
    simp only [tableErase] at h
    split at h
    · simp [ih h]
    · rcases List.mem_cons.1 h with rfl | h
      · simp
      · simp [ih h]

theorem tableInsert_mem (t : List (Nat × α)) (a : Nat) (v : α) (e : Nat × α) (h : e ∈ tableInsert t a v) :
    e = (a, v) ∨ e ∈ t := by
  induction t with
  | nil => simpa [tableInsert] using h
  | cons e' t ih =>
    simp only [tableInsert] at h
    split at h
    · simpa using h
    · rcases List.mem_cons.1 h with rfl | h
      · simp
      · rcases ih h with h | h <;> simp [h]

/-- Every entry after a write is the written one or an entry from before. -/
theorem tableSet_mem [DecidableEq α] (d : α) (t : List (Nat × α)) (a : Nat) (v : α) (e : Nat × α)
    (h : e ∈ tableSet d t a v) : e = (a, v) ∨ e ∈ t := by
  unfold tableSet at h
  split at h
  · exact .inr (tableErase_mem t a e h)
  · exact (tableInsert_mem _ a v e h).imp id (tableErase_mem t a e)

theorem tableWf_cons [DecidableEq α] (d : α) (k : Nat) (v : α) (t : List (Nat × α)) :
    tableWf d ((k, v) :: t) = true ↔ v ≠ d ∧ (∀ e ∈ t, k < e.1) ∧ tableWf d t = true := by
  simp [tableWf, and_assoc]

theorem tableErase_wf [DecidableEq α] (d : α) (t : List (Nat × α)) (a : Nat) (h : tableWf d t = true) :
    tableWf d (tableErase t a) = true := by
  induction t with
  | nil => rfl
  | cons e t ih =>
    obtain ⟨h1, h2, h3⟩ := (tableWf_cons d e.1 e.2 t).1 h
    simp only [tableErase]
    split
    · exact ih h3
    · exact (tableWf_cons d _ _ _).2 ⟨h1, fun e' he' => h2 e' (tableErase_mem t a e' he'), ih h3⟩

theorem tableInsert_wf [DecidableEq α] (d : α) (t : List (Nat × α)) (a : Nat) (v : α) (h : tableWf d t = true)
    (hv : v ≠ d) (ha : ∀ e ∈ t, e.1 ≠ a) : tableWf d (tableInsert t a v) = true := by
  induction t with
  | nil => simp [tableInsert, tableWf, hv]
  | cons e t ih =>
    obtain ⟨h1, h2, h3⟩ := (tableWf_cons d e.1 e.2 t).1 h
    simp only [tableInsert]
    split
    · rename_i hlt
      refine (tableWf_cons d _ _ _).2 ⟨hv, ?_, h⟩
      intro e' he'
      rcases List.mem_cons.1 he' with rfl | he'
      · exact hlt
      · exact lt_trans hlt (h2 e' he')
    · rename_i hlt
      have hne : e.1 ≠ a := ha e (by simp)
      refine (tableWf_cons d _ _ _).2 ⟨h1, ?_, ih h3 fun e' he' => ha e' (by simp [he'])⟩
      intro e' he'
      rcases tableInsert_mem t a v e' he' with rfl | he'
      · show e.1 < a
        omega
      · exact h2 e' he'

/-- Every write keeps the canonical form. -/
theorem tableSet_wf [DecidableEq α] (d : α) (t : List (Nat × α)) (a : Nat) (v : α) (h : tableWf d t = true) :
    tableWf d (tableSet d t a v) = true := by
  unfold tableSet
  split
  · exact tableErase_wf d t a h
  · rename_i hv
    exact tableInsert_wf d _ a v (tableErase_wf d t a h) hv (tableErase_key_ne t a)

/-- A table in canonical form reads its default below its first key. -/
theorem tableGet_below (d : α) (t : List (Nat × α)) (a : Nat) (h : ∀ e ∈ t, a < e.1) : tableGet d t a = d := by
  induction t with
  | nil => rfl
  | cons e t ih =>
    have h1 := h e (by simp)
    have h2 : a ≠ e.1 := by omega
    simp only [tableGet, h2, if_false]
    exact ih fun e' he' => h e' (by simp [he'])

/-- Two tables in canonical form that hold the same at every key are the same list. -/
theorem tableWf_ext [DecidableEq α] (d : α) (t u : List (Nat × α)) (ht : tableWf d t = true)
    (hu : tableWf d u = true) (h : ∀ a, tableGet d t a = tableGet d u a) : t = u := by
  induction t generalizing u with
  | nil =>
    cases u with
    | nil => rfl
    | cons e u =>
      have := (tableWf_cons d e.1 e.2 u).1 hu
      exact absurd (h e.1) (by simpa [tableGet] using this.1.symm)
  | cons e t ih =>
    obtain ⟨h1, h2, h3⟩ := (tableWf_cons d e.1 e.2 t).1 ht
    cases u with
    | nil => exact absurd (h e.1) (by simpa [tableGet] using h1)
    | cons f u =>
      obtain ⟨g1, g2, g3⟩ := (tableWf_cons d f.1 f.2 u).1 hu
      have below : ∀ {k : Nat} {w : List (Nat × α)} {x : Nat × α}, (∀ e ∈ w, x.1 < e.1) → k < x.1 →
          tableGet d (x :: w) k = d := fun hw hk => tableGet_below d _ _ fun e' he' => by
        rcases List.mem_cons.1 he' with rfl | he'
        · exact hk
        · exact lt_trans hk (hw e' he')
      have hk : e.1 = f.1 := by
        rcases lt_trichotomy e.1 f.1 with hlt | heq | hgt
        · have := h e.1
          rw [below g2 hlt] at this
          exact absurd this (by simpa [tableGet] using h1)
        · exact heq
        · have := h f.1
          rw [below h2 hgt] at this
          exact absurd this.symm (by simpa [tableGet] using g1)
      have hv : e.2 = f.2 := by
        have := h e.1
        simpa [tableGet, hk] using this
      have hef : e = f := Prod.ext hk hv
      subst hef
      congr 1
      refine ih u h3 g3 fun a => ?_
      by_cases ha : a = e.1
      · subst ha
        rw [tableGet_below d t _ h2, tableGet_below d u _ g2]
      · have := h a
        simpa [tableGet, ha] using this

end Sys2Proof.Machine
end

