-- ==== Sys2Proof/Laws/Ops.lean ====
section
/-!
SUPPORT. What each shared operation can do, said once: the accessors after every update, the bytes of a
region after a store, the entries of `DESC` after a list is written, and how a command ends.
-/

namespace Sys2Proof.Machine

/-! ### An update leaves every other accessor alone -/

@[simp] theorem State.grantReg_setReg (s : State) (i : Fin 16) (v : Word) (j : Fin 4) :
    (s.setReg i v).grantReg j = s.grantReg j := rfl
@[simp] theorem State.readByte_setReg (s : State) (i : Fin 16) (v : Word) (a : Nat) :
    (s.setReg i v).readByte a = s.readByte a := rfl
@[simp] theorem State.readBytes_setReg (s : State) (i : Fin 16) (v : Word) (a n : Nat) :
    (s.setReg i v).readBytes a n = s.readBytes a n := rfl
@[simp] theorem State.fits_setReg (s : State) (i : Fin 16) (v : Word) (a n : Nat) :
    (s.setReg i v).fits a n = s.fits a n := rfl
@[simp] theorem State.descAt_setReg (s : State) (i : Fin 16) (v : Word) (k : Nat) :
    (s.setReg i v).descAt k = s.descAt k := rfl
@[simp] theorem State.harq_setReg (s : State) (i : Fin 16) (v : Word) (d : Nat) (di : Dir) (q : Nat) :
    (s.setReg i v).harq d di q = s.harq d di q := rfl
@[simp] theorem State.chan_setReg (s : State) (i : Fin 16) (v : Word) (d c : Nat) :
    (s.setReg i v).chan d c = s.chan d c := rfl
@[simp] theorem State.grantReg_result (s : State) (i : Fin 16) (n : Nat) (j : Fin 4) :
    (s.result i n).grantReg j = s.grantReg j := rfl
@[simp] theorem State.readByte_result (s : State) (i : Fin 16) (n : Nat) (a : Nat) :
    (s.result i n).readByte a = s.readByte a := rfl
@[simp] theorem State.readBytes_result (s : State) (i : Fin 16) (n : Nat) (a len : Nat) :
    (s.result i n).readBytes a len = s.readBytes a len := rfl
@[simp] theorem State.fits_result (s : State) (i : Fin 16) (n : Nat) (a len : Nat) :
    (s.result i n).fits a len = s.fits a len := rfl
@[simp] theorem State.descAt_result (s : State) (i : Fin 16) (n : Nat) (k : Nat) :
    (s.result i n).descAt k = s.descAt k := rfl
@[simp] theorem State.harq_result (s : State) (i : Fin 16) (n : Nat) (d : Nat) (di : Dir) (q : Nat) :
    (s.result i n).harq d di q = s.harq d di q := rfl
@[simp] theorem State.chan_result (s : State) (i : Fin 16) (n : Nat) (d c : Nat) :
    (s.result i n).chan d c = s.chan d c := rfl
@[simp] theorem State.reg_setGrantReg (s : State) (i : Fin 4) (v : Word) (j : Fin 16) :
    (s.setGrantReg i v).reg j = s.reg j := rfl
@[simp] theorem State.argN_setGrantReg (s : State) (i : Fin 4) (v : Word) (j : Fin 16) :
    (s.setGrantReg i v).argN j = s.argN j := rfl
@[simp] theorem State.readByte_setGrantReg (s : State) (i : Fin 4) (v : Word) (a : Nat) :
    (s.setGrantReg i v).readByte a = s.readByte a := rfl
@[simp] theorem State.readBytes_setGrantReg (s : State) (i : Fin 4) (v : Word) (a n : Nat) :
    (s.setGrantReg i v).readBytes a n = s.readBytes a n := rfl
@[simp] theorem State.fits_setGrantReg (s : State) (i : Fin 4) (v : Word) (a n : Nat) :
    (s.setGrantReg i v).fits a n = s.fits a n := rfl
@[simp] theorem State.descAt_setGrantReg (s : State) (i : Fin 4) (v : Word) (k : Nat) :
    (s.setGrantReg i v).descAt k = s.descAt k := rfl
@[simp] theorem State.harq_setGrantReg (s : State) (i : Fin 4) (v : Word) (d : Nat) (di : Dir) (q : Nat) :
    (s.setGrantReg i v).harq d di q = s.harq d di q := rfl
@[simp] theorem State.chan_setGrantReg (s : State) (i : Fin 4) (v : Word) (d c : Nat) :
    (s.setGrantReg i v).chan d c = s.chan d c := rfl
@[simp] theorem State.reg_writeBytes (s : State) (off : Nat) (bs : List Byte) (j : Fin 16) :
    (s.writeBytes off bs).reg j = s.reg j := rfl
@[simp] theorem State.argN_writeBytes (s : State) (off : Nat) (bs : List Byte) (j : Fin 16) :
    (s.writeBytes off bs).argN j = s.argN j := rfl
@[simp] theorem State.grantReg_writeBytes (s : State) (off : Nat) (bs : List Byte) (j : Fin 4) :
    (s.writeBytes off bs).grantReg j = s.grantReg j := rfl
@[simp] theorem State.fits_writeBytes (s : State) (off : Nat) (bs : List Byte) (a n : Nat) :
    (s.writeBytes off bs).fits a n = s.fits a n := rfl
@[simp] theorem State.descAt_writeBytes (s : State) (off : Nat) (bs : List Byte) (k : Nat) :
    (s.writeBytes off bs).descAt k = s.descAt k := rfl
@[simp] theorem State.harq_writeBytes (s : State) (off : Nat) (bs : List Byte) (d : Nat) (di : Dir) (q : Nat) :
    (s.writeBytes off bs).harq d di q = s.harq d di q := rfl
@[simp] theorem State.chan_writeBytes (s : State) (off : Nat) (bs : List Byte) (d c : Nat) :
    (s.writeBytes off bs).chan d c = s.chan d c := rfl
@[simp] theorem State.reg_writeDescs (s : State) (ds : List Desc) (j : Fin 16) :
    (s.writeDescs ds).reg j = s.reg j := rfl
@[simp] theorem State.argN_writeDescs (s : State) (ds : List Desc) (j : Fin 16) :
    (s.writeDescs ds).argN j = s.argN j := rfl
@[simp] theorem State.grantReg_writeDescs (s : State) (ds : List Desc) (j : Fin 4) :
    (s.writeDescs ds).grantReg j = s.grantReg j := rfl
@[simp] theorem State.readByte_writeDescs (s : State) (ds : List Desc) (a : Nat) :
    (s.writeDescs ds).readByte a = s.readByte a := rfl
@[simp] theorem State.readBytes_writeDescs (s : State) (ds : List Desc) (a n : Nat) :
    (s.writeDescs ds).readBytes a n = s.readBytes a n := rfl
@[simp] theorem State.fits_writeDescs (s : State) (ds : List Desc) (a n : Nat) :
    (s.writeDescs ds).fits a n = s.fits a n := rfl
@[simp] theorem State.harq_writeDescs (s : State) (ds : List Desc) (d : Nat) (di : Dir) (q : Nat) :
    (s.writeDescs ds).harq d di q = s.harq d di q := rfl
@[simp] theorem State.chan_writeDescs (s : State) (ds : List Desc) (d c : Nat) :
    (s.writeDescs ds).chan d c = s.chan d c := rfl
@[simp] theorem State.reg_setHarq (s : State) (dev : Nat) (dir : Dir) (proc : Nat) (r : HarqRec) (j : Fin 16) :
    (s.setHarq dev dir proc r).reg j = s.reg j := rfl
@[simp] theorem State.argN_setHarq (s : State) (dev : Nat) (dir : Dir) (proc : Nat) (r : HarqRec) (j : Fin 16) :
    (s.setHarq dev dir proc r).argN j = s.argN j := rfl
@[simp] theorem State.grantReg_setHarq (s : State) (dev : Nat) (dir : Dir) (proc : Nat) (r : HarqRec) (j : Fin 4) :
    (s.setHarq dev dir proc r).grantReg j = s.grantReg j := rfl
@[simp] theorem State.readByte_setHarq (s : State) (dev : Nat) (dir : Dir) (proc : Nat) (r : HarqRec) (a : Nat) :
    (s.setHarq dev dir proc r).readByte a = s.readByte a := rfl
@[simp] theorem State.readBytes_setHarq (s : State) (dev : Nat) (dir : Dir) (proc : Nat) (r : HarqRec) (a n : Nat) :
    (s.setHarq dev dir proc r).readBytes a n = s.readBytes a n := rfl
@[simp] theorem State.fits_setHarq (s : State) (dev : Nat) (dir : Dir) (proc : Nat) (r : HarqRec) (a n : Nat) :
    (s.setHarq dev dir proc r).fits a n = s.fits a n := rfl
@[simp] theorem State.descAt_setHarq (s : State) (dev : Nat) (dir : Dir) (proc : Nat) (r : HarqRec) (k : Nat) :
    (s.setHarq dev dir proc r).descAt k = s.descAt k := rfl
@[simp] theorem State.chan_setHarq (s : State) (dev : Nat) (dir : Dir) (proc : Nat) (r : HarqRec) (d c : Nat) :
    (s.setHarq dev dir proc r).chan d c = s.chan d c := rfl
@[simp] theorem State.reg_setChan (s : State) (dev ch : Nat) (r : LcRec) (j : Fin 16) :
    (s.setChan dev ch r).reg j = s.reg j := rfl
@[simp] theorem State.argN_setChan (s : State) (dev ch : Nat) (r : LcRec) (j : Fin 16) :
    (s.setChan dev ch r).argN j = s.argN j := rfl
@[simp] theorem State.grantReg_setChan (s : State) (dev ch : Nat) (r : LcRec) (j : Fin 4) :
    (s.setChan dev ch r).grantReg j = s.grantReg j := rfl
@[simp] theorem State.readByte_setChan (s : State) (dev ch : Nat) (r : LcRec) (a : Nat) :
    (s.setChan dev ch r).readByte a = s.readByte a := rfl
@[simp] theorem State.readBytes_setChan (s : State) (dev ch : Nat) (r : LcRec) (a n : Nat) :
    (s.setChan dev ch r).readBytes a n = s.readBytes a n := rfl
@[simp] theorem State.fits_setChan (s : State) (dev ch : Nat) (r : LcRec) (a n : Nat) :
    (s.setChan dev ch r).fits a n = s.fits a n := rfl
@[simp] theorem State.descAt_setChan (s : State) (dev ch : Nat) (r : LcRec) (k : Nat) :
    (s.setChan dev ch r).descAt k = s.descAt k := rfl
@[simp] theorem State.harq_setChan (s : State) (dev ch : Nat) (r : LcRec) (d : Nat) (di : Dir) (q : Nat) :
    (s.setChan dev ch r).harq d di q = s.harq d di q := rfl
@[simp] theorem State.grantReg_conclude (s : State) (k : Nat) (j : Fin 4) :
    (s.conclude k).grantReg j = s.grantReg j := rfl
@[simp] theorem State.readByte_conclude (s : State) (k : Nat) (a : Nat) :
    (s.conclude k).readByte a = s.readByte a := rfl
@[simp] theorem State.readBytes_conclude (s : State) (k : Nat) (a n : Nat) :
    (s.conclude k).readBytes a n = s.readBytes a n := rfl
@[simp] theorem State.fits_conclude (s : State) (k : Nat) (a n : Nat) :
    (s.conclude k).fits a n = s.fits a n := rfl
@[simp] theorem State.descAt_conclude (s : State) (k : Nat) (j : Nat) :
    (s.conclude k).descAt j = s.descAt j := rfl
@[simp] theorem State.harq_conclude (s : State) (k : Nat) (d : Nat) (di : Dir) (q : Nat) :
    (s.conclude k).harq d di q = s.harq d di q := rfl
@[simp] theorem State.chan_conclude (s : State) (k : Nat) (d c : Nat) :
    (s.conclude k).chan d c = s.chan d c := rfl
@[simp] theorem State.grantReg_complete (s : State) (j : Fin 4) :
    (s.complete).grantReg j = s.grantReg j := rfl
@[simp] theorem State.readByte_complete (s : State) (a : Nat) :
    (s.complete).readByte a = s.readByte a := rfl
@[simp] theorem State.readBytes_complete (s : State) (a n : Nat) :
    (s.complete).readBytes a n = s.readBytes a n := rfl
@[simp] theorem State.fits_complete (s : State) (a n : Nat) :
    (s.complete).fits a n = s.fits a n := rfl
@[simp] theorem State.descAt_complete (s : State) (k : Nat) :
    (s.complete).descAt k = s.descAt k := rfl
@[simp] theorem State.harq_complete (s : State) (d : Nat) (di : Dir) (q : Nat) :
    (s.complete).harq d di q = s.harq d di q := rfl
@[simp] theorem State.chan_complete (s : State) (d c : Nat) :
    (s.complete).chan d c = s.chan d c := rfl
@[simp] theorem State.grantReg_refuse (s : State) (e : ErrCode) (j : Fin 4) :
    (s.refuse e).grantReg j = s.grantReg j := rfl
@[simp] theorem State.readByte_refuse (s : State) (e : ErrCode) (a : Nat) :
    (s.refuse e).readByte a = s.readByte a := rfl
@[simp] theorem State.readBytes_refuse (s : State) (e : ErrCode) (a n : Nat) :
    (s.refuse e).readBytes a n = s.readBytes a n := rfl
@[simp] theorem State.fits_refuse (s : State) (e : ErrCode) (a n : Nat) :
    (s.refuse e).fits a n = s.fits a n := rfl
@[simp] theorem State.descAt_refuse (s : State) (e : ErrCode) (k : Nat) :
    (s.refuse e).descAt k = s.descAt k := rfl
@[simp] theorem State.harq_refuse (s : State) (e : ErrCode) (d : Nat) (di : Dir) (q : Nat) :
    (s.refuse e).harq d di q = s.harq d di q := rfl
@[simp] theorem State.chan_refuse (s : State) (e : ErrCode) (d c : Nat) :
    (s.refuse e).chan d c = s.chan d c := rfl

/-! ### Registers -/

@[simp] theorem State.reg_setReg (s : State) (i : Fin 16) (v : Word) (j : Fin 16) :
    (s.setReg i v).reg j = if j = i then v else s.reg j := by
  simp [State.reg, State.setReg, Vector.getElem_set, Fin.ext_iff, eq_comm]

@[simp] theorem State.reg_result (s : State) (i : Fin 16) (n : Nat) (j : Fin 16) :
    (s.result i n).reg j = if j = i then word n else s.reg j := s.reg_setReg i (word n) j

@[simp] theorem State.grantReg_setGrantReg (s : State) (i : Fin 4) (v : Word) (j : Fin 4) :
    (s.setGrantReg i v).grantReg j = if j = i then v else s.grantReg j := by
  simp [State.grantReg, State.setGrantReg, Vector.getElem_set, Fin.ext_iff, eq_comm]

@[simp] theorem State.reg_conclude (s : State) (k : Nat) (j : Fin 16) :
    (s.conclude k).reg j = if j = 15 then word k else s.reg j := s.reg_setReg 15 (word k) j

@[simp] theorem State.reg_complete (s : State) (j : Fin 16) :
    s.complete.reg j = if j = 15 then word 0 else s.reg j := s.reg_conclude 0 j

@[simp] theorem State.reg_refuse (s : State) (e : ErrCode) (j : Fin 16) :
    (s.refuse e).reg j = if j = 15 then word (errCode e) else s.reg j := s.reg_conclude (errCode e) j

/-! ### BUF -/

/-- The memory after storing a byte string: the string in its region, the old bytes elsewhere. -/
theorem tableGet_memWrite (m : List Host.Cell) (off : Nat) (bs : List Byte) (a : Nat) :
    tableGet 0 (memWrite m off bs) a
      = if off ≤ a ∧ a < off + bs.length then bs.getD (a - off) 0 else tableGet 0 m a := by
  induction bs generalizing m off with
  | nil => simp [memWrite]
  | cons b bs ih =>
    rw [memWrite, ih, tableGet_set]
    by_cases h0 : a = off
    · subst h0; simp
    · by_cases h1 : off ≤ a ∧ a < off + (bs.length + 1)
      · have h2 : off + 1 ≤ a ∧ a < off + 1 + bs.length := by omega
        have h3 : a - off = (a - (off + 1)) + 1 := by omega
        simp [h2, h1, h3]
      · have h2 : ¬ (off + 1 ≤ a ∧ a < off + 1 + bs.length) := by omega
        rw [if_neg h2, if_neg h0]; simp only [List.length_cons]; rw [if_neg h1]

theorem State.readByte_writeBytes (s : State) (off : Nat) (bs : List Byte) (a : Nat) :
    (s.writeBytes off bs).readByte a
      = if off ≤ a ∧ a < off + bs.length then bs.getD (a - off) 0 else s.readByte a :=
  tableGet_memWrite s.buf off bs a

theorem memWrite_wf (m : List Host.Cell) (off : Nat) (bs : List Byte) (h : Memory.wf m = true) :
    Memory.wf (memWrite m off bs) = true := by
  induction bs generalizing m off with
  | nil => exact h
  | cons b bs ih => exact ih _ _ (tableSet_wf (0 : Byte) m off b h)

/-- Every entry after a store is stored in the region or stood there before. -/
theorem memWrite_mem (m : List Host.Cell) (off : Nat) (bs : List Byte) (e : Host.Cell)
    (h : e ∈ memWrite m off bs) : (off ≤ e.1 ∧ e.1 < off + bs.length) ∨ e ∈ m := by
  induction bs generalizing m off with
  | nil => exact .inr h
  | cons b bs ih =>
    rcases ih _ _ h with h | h
    · left; simp only [List.length_cons]; omega
    · rcases tableSet_mem _ _ _ _ _ h with rfl | h
      · left; simp
      · exact .inr h

theorem State.writeBytes_wf (s : State) (off : Nat) (bs : List Byte) (h : Memory.wf s.buf = true) :
    Memory.wf (s.writeBytes off bs).buf = true := memWrite_wf s.buf off bs h

/-- The memory after reset is in canonical form. -/
theorem reset_buf_wf : Memory.wf State.reset.buf = true := rfl

@[simp] theorem State.length_readBytes (s : State) (off n : Nat) : (s.readBytes off n).length = n := by
  simp [State.readBytes]

theorem State.getD_readBytes (s : State) (off n i : Nat) (h : i < n) :
    (s.readBytes off n).getD i 0 = s.readByte (off + i) := by
  simp [State.readBytes, List.getD_eq_getElem?_getD, h]

/-! ### DESC -/

theorem tableGet_descWrite (t : List (Nat × Desc)) (k : Nat) (ds : List Desc) (a : Nat) :
    tableGet Desc.zero (descWrite t k ds) a
      = if k ≤ a ∧ a < k + ds.length then ds.getD (a - k) Desc.zero else tableGet Desc.zero t a := by
  induction ds generalizing t k with
  | nil => simp [descWrite]
  | cons d ds ih =>
    rw [descWrite, ih, tableGet_set]
    by_cases h0 : a = k
    · subst h0; simp
    · by_cases h1 : k ≤ a ∧ a < k + (ds.length + 1)
      · have h2 : k + 1 ≤ a ∧ a < k + 1 + ds.length := by omega
        have h3 : a - k = (a - (k + 1)) + 1 := by omega
        simp [h2, h1, h3]
      · have h2 : ¬ (k + 1 ≤ a ∧ a < k + 1 + ds.length) := by omega
        rw [if_neg h2, if_neg h0]; simp only [List.length_cons]; rw [if_neg h1]

/-- A list result: the list in entries 0.., the old entries after it (R35). -/
theorem State.descAt_writeDescs (s : State) (ds : List Desc) (k : Nat) :
    (s.writeDescs ds).descAt k = if k < ds.length then ds.getD k Desc.zero else s.descAt k := by
  rw [State.descAt, State.writeDescs_desc, tableGet_descWrite]; simp [State.descAt]

theorem descWrite_wf (t : List (Nat × Desc)) (k : Nat) (ds : List Desc) (h : tableWf Desc.zero t = true) :
    tableWf Desc.zero (descWrite t k ds) = true := by
  induction ds generalizing t k with
  | nil => exact h
  | cons d ds ih => exact ih _ _ (tableSet_wf _ _ _ _ h)

/-- Every entry after a list is written is one of the list's or stood there before. -/
theorem descWrite_mem (t : List (Nat × Desc)) (k : Nat) (ds : List Desc) (e : Nat × Desc)
    (h : e ∈ descWrite t k ds) : (k ≤ e.1 ∧ e.1 < k + ds.length) ∨ e ∈ t := by
  induction ds generalizing t k with
  | nil => exact .inr h
  | cons d ds ih =>
    rcases ih _ _ h with h | h
    · left; simp only [List.length_cons]; omega
    · rcases tableSet_mem _ _ _ _ _ h with rfl | h
      · left; simp
      · exact .inr h

/-! ### The tables -/

theorem hqKey_inj (dev dev' : Nat) (dir dir' : Dir) (proc proc' : Nat) (h : proc < 16) (h' : proc' < 16)
    (e : hqKey dev dir proc = hqKey dev' dir' proc') : dev = dev' ∧ dir = dir' ∧ proc = proc' := by
  cases dir <;> cases dir' <;> simp only [hqKey] at e <;> (try simp) <;> omega

theorem lcKey_inj (dev dev' ch ch' : Nat) (h : ch < 64) (h' : ch' < 64) (e : lcKey dev ch = lcKey dev' ch') :
    dev = dev' ∧ ch = ch' := by
  simp only [lcKey] at e; omega

theorem State.harq_setHarq (s : State) (dev : Nat) (dir : Dir) (proc : Nat) (r : HarqRec) (d : Nat) (di : Dir)
    (q : Nat) :
    (s.setHarq dev dir proc r).harq d di q
      = if hqKey d di q = hqKey dev dir proc then r else s.harq d di q :=
  tableGet_set _ _ _ _ _

theorem State.chan_setChan (s : State) (dev ch : Nat) (r : LcRec) (d c : Nat) :
    (s.setChan dev ch r).chan d c = if lcKey d c = lcKey dev ch then r else s.chan d c :=
  tableGet_set _ _ _ _ _

@[simp] theorem State.harq_setHarq_self (s : State) (dev : Nat) (dir : Dir) (proc : Nat) (r : HarqRec) :
    (s.setHarq dev dir proc r).harq dev dir proc = r := by simp [State.harq_setHarq]

@[simp] theorem State.chan_setChan_self (s : State) (dev ch : Nat) (r : LcRec) :
    (s.setChan dev ch r).chan dev ch = r := by simp [State.chan_setChan]

/-! ### The end of a command -/

@[simp] theorem State.settle_ok (s t : State) : s.settle (.ok t) = t.complete := rfl

@[simp] theorem State.settle_error (s : State) (e : ErrCode) : s.settle (.error e) = s.refuse e := rfl

/-- A command ends in one of two ways: its effect completed, or the refusal of the first failed check. -/
theorem State.settle_cases (s : State) (r : Except ErrCode State) :
    (∃ t, r = .ok t ∧ s.settle r = t.complete) ∨ (∃ e, r = .error e ∧ s.settle r = s.refuse e) := by
  cases r with
  | ok t => exact .inl ⟨t, rfl, rfl⟩
  | error e => exact .inr ⟨e, rfl, rfl⟩

theorem errCode_range (e : ErrCode) : 1 ≤ errCode e ∧ errCode e ≤ 13 := by
  cases e <;> decide

end Sys2Proof.Machine
end

