-- ==== Sys2Proof/Laws/Effects.lean ====
section
/-!
SUPPORT. What each command can do, said once: if its effect is accepted, the checks it passed and the state
it leaves; and, for the frames, that `exec` of every command but SRESET settles its effect.
-/

namespace Sys2Proof.Machine

/-! ### CODEC -/

/-- An accepted ENC_SUB stored what the encoder returned. -/
theorem encSub_ok {dir : Dir} {lcid : Nat} {s t : State} (h : encSub dir lcid s = .ok t) :
    ∃ out, encodeSubPDU lcid (s.readBytes (s.argN 0) (s.argN 1)) dir = .ok out
      ∧ lenIds dir lcid = true ∧ s.argN 1 ≤ 65535
      ∧ s.fits (s.argN 0) (s.argN 1) = true ∧ s.fits (s.argN 2) (headerLen (s.argN 1) + s.argN 1) = true
      ∧ t = ((s.writeBytes (s.argN 2) out).result 8 (headerLen (s.argN 1) + s.argN 1)).result 9
          (headerLen (s.argN 1)) := by
  unfold encSub at h
  simp only at h
  split at h; · cases h
  rename_i h1
  split at h; · cases h
  rename_i h2
  split at h; · cases h
  rename_i h3
  split at h; · cases h
  rename_i h4
  split at h; · cases h
  rename_i out h5
  obtain rfl := Except.ok.inj h
  exact ⟨out, h5, by simpa using h1, by omega, by simpa using h3, by simpa using h4, rfl⟩

/-- An accepted ENC_PAD stored what the encoder returned. -/
theorem encPad_ok {s t : State} (h : encPad s = .ok t) :
    ∃ out, encodePadding (s.argN 1) = .ok out ∧ s.fits (s.argN 2) (s.argN 1) = true
      ∧ t = (s.writeBytes (s.argN 2) out).result 8 (s.argN 1) := by
  unfold encPad at h
  simp only at h
  split at h; · cases h
  rename_i out h1
  split at h; · cases h
  rename_i h2
  obtain rfl := Except.ok.inj h
  exact ⟨out, h1, by simpa using h2, rfl⟩

/-- An accepted MUX stored the concatenation. -/
theorem muxCmd_ok {dir : Dir} {s t : State} (h : muxCmd dir s = .ok t) :
    s.fits (s.argN 0) (s.argN 1) = true ∧ s.fits (s.argN 2) (s.argN 3) = true
    ∧ s.fits (s.argN 4) (s.argN 5) = true ∧ s.fits (s.argN 6) (s.argN 1 + s.argN 3 + s.argN 5) = true
    ∧ t = (s.writeBytes (s.argN 6) (multiplex (s.readBytes (s.argN 0) (s.argN 1))
        (s.readBytes (s.argN 2) (s.argN 3)) (s.readBytes (s.argN 4) (s.argN 5)) dir)).result 8
        (s.argN 1 + s.argN 3 + s.argN 5) := by
  unfold muxCmd at h
  simp only at h
  split at h; · cases h
  rename_i h1
  split at h; · cases h
  rename_i h2
  split at h; · cases h
  rename_i h3
  split at h; · cases h
  rename_i h4
  obtain rfl := Except.ok.inj h
  exact ⟨by simpa using h1, by simpa using h2, by simpa using h3, by simpa using h4, rfl⟩

/-- An accepted PARSE listed what `parse` returned. -/
theorem parseCmd_ok {dir : Dir} {s t : State} (h : parseCmd dir s = .ok t) :
    ∃ r, s.fits (s.argN 0) (s.argN 1) = true ∧ parse (s.readBytes (s.argN 0) (s.argN 1)) dir = .ok r
      ∧ t = (((s.writeDescs (r.items.map (subPduDesc (s.argN 0)))).result 8 r.items.length).result 9
          r.cursor).result 10 (bitNat r.padSeen) := by
  unfold parseCmd at h
  simp only at h
  split at h; · cases h
  rename_i h1
  split at h; · cases h
  rename_i r h2
  obtain rfl := Except.ok.inj h
  exact ⟨r, by simpa using h1, h2, rfl⟩

/-- An accepted PARSE_BSR listed the entries of the report. -/
theorem parseBsrCmd_ok {v : BsrVariant} {s t : State} (h : parseBsrCmd v s = .ok t) :
    ∃ r, s.fits (s.argN 0) (s.argN 1) = true
      ∧ parseBufferStatusReport s.params v (s.readBytes (s.argN 0) (s.argN 1)) = .ok r
      ∧ t = (s.writeDescs (r.map bsrDesc)).result 8 r.length := by
  unfold parseBsrCmd at h
  simp only at h
  split at h; · cases h
  rename_i h1
  split at h; · cases h
  rename_i r h2
  obtain rfl := Except.ok.inj h
  exact ⟨r, by simpa using h1, h2, rfl⟩

/-! ### HARQT -/

theorem badDevice_false {p : Params} {dev : Nat} : badDevice p dev = false ↔ 1 ≤ dev ∧ dev ≤ p.numDevices := by
  simp [badDevice]; omega

/-- An address passes its checks exactly where the device and the process exist (R171). -/
theorem checkAddr_none {p : Params} {dev proc : Nat} :
    checkAddr p dev proc = none ↔ 1 ≤ dev ∧ dev ≤ p.numDevices ∧ proc < p.numHarq := by
  unfold checkAddr
  by_cases h : badDevice p dev = true
  · have h' : ¬ (1 ≤ dev ∧ dev ≤ p.numDevices) := fun h1 => by
      rw [badDevice_false.2 h1] at h; cases h
    simp [h]; omega
  · have h' := badDevice_false.1 (by simpa using h)
    simp [h, badProc, h'.1, h'.2]

/-- HQ_ALLOC answers a process or none. -/
theorem hqAlloc_ok {dir : Dir} {dev : Nat} {s t : State} (h : hqAlloc dir dev s = .ok t) :
    badDevice s.params dev = false
    ∧ ((allocateFreeProcess s dev dir = none ∧ t = (s.result 8 0).result 9 0)
      ∨ ∃ proc, allocateFreeProcess s dev dir = some proc ∧ t = (s.result 8 1).result 9 proc) := by
  unfold hqAlloc at h
  split at h; · cases h
  rename_i h1
  refine ⟨by simpa using h1, ?_⟩
  split at h
  · rename_i h2; obtain rfl := Except.ok.inj h; exact .inl ⟨h2, rfl⟩
  · rename_i proc h2; obtain rfl := Except.ok.inj h; exact .inr ⟨proc, h2, rfl⟩

/-- An accepted HQ_MARK wrote the record `markBusy` returned. -/
theorem hqMark_ok {s t : State} (h : hqMark s = .ok t) :
    ∃ r, checkAddr s.params (grantDev (grantOf s)) (grantProc (grantOf s)) = none
      ∧ markBusy (s.harq (grantDev (grantOf s)) (grantDir (grantOf s)) (grantProc (grantOf s))) (grantOf s) (s.reg 0)
          = .ok r
      ∧ t = (((s.setHarq (grantDev (grantOf s)) (grantDir (grantOf s)) (grantProc (grantOf s)) r).result 8
          (bitNat r.lastNDI)).result 9 r.pos).result 10 (rvAt s.params r.pos) := by
  unfold hqMark at h
  simp only at h
  split at h; · cases h
  rename_i h1
  split at h; · cases h
  rename_i r h2
  obtain rfl := Except.ok.inj h
  exact ⟨r, h1, h2, rfl⟩

/-- An accepted HQ_RESULT wrote the record `onReceptionResult` returned. -/
theorem hqResult_ok {dir : Dir} {succ : Bool} {proc dev : Nat} {s t : State}
    (h : hqResult dir succ proc dev s = .ok t) :
    ∃ r outcome, checkAddr s.params dev proc = none
      ∧ onReceptionResult s.params (s.harq dev dir proc) succ = .ok (r, outcome)
      ∧ t = (s.setHarq dev dir proc r).result 8 outcome := by
  unfold hqResult at h
  split at h; · cases h
  rename_i h1
  split at h; · cases h
  rename_i r outcome h2
  obtain rfl := Except.ok.inj h
  exact ⟨r, outcome, h1, h2, rfl⟩

/-- An accepted HQ_READ reports the record. -/
theorem hqRead_ok {dir : Dir} {proc dev : Nat} {s t : State} (h : hqRead dir proc dev s = .ok t) :
    checkAddr s.params dev proc = none
    ∧ t = (((((s.result 8 (harqStateNat (s.harq dev dir proc).state)).result 9 (s.harq dev dir proc).pos).result 10
        (rvAt s.params (s.harq dev dir proc).pos)).result 11 (bitNat (s.harq dev dir proc).lastNDI)).result 12
        (bitNat (s.harq dev dir proc).hasCtx)).setReg 13 (s.harq dev dir proc).lastTBS := by
  unfold hqRead at h
  split at h; · cases h
  rename_i h1
  obtain rfl := Except.ok.inj h
  exact ⟨h1, rfl⟩

/-- An accepted HQ_CTX unpacks the context. -/
theorem hqCtx_ok {dir : Dir} {proc dev : Nat} {s t : State} (h : hqCtx dir proc dev s = .ok t) :
    checkAddr s.params dev proc = none ∧ (s.harq dev dir proc).hasCtx = true
    ∧ t = ((((s.setGrantReg 0 (grantWord (s.harq dev dir proc).ctx 0)).setGrantReg 1
        (grantWord (s.harq dev dir proc).ctx 1)).setGrantReg 2 (grantWord (s.harq dev dir proc).ctx 2)).setGrantReg 3
        (grantWord (s.harq dev dir proc).ctx 3)).setReg 8 (s.harq dev dir proc).lastTBS := by
  unfold hqCtx at h
  split at h; · cases h
  rename_i h1
  simp only at h
  split at h; · cases h
  rename_i h2
  obtain rfl := Except.ok.inj h
  exact ⟨h1, by simpa using h2, rfl⟩

/-! ### LCP -/

/-- A device and a channel pass their checks exactly where they exist (R202). -/
theorem checkDevCh_none {p : Params} {dev ch : Nat} :
    checkDevCh p dev ch = none ↔ 1 ≤ dev ∧ dev ≤ p.numDevices ∧ 1 ≤ ch ∧ ch ≤ 32 := by
  unfold checkDevCh
  by_cases h : badDevice p dev = true
  · have h' : ¬ (1 ≤ dev ∧ dev ≤ p.numDevices) := fun h1 => by
      rw [badDevice_false.2 h1] at h; cases h
    simp [h]; omega
  · have h' := badDevice_false.1 (by simpa using h)
    simp only [h, badChannel, maxLcidData, Bool.false_eq_true, if_false]
    by_cases hc : ch = 0 ∨ 32 < ch
    · simp only [hc, decide_true, if_true]; simp; omega
    · simp only [hc, decide_false]; simp; omega

/-- A registered channel passes its checks (R202). -/
theorem checkReg_none {s : State} {dev ch : Nat} :
    checkReg s dev ch = none ↔
      (1 ≤ dev ∧ dev ≤ s.params.numDevices ∧ 1 ≤ ch ∧ ch ≤ 32) ∧ (s.chan dev ch).valid = true := by
  rw [← checkDevCh_none, checkReg]
  cases h : checkDevCh s.params dev ch with
  | some e => simp
  | none => simp

/-- An accepted LC_REG wrote one record. -/
theorem lcReg_ok {ch dev : Nat} {s t : State} (h : lcReg ch dev s = .ok t) :
    checkDevCh s.params dev ch = none ∧ lcParamBad (s.argN 1) (s.argN 2) (s.argN 3) = false
    ∧ (s.chan dev ch).valid = false
    ∧ t = s.setChan dev ch ⟨true, BitVec.ofNat 3 (s.argN 3), BitVec.ofNat 5 (s.argN 2), s.reg 0,
        BitVec.ofNat 16 (s.argN 1), 0, 0, 0⟩ := by
  unfold lcReg at h
  split at h; · cases h
  rename_i h1
  split at h; · cases h
  rename_i h2
  split at h; · cases h
  rename_i h3
  obtain rfl := Except.ok.inj h
  exact ⟨h1, by simpa using h2, by simpa using h3, rfl⟩

/-- An accepted LC_BUF wrote one record's pending bytes. -/
theorem lcBuf_ok {ch dev : Nat} {s t : State} (h : lcBuf ch dev s = .ok t) :
    checkReg s dev ch = none ∧ t = s.setChan dev ch { s.chan dev ch with pending := s.reg 0 } := by
  unfold lcBuf at h
  split at h; · cases h
  rename_i h1
  obtain rfl := Except.ok.inj h
  exact ⟨h1, rfl⟩

/-- An accepted LC_TIME visited the records of the device. -/
theorem lcTime_ok {dev : Nat} {s t : State} (h : lcTime dev s = .ok t) :
    badDevice s.params dev = false ∧ ∃ l, l = channelIds ∧ t = lcTimeOver dev (s.argN 0) l s := by
  unfold lcTime at h
  split at h; · cases h
  rename_i h1
  obtain rfl := Except.ok.inj h
  exact ⟨by simpa using h1, _, rfl, rfl⟩

/-- An accepted LC_RUN wrote back the run and listed its grants. -/
theorem lcRun_ok {dev : Nat} {s t : State} (h : lcRun dev s = .ok t) :
    badDevice s.params dev = false
    ∧ ∃ run, run = lcpRun (serviceOrder (registered s dev)) (s.argN 0)
        ∧ t = ((((writeBack dev run.1 s).writeDescs (lcpOutput run.1)).result 8 (lcpOutput run.1).length).result 9
            run.2).result 10 (s.argN 0 - run.2) := by
  unfold lcRun at h
  split at h; · cases h
  rename_i h1
  obtain rfl := Except.ok.inj h
  exact ⟨by simpa using h1, _, rfl, rfl⟩

/-- An accepted LC_READ reports the record. -/
theorem lcRead_ok {ch dev : Nat} {s t : State} (h : lcRead ch dev s = .ok t) :
    checkReg s dev ch = none
    ∧ t = ((((((s.setReg 8 (s.chan dev ch).pending).setReg 9 (s.chan dev ch).bj).setReg 10
        (s.chan dev ch).elapsed).setReg 11 (s.chan dev ch).pbr).result 12 (s.chan dev ch).bsd.toNat).result 13
        (s.chan dev ch).prio.toNat).result 14 (s.chan dev ch).lcg.toNat := by
  unfold lcRead at h
  split at h; · cases h
  rename_i h1
  obtain rfl := Except.ok.inj h
  exact ⟨h1, rfl⟩

/-- LC_TIME writes only the logical-channel table. -/
theorem lcTimeOver_eq (dev dt : Nat) (l : List Nat) (s : State) :
    lcTimeOver dev dt l s = { s with lc := (lcTimeOver dev dt l s).lc } := by
  induction l generalizing s with
  | nil => rfl
  | cons c l ih => simp only [lcTimeOver]; rw [ih]; split <;> rfl

/-- Writing records back writes only the logical-channel table. -/
theorem writeBack_eq (dev : Nat) (l : List LcpChan) (s : State) :
    writeBack dev l s = { s with lc := (writeBack dev l s).lc } := by
  induction l generalizing s with
  | nil => rfl
  | cons c l ih => simp only [writeBack]; rw [ih]; rfl

/-- What LC_TIME leaves alone. -/
theorem lcTimeOver_frame (dev dt : Nat) (l : List Nat) (s : State) :
    (lcTimeOver dev dt l s).x = s.x ∧ (lcTimeOver dev dt l s).g = s.g ∧ (lcTimeOver dev dt l s).status = s.status
    ∧ (lcTimeOver dev dt l s).fault = s.fault ∧ (lcTimeOver dev dt l s).cmdcnt = s.cmdcnt
    ∧ (lcTimeOver dev dt l s).buf = s.buf ∧ (lcTimeOver dev dt l s).desc = s.desc
    ∧ (lcTimeOver dev dt l s).hq = s.hq ∧ (lcTimeOver dev dt l s).params = s.params
    ∧ (lcTimeOver dev dt l s).script = s.script ∧ (lcTimeOver dev dt l s).rdata = s.rdata
    ∧ ∀ j, (lcTimeOver dev dt l s).reg j = s.reg j := by
  rw [lcTimeOver_eq]; exact ⟨rfl, rfl, rfl, rfl, rfl, rfl, rfl, rfl, rfl, rfl, rfl, fun _ => rfl⟩

/-- What writing records back leaves alone. -/
theorem writeBack_frame (dev : Nat) (l : List LcpChan) (s : State) :
    (writeBack dev l s).x = s.x ∧ (writeBack dev l s).g = s.g ∧ (writeBack dev l s).status = s.status
    ∧ (writeBack dev l s).fault = s.fault ∧ (writeBack dev l s).cmdcnt = s.cmdcnt
    ∧ (writeBack dev l s).buf = s.buf ∧ (writeBack dev l s).desc = s.desc
    ∧ (writeBack dev l s).hq = s.hq ∧ (writeBack dev l s).params = s.params
    ∧ (writeBack dev l s).script = s.script ∧ (writeBack dev l s).rdata = s.rdata
    ∧ ∀ j, (writeBack dev l s).reg j = s.reg j := by
  rw [writeBack_eq]; exact ⟨rfl, rfl, rfl, rfl, rfl, rfl, rfl, rfl, rfl, rfl, rfl, fun _ => rfl⟩

/-! ### Every command -/

/-- The effect of a command as it stands before its end; SRESET has no such end (R241). -/
def effectOf : Instr → State → Except ErrCode State
  | .nop, s => .ok s
  | .sreset, s => .ok s
  | .encSub dir lcid, s => encSub dir lcid s
  | .encPad, s => encPad s
  | .mux dir, s => muxCmd dir s
  | .parse dir, s => parseCmd dir s
  | .parseBsr variant, s => parseBsrCmd variant s
  | .hqAlloc dir dev, s => hqAlloc dir dev s
  | .hqMark, s => hqMark s
  | .hqResult dir succ proc dev, s => hqResult dir succ proc dev s
  | .hqRead dir proc dev, s => hqRead dir proc dev s
  | .hqCtx dir proc dev, s => hqCtx dir proc dev s
  | .lcReg ch dev, s => lcReg ch dev s
  | .lcBuf ch dev, s => lcBuf ch dev s
  | .lcTime dev, s => lcTime dev s
  | .lcRun dev, s => lcRun dev s
  | .lcRead ch dev, s => lcRead ch dev s

/-- Every command but SRESET settles its effect. -/
theorem exec_eq_settle (i : Instr) (s : State) (h : i ≠ .sreset) : exec i s = .next (s.settle (effectOf i s)) := by
  cases i <;> first | rfl | exact absurd rfl h

/-- The two ways a command but SRESET can end. -/
theorem exec_cases {i : Instr} {s t : State} (hi : i ≠ .sreset) (h : exec i s = .next t) :
    (∃ u, effectOf i s = .ok u ∧ t = u.complete) ∨ ∃ e, effectOf i s = .error e ∧ t = s.refuse e := by
  rw [exec_eq_settle i s hi] at h
  cases h
  exact s.settle_cases (effectOf i s)

end Sys2Proof.Machine
end

