-- ==== Sys2Proof/Laws/Lcp.lean ====
section
/-!
SUPPORT. The laws of the LCP run: what each of its parts does to every channel, that bytes are moved from
the budget to the channels and never made, and where Round 2 ends.
-/

namespace Sys2Proof.Machine

/-- A channel later in the same run: the same configuration, its bytes moved from pending to granted. -/
structure ServedTo (c d : LcpChan) : Prop where
  id : d.id = c.id
  prio : d.prio = c.prio
  unlimited : d.unlimited = c.unlimited
  pbr : d.pbr = c.pbr
  bsd : d.bsd = c.bsd
  elapsed : d.elapsed = c.elapsed
  moved : d.alloc + d.pending = c.alloc + c.pending
  more : c.alloc ≤ d.alloc

theorem ServedTo.rfl' (c : LcpChan) : ServedTo c c := ⟨rfl, rfl, rfl, rfl, rfl, rfl, rfl, le_rfl⟩

theorem ServedTo.trans {c d e : LcpChan} (h : ServedTo c d) (g : ServedTo d e) : ServedTo c e :=
  ⟨g.id.trans h.id, g.prio.trans h.prio, g.unlimited.trans h.unlimited, g.pbr.trans h.pbr, g.bsd.trans h.bsd,
    g.elapsed.trans h.elapsed, g.moved.trans h.moved, h.more.trans g.more⟩

/-- The bytes granted to a list of channels. -/
def granted (cs : List LcpChan) : Nat := (cs.map (fun c => c.alloc)).sum

@[simp] theorem granted_nil : granted [] = 0 := rfl

@[simp] theorem granted_cons (c : LcpChan) (cs : List LcpChan) : granted (c :: cs) = c.alloc + granted cs := rfl

theorem servedTo_refl (cs : List LcpChan) : List.Forall₂ ServedTo cs cs :=
  List.forall₂_same.2 fun c _ => ServedTo.rfl' c

theorem servedTo_trans {cs ds es : List LcpChan} (h : List.Forall₂ ServedTo cs ds) (g : List.Forall₂ ServedTo ds es) :
    List.Forall₂ ServedTo cs es := by
  induction h generalizing es with
  | nil => exact g
  | cons h1 _ ih => cases g with | cons g1 g2 => exact .cons (h1.trans g1) (ih g2)

theorem servedTo_useBytes (u : Nat) (c : LcpChan) (h : u ≤ c.pending) : ServedTo c (useBytes u c) :=
  ⟨rfl, rfl, rfl, rfl, rfl, rfl, by simp [useBytes]; omega, by simp [useBytes]⟩

/-- Round 1 serves channels and takes what it grants from the budget. -/
theorem round1_served (rem : Nat) (cs : List LcpChan) :
    List.Forall₂ ServedTo cs (round1 rem cs).1
    ∧ granted (round1 rem cs).1 + (round1 rem cs).2 = granted cs + rem := by
  induction cs generalizing rem with
  | nil => simp [round1]
  | cons c cs ih =>
    unfold round1
    split
    · exact ⟨servedTo_refl _, rfl⟩
    · split
      · obtain ⟨i1, i2⟩ := ih (rem - round1Use rem c)
        have hu : round1Use rem c ≤ c.pending ∧ round1Use rem c ≤ rem := by unfold round1Use; omega
        refine ⟨.cons ?_ i1, ?_⟩
        · have h := servedTo_useBytes _ c hu.1
          exact ⟨h.id, h.prio, h.unlimited, h.pbr, h.bsd, h.elapsed, h.moved, h.more⟩
        · simp only [granted_cons, useBytes]; omega
      · obtain ⟨i1, i2⟩ := ih rem
        exact ⟨.cons (ServedTo.rfl' c) i1, by simp only [granted_cons]; omega⟩

/-- The bytes an iteration may still hand out after `i` of `n` served channels: the shares not yet given. -/
theorem shareOut_served (p q r i : Nat) (cs : List LcpChan) :
    List.Forall₂ ServedTo cs (shareOut p q r i cs).1
    ∧ granted (shareOut p q r i cs).1 = granted cs + (shareOut p q r i cs).2
    ∧ (shareOut p q r i cs).2 ≤ (cs.filter (wants p)).length * q + (r - i) := by
  induction cs generalizing i with
  | nil => simp [shareOut]
  | cons c cs ih =>
    unfold shareOut
    by_cases hw : wants p c = true
    · obtain ⟨i1, i2, i3⟩ := ih (i + 1)
      have hu : min (shareOf q r i) c.pending ≤ c.pending := by omega
      simp only [hw, if_true, List.filter_cons_of_pos, List.length_cons, Nat.add_mul, Nat.one_mul]
      refine ⟨.cons (servedTo_useBytes _ c hu) i1, by simp only [granted_cons, useBytes]; omega, ?_⟩
      have hs : shareOf q r i ≤ q + (r - i) - (r - (i + 1)) := by unfold shareOf; split <;> omega
      omega
    · obtain ⟨i1, i2, i3⟩ := ih i
      rw [Bool.not_eq_true] at hw
      simp only [hw, Bool.false_eq_true, if_false, List.filter_cons_of_neg, not_false_eq_true]
      exact ⟨.cons (ServedTo.rfl' c) i1, by simp only [granted_cons]; omega, i3⟩

/-- One iteration never grants more than remains. -/
theorem shareOut_le (p rem : Nat) (cs : List LcpChan) :
    (shareOut p (rem / (cs.filter (wants p)).length) (rem % (cs.filter (wants p)).length) 0 cs).2 ≤ rem := by
  have := (shareOut_served p (rem / (cs.filter (wants p)).length) (rem % (cs.filter (wants p)).length) 0 cs).2.2
  have hd := Nat.div_add_mod rem (cs.filter (wants p)).length
  omega

/-- Round 2 at one priority serves channels and takes what it grants from the budget. -/
theorem round2Loop_served (p fuel rem : Nat) (cs : List LcpChan) :
    List.Forall₂ ServedTo cs (round2Loop p fuel rem cs).1
    ∧ granted (round2Loop p fuel rem cs).1 + (round2Loop p fuel rem cs).2 = granted cs + rem := by
  induction fuel generalizing rem cs with
  | zero => exact ⟨servedTo_refl _, rfl⟩
  | succ n ih =>
    unfold round2Loop
    simp only
    split
    · exact ⟨servedTo_refl _, rfl⟩
    · split
      · exact ⟨servedTo_refl _, rfl⟩
      · obtain ⟨s1, s2, -⟩ := shareOut_served p (rem / (cs.filter (wants p)).length) (rem % (cs.filter (wants p)).length) 0 cs
        have hle := shareOut_le p rem cs
        obtain ⟨i1, i2⟩ := ih (rem - (shareOut p (rem / (cs.filter (wants p)).length)
          (rem % (cs.filter (wants p)).length) 0 cs).2) (shareOut p (rem / (cs.filter (wants p)).length)
          (rem % (cs.filter (wants p)).length) 0 cs).1
        exact ⟨servedTo_trans s1 i1, by omega⟩

/-- Round 2 serves channels and takes what it grants from the budget. -/
theorem round2_served (ps : List Nat) (rem : Nat) (cs : List LcpChan) :
    List.Forall₂ ServedTo cs (round2 ps rem cs).1
    ∧ granted (round2 ps rem cs).1 + (round2 ps rem cs).2 = granted cs + rem := by
  induction ps generalizing rem cs with
  | nil => exact ⟨servedTo_refl _, rfl⟩
  | cons p ps ih =>
    unfold round2
    simp only
    obtain ⟨l1, l2⟩ := round2Loop_served p (cs.length + 1) rem cs
    obtain ⟨i1, i2⟩ := ih (round2Loop p (cs.length + 1) rem cs).2 (round2Loop p (cs.length + 1) rem cs).1
    exact ⟨servedTo_trans l1 i1, by omega⟩

/-- An iteration whose grants are not the whole remainder ends the service of at least one channel. -/
theorem shareOut_progress (p q r i : Nat) (cs : List LcpChan) :
    ((shareOut p q r i cs).1.filter (wants p)).length ≤ (cs.filter (wants p)).length
    ∧ (((shareOut p q r i cs).1.filter (wants p)).length = (cs.filter (wants p)).length →
        (shareOut p q r i cs).2 + (r - i - (cs.filter (wants p)).length)
          = (cs.filter (wants p)).length * q + (r - i)) := by
  induction cs generalizing i with
  | nil => simp [shareOut]
  | cons c cs ih =>
    unfold shareOut
    by_cases hw : wants p c = true
    · obtain ⟨i1, i2⟩ := ih (i + 1)
      have hp : c.prio = p ∧ 0 < c.pending := by simpa [wants] using hw
      simp only [hw, if_true, List.filter_cons_of_pos, List.length_cons, Nat.add_mul, Nat.one_mul]
      by_cases hu : wants p (useBytes (min (shareOf q r i) c.pending) c) = true
      · have hpos : 0 < c.pending - min (shareOf q r i) c.pending := (of_decide_eq_true hu).2
        rw [List.filter_cons_of_pos hu, List.length_cons]
        refine ⟨by omega, fun h => ?_⟩
        have h2 := i2 (by omega)
        have hs : min (shareOf q r i) c.pending = shareOf q r i := by omega
        have hq : shareOf q r i = q + (r - i) - (r - (i + 1)) := by unfold shareOf; split <;> omega
        omega
      · rw [List.filter_cons_of_neg (by simpa using hu)]
        exact ⟨by omega, fun h => by omega⟩
    · obtain ⟨i1, i2⟩ := ih i
      rw [Bool.not_eq_true] at hw
      simp only [hw, Bool.false_eq_true, if_false, List.filter_cons_of_neg, not_false_eq_true]
      exact ⟨i1, i2⟩

/-- Enough iterations end Round 2 at one priority: the remainder is below the minimum grant, or no channel
of the priority is pending (R215). -/
theorem round2Loop_done (p fuel rem : Nat) (cs : List LcpChan) (h : (cs.filter (wants p)).length < fuel) :
    (round2Loop p fuel rem cs).2 < lcpMinGrant ∨ (round2Loop p fuel rem cs).1.filter (wants p) = [] := by
  induction fuel generalizing rem cs with
  | zero => omega
  | succ n ih =>
    unfold round2Loop
    simp only
    split
    · exact .inl ‹_›
    · split
      · exact .inr (List.eq_nil_of_length_eq_zero ‹_›)
      · rename_i h8 hn
        obtain ⟨g1, g2⟩ := shareOut_progress p (rem / (cs.filter (wants p)).length)
          (rem % (cs.filter (wants p)).length) 0 cs
        rcases Nat.lt_or_ge ((shareOut p (rem / (cs.filter (wants p)).length) (rem % (cs.filter (wants p)).length) 0
          cs).1.filter (wants p)).length (cs.filter (wants p)).length with hlt | hge
        · exact ih _ _ (by omega)
        · have hall := g2 (by omega)
          have hd := Nat.div_add_mod rem (cs.filter (wants p)).length
          have hm := Nat.mod_lt rem (Nat.pos_of_ne_zero hn)
          have hz : rem - (shareOut p (rem / (cs.filter (wants p)).length) (rem % (cs.filter (wants p)).length) 0 cs).2
              = 0 := by omega
          rw [hz]
          left
          have hstop : ∀ k ds, (round2Loop p k 0 ds).2 = 0 := fun k ds => by cases k <;> simp [round2Loop]
          rw [hstop]; decide

/-- Service keeps the channels and their order. -/
theorem ids_served {cs ds : List LcpChan} (h : List.Forall₂ ServedTo cs ds) : ds.map LcpChan.id = cs.map LcpChan.id := by
  induction h with
  | nil => rfl
  | cons h _ ih => simp [h.id, ih]

/-- A run keeps the channels and their order. -/
theorem lcpRun_ids (b : Nat) (cs : List LcpChan) :
    (lcpRun cs b).1.map LcpChan.id = cs.map LcpChan.id := by
  simp only [lcpRun, List.map_map]
  have : (LcpChan.id ∘ fun c : LcpChan => { c with elapsed := 0 }) = LcpChan.id := rfl
  rw [this, ids_served (round2_served _ _ _).1]
  have e : (cs.map (bucketUpdate b)).map LcpChan.id = cs.map LcpChan.id := by simp [bucketUpdate]
  split
  · rw [ids_served (round1_served _ _).1, e]
  · exact e

/-- Writing back channels with distinct identifiers: each record takes its channel's numbers, every other
record of the device stays. -/
theorem writeBack_chan (dev : Nat) (l : List LcpChan) (s : State) (hn : (l.map LcpChan.id).Nodup)
    (hb : ∀ c ∈ l, c.id < 64) :
    (∀ c ∈ l, (writeBack dev l s).chan dev c.id = lcpRecord (s.chan dev c.id) c)
    ∧ ∀ k, k < 64 → k ∉ l.map LcpChan.id → (writeBack dev l s).chan dev k = s.chan dev k := by
  induction l generalizing s with
  | nil => simp [writeBack]
  | cons c l ih =>
    simp only [List.map_cons, List.nodup_cons] at hn
    obtain ⟨i1, i2⟩ := ih (s.setChan dev c.id (lcpRecord (s.chan dev c.id) c)) hn.2 (fun c h => hb c (by simp [h]))
    refine ⟨fun c' h' => ?_, fun k hk hm => ?_⟩
    · simp only [writeBack]
      rcases List.mem_cons.1 h' with rfl | h'
      · rw [i2 _ (hb _ (by simp)) hn.1, State.chan_setChan_self]
      · rw [i1 c' h', State.chan_setChan, if_neg]
        intro e
        have := (lcKey_inj _ _ _ _ (hb c' (by simp [h'])) (hb c (by simp)) e).2
        exact hn.1 (this ▸ List.mem_map_of_mem h')
    · simp only [List.map_cons, List.mem_cons, not_or] at hm
      simp only [writeBack]
      rw [i2 k hk hm.2, State.chan_setChan, if_neg]
      intro e
      exact hm.1 (lcKey_inj _ _ _ _ hk (hb c (by simp)) e).2

end Sys2Proof.Machine
end

