-- ==== Sys2Proof/Laws/Operands.lean ====
section
/-!
SUPPORT. The laws of the operands: bit fields, header bytes and length fields, bits of a report, and the
words of a grant.
-/

namespace Sys2Proof.Machine

/-! ### Bit fields -/

/-- A one-bit field is the bit. -/
theorem bits_self_eq_one {w : Nat} (b : BitVec w) (i : Nat) : bits b.toNat i i = 1 ↔ b.getLsbD i = true := by
  have h : i + 1 - i = 1 := by omega
  simp only [bits, h, pow_one, BitVec.getLsbD, Nat.testBit_eq_decide_div_mod_eq, decide_eq_true_eq]

/-- A field of a bit vector is the bits it names. -/
theorem bits_toNat {w : Nat} (b : BitVec w) (hi lo : Nat) :
    bits b.toNat hi lo = (b.extractLsb' lo (hi + 1 - lo)).toNat := by
  simp [bits, BitVec.extractLsb'_toNat, Nat.shiftRight_eq_div_pow]

/-! ### Headers -/

theorem headerF_eq (h : Byte) : headerF h = h.getLsbD 6 := by
  rw [headerF]
  by_cases hb : h.getLsbD 6 = true
  · rw [hb]; exact decide_eq_true ((bits_self_eq_one h 6).2 hb)
  · rw [Bool.not_eq_true] at hb
    rw [hb]; exact decide_eq_false fun h1 => by rw [(bits_self_eq_one h 6).1 h1] at hb; cases hb

theorem headerLcid_eq (h : Byte) : headerLcid h = h.toNat % 64 := by simp [headerLcid, bits]

theorem headerByte_toNat (f : Bool) (lcid : Nat) (h : lcid < 64) :
    (headerByte f lcid).toNat = 64 * bitNat f + lcid := by
  rw [headerByte, BitVec.toNat_ofNat]; cases f <;> simp <;> omega

/-- The fields of a header the encoder built (R97). -/
theorem headerByte_fields (f : Bool) (lcid : Nat) (h : lcid < 64) :
    headerLcid (headerByte f lcid) = lcid ∧ headerF (headerByte f lcid) = f := by
  refine ⟨?_, ?_⟩
  · rw [headerLcid_eq, headerByte_toNat f lcid h]; omega
  · rw [headerF, headerByte_toNat f lcid h]
    have h6 : bits (64 * bitNat f + lcid) 6 6 = bitNat f := by
      have := bitNat_lt f
      unfold bits; omega
    rw [h6]; cases f <;> rfl

/-- A channelId with a length field fits 6 bits and is not padding (R93). -/
theorem lenIds_bound {dir : Dir} {lcid : Nat} (h : lenIds dir lcid = true) : 1 ≤ lcid ∧ lcid ≤ 62 := by
  cases dir <;> simp only [lenIds, maxLcidData, decide_eq_true_eq] at h <;> omega

/-- What a length field can be: absent, or the header length and the announced length (R95). -/
theorem lengthField_cases (pdu : List Byte) (cur : Nat) :
    (headerF (byteAt pdu cur) = true ∧ cur + 3 ≤ pdu.length ∧ lengthField pdu cur
        = some (3, 256 * (byteAt pdu (cur + 1)).toNat + (byteAt pdu (cur + 2)).toNat))
    ∨ (headerF (byteAt pdu cur) = true ∧ pdu.length < cur + 3 ∧ lengthField pdu cur = none)
    ∨ (headerF (byteAt pdu cur) = false ∧ cur + 2 ≤ pdu.length
        ∧ lengthField pdu cur = some (2, (byteAt pdu (cur + 1)).toNat))
    ∨ (headerF (byteAt pdu cur) = false ∧ pdu.length < cur + 2 ∧ lengthField pdu cur = none) := by
  unfold lengthField
  by_cases hf : headerF (byteAt pdu cur) = true
  · rw [if_pos hf]
    by_cases h : cur + 3 ≤ pdu.length
    · rw [if_pos h]; exact .inl ⟨hf, h, rfl⟩
    · rw [if_neg h]; exact .inr (.inl ⟨hf, by omega, rfl⟩)
  · rw [if_neg hf]; rw [Bool.not_eq_true] at hf
    by_cases h : cur + 2 ≤ pdu.length
    · rw [if_pos h]; exact .inr (.inr (.inl ⟨hf, h, rfl⟩))
    · rw [if_neg h]; exact .inr (.inr (.inr ⟨hf, by omega, rfl⟩))

/-! ### Reports -/

theorem bsrBit_eq (m : Byte) (i : Nat) : bsrBit m i = m.getLsbD i := by
  rw [bsrBit]
  by_cases hb : m.getLsbD i = true
  · rw [hb]; exact decide_eq_true ((bits_self_eq_one m i).2 hb)
  · rw [Bool.not_eq_true] at hb
    rw [hb]; exact decide_eq_false fun h1 => by rw [(bits_self_eq_one m i).1 h1] at hb; cases hb

/-! ### Grants -/

theorem grantWord_eq (gr : GrantBits) (i : Nat) : grantWord gr i = gr.extractLsb' (32 * i) 32 := by
  apply BitVec.eq_of_toNat_eq
  have h : 32 * i + 31 + 1 - 32 * i = 32 := by omega
  rw [grantWord, bits_toNat, BitVec.toNat_ofNat, h]
  exact Nat.mod_eq_of_lt (BitVec.isLt _)

/-- A grant record as a number (R106): `g[0]` is the least significant word. -/
theorem grantOf_toNat (s : State) :
    (grantOf s).toNat = 2 ^ 96 * (s.grantReg 3).toNat + 2 ^ 64 * (s.grantReg 2).toNat
      + 2 ^ 32 * (s.grantReg 1).toNat + (s.grantReg 0).toNat := by
  have two : ∀ {m : Nat} (a : BitVec m) (b : Word), (a ++ b).toNat = 2 ^ 32 * a.toNat + b.toNat := fun a b => by
    rw [BitVec.toNat_append, ← Nat.shiftLeft_add_eq_or_of_lt b.isLt, Nat.shiftLeft_eq, mul_comm]
  have h : (grantOf s).toNat = (s.grantReg 3 ++ s.grantReg 2 ++ s.grantReg 1 ++ s.grantReg 0).toNat := rfl
  rw [h, two, two, two]; ring

/-- A grant record packed from the staging registers unpacks to them (R106, R180). -/
theorem grantWord_grantOf (s : State) (i : Fin 4) : grantWord (grantOf s) i.val = s.grantReg i := by
  apply BitVec.eq_of_toNat_eq
  have h0 : (s.grantReg 0).toNat < 2 ^ 32 := (s.grantReg 0).isLt
  have h1 : (s.grantReg 1).toNat < 2 ^ 32 := (s.grantReg 1).isLt
  have h2 : (s.grantReg 2).toNat < 2 ^ 32 := (s.grantReg 2).isLt
  have h3 : (s.grantReg 3).toNat < 2 ^ 32 := (s.grantReg 3).isLt
  rw [grantWord, BitVec.toNat_ofNat, bits, grantOf_toNat]
  match i with
  | 0 => show _ / 2 ^ (32 * 0) % 2 ^ (32 * 0 + 31 + 1 - 32 * 0) % _ = _; omega
  | 1 => show _ / 2 ^ (32 * 1) % 2 ^ (32 * 1 + 31 + 1 - 32 * 1) % _ = _; omega
  | 2 => show _ / 2 ^ (32 * 2) % 2 ^ (32 * 2 + 31 + 1 - 32 * 2) % _ = _; omega
  | 3 => show _ / 2 ^ (32 * 3) % 2 ^ (32 * 3 + 31 + 1 - 32 * 3) % _ = _; omega

/-- The addressing fields of a grant stand in its first word (R106). -/
theorem grantOf_fields (s : State) :
    grantDev (grantOf s) = bits (s.grantReg 0).toNat 15 0
    ∧ grantDir (grantOf s) = dirOfNat (bits (s.grantReg 0).toNat 16 16)
    ∧ grantProc (grantOf s) = bits (s.grantReg 0).toNat 20 17
    ∧ grantIsRetx (grantOf s) = decide (bits (s.grantReg 0).toNat 21 21 = 1) := by
  simp only [grantDev, grantDir, grantProc, grantIsRetx, bits, grantOf_toNat]
  refine ⟨by omega, congrArg _ (by omega), by omega, ?_⟩
  congr 2; omega

end Sys2Proof.Machine
end

