-- ==== Sys2Proof/Laws/PerInstr.lean ====
section
/-!
SUPPORT. What holds of every command as syntax, one lemma a constructor: the low 24 bits of a well-formed
command have its format's reserved bits zero, and its fields read back from them.
-/

namespace Sys2Proof.Laws.FieldsReadBack

/-- The reserved bits of the command's format are 0 in its field bits, and its fields are read from them
as they were (R111 to R116). -/
def Statement (i : Instr) : Prop :=
  i.wf = true →
    (reservedBits (opcodeOf i)).all (fun f => bits (fieldBits i) f.1 f.2 == 0) = true
    ∧ fieldsOf (opcodeOf i) (fieldBits i) = i

theorem succ_bit (b : Bool) : decide (bitNat b = 1) = b := by cases b <;> rfl

/-- The commands of format H with SUCC absent or present. -/
theorem formH (dir : Dir) (b : Bool) (proc dev : Nat) (hp : proc < 16) (hd : dev < 65536) :
    bits (2 ^ 23 * dirNat dir + 2 ^ 22 * bitNat b + 2 ^ 16 * proc + dev) 23 23 = dirNat dir
    ∧ bits (2 ^ 23 * dirNat dir + 2 ^ 22 * bitNat b + 2 ^ 16 * proc + dev) 22 22 = bitNat b
    ∧ bits (2 ^ 23 * dirNat dir + 2 ^ 22 * bitNat b + 2 ^ 16 * proc + dev) 21 20 = 0
    ∧ bits (2 ^ 23 * dirNat dir + 2 ^ 22 * bitNat b + 2 ^ 16 * proc + dev) 19 16 = proc
    ∧ bits (2 ^ 23 * dirNat dir + 2 ^ 22 * bitNat b + 2 ^ 16 * proc + dev) 15 0 = dev :=
  bits_formH _ _ _ _ (dirNat_lt dir) (bitNat_lt b) hp hd

theorem nop : Statement .nop := fun _ => by decide

theorem sreset : Statement .sreset := fun _ => by decide

theorem encSub (dir : Dir) (lcid : Nat) : Statement (.encSub dir lcid) := fun h => by
  obtain ⟨h1, h2, h3⟩ := bits_formK (dirNat dir) lcid (dirNat_lt dir) (by simpa [Instr.wf, lcidFits] using h)
  simp only [opcodeOf, reservedBits, fieldBits, fieldsOf, List.all_cons, List.all_nil, h1, h2, h3, dirOfNat_dirNat]
  simp

theorem encPad : Statement .encPad := fun _ => by decide

theorem mux (dir : Dir) : Statement (.mux dir) := fun _ => by cases dir <;> decide

theorem parse (dir : Dir) : Statement (.parse dir) := fun _ => by cases dir <;> decide

theorem parseBsr (variant : BsrVariant) : Statement (.parseBsr variant) := fun _ => by cases variant <;> decide

theorem hqAlloc (dir : Dir) (dev : Nat) : Statement (.hqAlloc dir dev) := fun h => by
  obtain ⟨h1, h2, h3, h4, h5⟩ := formH dir false 0 dev (by decide) (by simpa [Instr.wf, devFits] using h)
  simp only [bitNat, Bool.false_eq_true, if_false, mul_zero, add_zero] at h1 h2 h3 h4 h5
  simp only [opcodeOf, reservedBits, fieldBits, fieldsOf, List.all_cons, List.all_nil, h1, h2, h3, h4, h5,
    dirOfNat_dirNat]
  simp

theorem hqMark : Statement .hqMark := fun _ => by decide

theorem hqResult (dir : Dir) (succ : Bool) (proc dev : Nat) : Statement (.hqResult dir succ proc dev) := fun h => by
  simp only [Instr.wf, procFits, devFits, Bool.and_eq_true, decide_eq_true_eq] at h
  obtain ⟨h1, h2, h3, h4, h5⟩ := formH dir succ proc dev h.1 h.2
  simp only [opcodeOf, reservedBits, fieldBits, fieldsOf, List.all_cons, List.all_nil, h1, h2, h3, h4, h5,
    dirOfNat_dirNat, succ_bit]
  simp

theorem hqRead (dir : Dir) (proc dev : Nat) : Statement (.hqRead dir proc dev) := fun h => by
  simp only [Instr.wf, procFits, devFits, Bool.and_eq_true, decide_eq_true_eq] at h
  obtain ⟨h1, h2, h3, h4, h5⟩ := formH dir false proc dev h.1 h.2
  simp only [bitNat, Bool.false_eq_true, if_false, mul_zero, add_zero] at h1 h2 h3 h4 h5
  simp only [opcodeOf, reservedBits, fieldBits, fieldsOf, List.all_cons, List.all_nil, h1, h2, h3, h4, h5,
    dirOfNat_dirNat]
  simp

theorem hqCtx (dir : Dir) (proc dev : Nat) : Statement (.hqCtx dir proc dev) := fun h => by
  obtain ⟨k1, k2⟩ := hqRead dir proc dev h
  refine ⟨k1, ?_⟩
  simp only [opcodeOf, fieldBits, fieldsOf, Instr.hqRead.injEq, Instr.hqCtx.injEq] at k2 ⊢
  exact k2

theorem lcReg (ch dev : Nat) : Statement (.lcReg ch dev) := fun h => by
  simp only [Instr.wf, chFits, devFits, Bool.and_eq_true, decide_eq_true_eq] at h
  obtain ⟨h1, h2, h3⟩ := bits_formL ch dev h.1 h.2
  simp only [opcodeOf, reservedBits, fieldBits, fieldsOf, List.all_cons, List.all_nil, h1, h2, h3]
  simp

theorem lcBuf (ch dev : Nat) : Statement (.lcBuf ch dev) := fun h => by
  obtain ⟨k1, k2⟩ := lcReg ch dev h
  refine ⟨k1, ?_⟩
  simp only [opcodeOf, fieldBits, fieldsOf, Instr.lcReg.injEq, Instr.lcBuf.injEq] at k2 ⊢
  exact k2

theorem lcTime (dev : Nat) : Statement (.lcTime dev) := fun h => by
  obtain ⟨h1, h2, h3⟩ := bits_formL 0 dev (by decide) (by simpa [Instr.wf, devFits] using h)
  simp only [mul_zero, zero_add] at h1 h2 h3
  simp only [opcodeOf, reservedBits, fieldBits, fieldsOf, List.all_cons, List.all_nil, h1, h2, h3]
  simp

theorem lcRun (dev : Nat) : Statement (.lcRun dev) := fun h => by
  obtain ⟨k1, k2⟩ := lcTime dev h
  refine ⟨k1, ?_⟩
  simp only [opcodeOf, fieldBits, fieldsOf, Instr.lcTime.injEq, Instr.lcRun.injEq] at k2 ⊢
  exact k2

theorem lcRead (ch dev : Nat) : Statement (.lcRead ch dev) := fun h => by
  obtain ⟨k1, k2⟩ := lcReg ch dev h
  refine ⟨k1, ?_⟩
  simp only [opcodeOf, fieldBits, fieldsOf, Instr.lcReg.injEq, Instr.lcRead.injEq] at k2 ⊢
  exact k2

end Sys2Proof.Laws.FieldsReadBack
end

