-- ==== Sys2Proof/Laws/Window.lean ====
section
/-!
SUPPORT. The map of the host window (spec/20_memory.md R72), said once: what each byte offset is.
-/

namespace Sys2Proof.Machine

/-- The bounds of the memories under legal parameters (R6). -/
theorem bufBytes_bounds {p : Params} (h : p.legal = true) :
    4096 ≤ p.bufBytes ∧ p.bufBytes ≤ 2 ^ 24 ∧ p.descEntries = p.bufBytes / 2 := by
  have hl : 12 ≤ p.log2Buf ∧ p.log2Buf ≤ 24 := by simp [Params.legal] at h; tauto
  exact ⟨Nat.pow_le_pow_right (n := 2) (by decide) hl.1, Nat.pow_le_pow_right (n := 2) (by decide) hl.2, rfl⟩

/-- What an offset is: one location of the map and no other. -/
theorem windowLoc_cases (p : Params) (off : Word) (o : Nat) (ho : off.toNat = o) :
   (o % 4 ≠ 0 ∧ windowLoc p off = .reserved)
   ∨ (∃ i : Fin 16, o = 4 * i.val ∧ windowLoc p off = .reg i)
   ∨ (∃ i : Fin 4, o = 0x40 + 4 * i.val ∧ windowLoc p off = .grantReg i)
   ∨ (o = 0x80 ∧ windowLoc p off = .cmd)
   ∨ (o = 0x84 ∧ windowLoc p off = .status)
   ∨ (o = 0x88 ∧ windowLoc p off = .fault)
   ∨ (o = 0x8c ∧ windowLoc p off = .cmdcnt)
   ∨ (o = 0x90 ∧ windowLoc p off = .mpfId)
   ∨ (o = 0x94 ∧ windowLoc p off = .cap0)
   ∨ (o = 0x98 ∧ windowLoc p off = .cap1)
   ∨ (∃ a, a < p.bufBytes ∧ o = 0x01000000 + 4 * a ∧ windowLoc p off = .buf a)
   ∨ (∃ k j, k < p.descEntries ∧ j < 3 ∧ o = 0x08000000 + 12 * k + 4 * j ∧ windowLoc p off = .desc k j)
   ∨ (0x50 ≤ o ∧ (o < 0x80 ∨ 0x98 < o) ∧ ¬ (0x01000000 ≤ o ∧ o < 0x01000000 + 4 * p.bufBytes) ∧ ¬ (0x08000000 ≤ o ∧ o < 0x08000000 + 12 * p.descEntries) ∧ windowLoc p off = .reserved) := by
  unfold windowLoc
  simp only [ho, bufBase, descBase]
  by_cases h0 : o % 4 ≠ 0
  · left; simp [h0]
  right
  rw [if_neg h0]
  by_cases h1 : o < 0x40
  · left; rw [if_pos h1]
    exact ⟨⟨o / 4, by omega⟩, by simp; omega, by congr 1; simp [Fin.ofNat]; omega⟩
  right; rw [if_neg h1]
  by_cases h2 : o < 0x50
  · left; rw [if_pos h2]
    exact ⟨⟨(o - 0x40) / 4, by omega⟩, by simp; omega, by congr 1; simp [Fin.ofNat]; omega⟩
  right; rw [if_neg h2]
  by_cases h3 : o = 0x80
  · left; simp [h3]
  right; rw [if_neg h3]
  by_cases h3 : o = 0x84
  · left; simp [h3]
  right; rw [if_neg h3]
  by_cases h3 : o = 0x88
  · left; simp [h3]
  right; rw [if_neg h3]
  by_cases h3 : o = 0x8c
  · left; simp [h3]
  right; rw [if_neg h3]
  by_cases h3 : o = 0x90
  · left; simp [h3]
  right; rw [if_neg h3]
  by_cases h3 : o = 0x94
  · left; simp [h3]
  right; rw [if_neg h3]
  by_cases h3 : o = 0x98
  · left; simp [h3]
  right; rw [if_neg h3]
  by_cases h4 : 0x01000000 ≤ o ∧ o < 0x01000000 + 4 * p.bufBytes
  · left; rw [if_pos h4]; exact ⟨(o - 0x01000000) / 4, by omega, by omega, rfl⟩
  right; rw [if_neg h4]
  by_cases h5 : 0x08000000 ≤ o ∧ o < 0x08000000 + 12 * p.descEntries
  · left; rw [if_pos h5]; exact ⟨(o - 0x08000000) / 12, _, by omega, (by omega : (o - 0x08000000) % 12 / 4 < 3), by omega, rfl⟩
  right; rw [if_neg h5]; exact ⟨by omega, by omega, h4, h5, rfl⟩

/-- A window write keeps the canonical form of `BUF` and `DESC`. -/
theorem windowWrite_wf (s : State) (off data : Word) (h1 : Memory.wf s.buf = true)
    (h2 : tableWf Desc.zero s.desc = true) :
    Memory.wf (windowWrite s off data).buf = true ∧ tableWf Desc.zero (windowWrite s off data).desc = true := by
  unfold windowWrite
  split <;> first
    | exact ⟨h1, h2⟩
    | exact ⟨tableSet_wf _ _ _ _ h1, h2⟩
    | exact ⟨h1, tableSet_wf _ _ _ _ h2⟩

end Sys2Proof.Machine
end

