-- ==== Sys2Proof/Machine/Asm.lean ====
section
/-!
DEFINITION. The assembler form of a command (spec/30_encoding.md R121). No behaviour depends on it.
-/

namespace Sys2Proof.Machine

/-- `dl` or `ul` (R121). -/
def dirAsm : Dir → String
  | .dl => "dl"
  | .ul => "ul"

/-- `ack` for 1 and `nack` for 0 (R121). -/
def succAsm (b : Bool) : String := if b then "ack" else "nack"

/-- The variant names of R121. -/
def variantAsm : BsrVariant → String
  | .shortTruncated => "strunc"
  | .short => "short"
  | .longTruncated => "ltrunc"
  | .long => "long"

/-- A mnemonic and its operands, separated by commas (R121). -/
def asmLine (mnemonic : String) (operands : List String) : String :=
  if operands.isEmpty then mnemonic else mnemonic ++ " " ++ String.intercalate ", " operands

/-- The assembler form of a command: dir first, then the other fields from the most significant (R121).
Numbers are decimal. -/
def asm : Instr → String
  | .nop => asmLine "nop" []
  | .sreset => asmLine "sreset" []
  | .encSub dir lcid => asmLine "enc_sub" [dirAsm dir, toString lcid]
  | .encPad => asmLine "enc_pad" []
  | .mux dir => asmLine "mux" [dirAsm dir]
  | .parse dir => asmLine "parse" [dirAsm dir]
  | .parseBsr variant => asmLine "parse_bsr" [variantAsm variant]
  | .hqAlloc dir dev => asmLine "hq_alloc" [dirAsm dir, toString dev]
  | .hqMark => asmLine "hq_mark" []
  | .hqResult dir succ proc dev => asmLine "hq_result" [dirAsm dir, succAsm succ, toString proc, toString dev]
  | .hqRead dir proc dev => asmLine "hq_read" [dirAsm dir, toString proc, toString dev]
  | .hqCtx dir proc dev => asmLine "hq_ctx" [dirAsm dir, toString proc, toString dev]
  | .lcReg ch dev => asmLine "lc_reg" [toString ch, toString dev]
  | .lcBuf ch dev => asmLine "lc_buf" [toString ch, toString dev]
  | .lcTime dev => asmLine "lc_time" [toString dev]
  | .lcRun dev => asmLine "lc_run" [toString dev]
  | .lcRead ch dev => asmLine "lc_read" [toString ch, toString dev]

/-- The names of the general registers: `x0`..`x15` (R121). -/
def regName (i : Fin 16) : String := "x" ++ toString i.val

/-- The aliases of the general registers: `a0`..`a7`, `r0`..`r6`, `st` (R23, R121). -/
def regAlias (i : Fin 16) : String :=
  if i.val < 8 then "a" ++ toString i.val
  else if i.val < 15 then "r" ++ toString (i.val - 8)
  else "st"

/-- The names of the grant staging registers: `g0`..`g3` (R121). -/
def grantRegName (i : Fin 4) : String := "g" ++ toString i.val

end Sys2Proof.Machine
end

