-- ==== Sys2Proof/Tests/Slice0.lean ====
section
/-!
SUPPORT. Tests on small states, and for every statement with hypotheses a state and operands that meet
them. Expected results are those of spec/95_test_vectors.md, whose vector a comment names, or are worked
out from the rule it names.
-/

namespace Sys2Proof.Tests

open Sys2Proof Sys2Proof.Machine

/-! ### Well-formed terms: one ill-formed term for each check -/

theorem test_wf_refuses_lcid : (Instr.encSub .dl 64).wf = false := by decide
theorem test_wf_refuses_proc : (Instr.hqRead .dl 16 1).wf = false := by decide
theorem test_wf_refuses_proc_of_result : (Instr.hqResult .ul true 16 1).wf = false := by decide
theorem test_wf_refuses_channel : (Instr.lcReg 64 1).wf = false := by decide
theorem test_wf_refuses_device : (Instr.lcRun 65536).wf = false := by decide
theorem test_wf_refuses_device_of_harq : (Instr.hqAlloc .ul 65536).wf = false := by decide
theorem test_wf_accepts_largest : (Instr.hqResult .ul true 15 65535).wf = true ∧ (Instr.lcRead 63 65535).wf = true
    ∧ (Instr.encSub .ul 63).wf = true := by decide

/-! ### Decoding: one word for every constructor, written from formats R111 to R116 and opcodes R117

`0x oo` opcode, then the 24 bits of the format. -/

theorem test_decode_nop : decode 0b00000000_000000000000000000000000 = .ok .nop := by decide
theorem test_decode_sreset : decode 0b00000001_000000000000000000000000 = .ok .sreset := by decide
theorem test_decode_encSub : decode 0b00010000_1_00000000000000000_100000 = .ok (.encSub .ul 32) := by decide
theorem test_decode_encPad : decode 0b00010001_000000000000000000000000 = .ok .encPad := by decide
theorem test_decode_mux : decode 0b00010010_1_00000000000000000000000 = .ok (.mux .ul) := by decide
theorem test_decode_parse : decode 0b00010011_0_00000000000000000000000 = .ok (.parse .dl) := by decide
theorem test_decode_parseBsr : decode 0b00010100_0000000000000000000000_10 = .ok (.parseBsr .longTruncated) := by decide
theorem test_decode_hqAlloc : decode 0b00100000_1_0_00_0000_0000000000000011 = .ok (.hqAlloc .ul 3) := by decide
theorem test_decode_hqMark : decode 0b00100001_000000000000000000000000 = .ok .hqMark := by decide
theorem test_decode_hqResult : decode 0b00100010_1_1_00_0101_0000000000000010 = .ok (.hqResult .ul true 5 2) := by decide
theorem test_decode_hqRead : decode 0b00100011_0_0_00_0010_0000000000000001 = .ok (.hqRead .dl 2 1) := by decide
theorem test_decode_hqCtx : decode 0b00100100_1_0_00_0001_0000000000000010 = .ok (.hqCtx .ul 1 2) := by decide
theorem test_decode_lcReg : decode 0b00110000_00_100001_1000000000000001 = .ok (.lcReg 33 32769) := by decide
theorem test_decode_lcBuf : decode 0b00110001_00_000111_0000000000000010 = .ok (.lcBuf 7 2) := by decide
theorem test_decode_lcTime : decode 0b00110010_00_000000_0000000000000100 = .ok (.lcTime 4) := by decide
theorem test_decode_lcRun : decode 0b00110011_00_000000_0000000000000001 = .ok (.lcRun 1) := by decide
theorem test_decode_lcRead : decode 0b00110100_00_000101_0000000000000001 = .ok (.lcRead 5 1) := by decide

/-- VS1 of the vectors: seven words that are no command. -/
theorem test_decode_illegal :
    decode 0x02000000 = .error (.reservedOpcode 2) ∧ decode 0x00000001 = .error (.mustBeZero .nop)
    ∧ decode 0x10400005 = .error (.mustBeZero .encSub) ∧ decode 0x11000001 = .error (.mustBeZero .encPad)
    ∧ decode 0x14000004 = .error (.mustBeZero .parseBsr) ∧ decode 0xFFFFFFFF = .error (.reservedOpcode 255)
    ∧ decode 0x34400001 = .error (.mustBeZero .lcRead) := by decide

/-- VH4 steps 16 to 18 and VL12 steps 17 and 18: reserved bits of formats H and L. -/
theorem test_decode_illegal_fields :
    decode 0x20010001 = .error (.mustBeZero .hqAlloc) ∧ decode 0x23400001 = .error (.mustBeZero .hqRead)
    ∧ decode 0x22100001 = .error (.mustBeZero .hqResult) ∧ decode 0x32010001 = .error (.mustBeZero .lcTime)
    ∧ decode 0x33400001 = .error (.mustBeZero .lcRun) := by decide

theorem test_decodeTableWord : decodeTableWord 32 0x22400001 = some (.hqResult .dl true 0 1)
    ∧ decodeTableWord 32 0x02000000 = none := by decide

/-- R121's assembler form. -/
theorem test_asm : asm (.hqResult .ul false 1 2) = "hq_result ul, nack, 1, 2" ∧ asm .encPad = "enc_pad" := by decide

/-! ### Small states -/

/-- The parameters of the vectors' conventions; the tables and levels the spec leaves open are chosen. -/
def par : Params where
  numDevices := 4
  numHarq := 2
  rvSeq := [0, 3, 2, 1]
  numRbgs := 18
  log2Buf := 17
  bsr5 := bsr5Default
  bsr8 := (List.range 256).map (fun i => word (10 * i))
  bsrFallback := 10

/-- Reset, with the parameters of the vectors. -/
def rs : State := { State.reset with params := par }

/-- A state with some general registers written. -/
def withRegs (s : State) (vs : List (Fin 16 × Word)) : State := vs.foldl (fun t e => t.setReg e.1 e.2) s

/-- A state with a string stored in `BUF`. -/
def withBytes (s : State) (off : Nat) (bs : List Byte) : State := s.writeBytes off bs

/-- The state after a command. -/
def after (i : Instr) (s : State) : State :=
  match exec i s with
  | .next t => t
  | .fault _ => s
  | .refused _ => s

/-- The state after one step. -/
def stepped (s : State) : State :=
  match step s with
  | .next t => t
  | .fault _ => s
  | .refused _ => s

/-- The registers of a list, as numbers. -/
def regs (s : State) (is : List (Fin 16)) : List Nat := is.map (fun i => s.argN i)

/-- A grant in the staging registers. -/
def withGrant (s : State) (g0 g1 g2 g3 : Word) : State :=
  (((s.setGrantReg 0 g0).setGrantReg 1 g1).setGrantReg 2 g2).setGrantReg 3 g3

/-- A registered channel with priority, rate, duration, pending bytes, bucket and elapsed time. -/
def ch (prio : BitVec 5) (pbr : Word) (bsd : BitVec 16) (pending bj elapsed : Word) : LcRec :=
  ⟨true, 0, prio, pbr, bsd, pending, bj, elapsed⟩

/-! ### The system commands -/

/-- R240. -/
theorem test_nop : (after .nop (withRegs { rs with fault := 6 } [(15, 9)])).reg 15 = 0
    ∧ (after .nop { rs with fault := 6 }).fault = 6 ∧ (after .nop rs).cmdcnt = 1 := by decide

/-- R241: counted from 0 again, and the word is not counted. -/
theorem test_sreset : after .sreset (withRegs { rs with fault := 6, cmdcnt := 5 } [(3, 9)]) = rs := rfl

/-! ### CODEC -/

/-- VE18: in place. -/
theorem test_encSub_in_place :
    (after (.encSub .dl 9) (withRegs (withBytes rs 10 [1, 2, 3, 4]) [(0, 10), (1, 4), (2, 10)])).readBytes 10 6
      = [0x09, 0x04, 0x01, 0x02, 0x03, 0x04] := by decide

set_option maxRecDepth 8000 in
/-- VE4: 256 payload bytes take the 2-byte length field. -/
theorem test_encSub_long :
    (after (.encSub .ul 32) (withRegs rs [(0, 0), (1, 256), (2, 3000)])).readBytes 3000 3 = [0x60, 0x01, 0x00]
    ∧ regs (after (.encSub .ul 32) (withRegs rs [(0, 0), (1, 256), (2, 3000)])) [8, 9, 15] = [259, 3, 0] := by decide

/-- VD2. -/
theorem test_encPad :
    (after .encPad (withRegs (withBytes rs 100 [0xEE, 0xEE, 0xEE, 0xEE, 0xEE]) [(1, 4), (2, 100)])).readBytes 100 5
      = [0x3F, 0, 0, 0, 0xEE] := by decide

/-- VD4: the length is checked before the bounds. -/
theorem test_encPad_checks_length_first : (after .encPad (withRegs rs [(1, 0), (2, 200000)])).status = 4 := by decide

/-- Data, control and padding of example E5. -/
def e5 : State := withBytes (withBytes (withBytes rs 0 [0x01, 0x01, 0xAA]) 16 [0x3D, 0x01, 0x25]) 32 [0x3F, 0x00]

/-- Example E5 and VM2: downlink order. -/
theorem test_mux_downlink :
    (after (.mux .dl) (withRegs e5 [(1, 3), (2, 16), (3, 3), (4, 32), (5, 2), (6, 80)])).readBytes 80 8
      = [0x3D, 0x01, 0x25, 0x01, 0x01, 0xAA, 0x3F, 0x00] := by decide

/-- VM4: the destination overlaps the data string. -/
theorem test_mux_overlap :
    (after (.mux .ul) (withRegs e5 [(1, 3), (2, 16), (3, 3), (4, 32), (5, 2), (6, 1)])).readBytes 0 10
      = [0x01, 0x01, 0x01, 0xAA, 0x3D, 0x01, 0x25, 0x3F, 0x00, 0x00] := by decide

/-- VP1. -/
theorem test_parse_uplink :
    let t := after (.parse .ul)
      (withRegs (withBytes rs 16 [0x01, 0x01, 0xAA, 0x3D, 0x01, 0x25, 0x3F, 0x00]) [(0, 16), (1, 8)])
    regs t [8, 9, 10, 15] = [2, 6, 1, 0] ∧ t.descAt 0 = ⟨1, 18, 1⟩ ∧ t.descAt 1 = ⟨61, 21, 1⟩ := by decide

/-- VP9 and VP14: a 2-byte field, and a payload cut short. -/
theorem test_parse_fields :
    (after (.parse .dl) (withRegs (withBytes rs 16 [0x45, 0x00, 0x03, 0xAA, 0xBB, 0xCC]) [(0, 16), (1, 6)])).descAt 0
      = ⟨5, 19, 3⟩
    ∧ (after (.parse .dl) (withRegs (withBytes rs 16 [0x05, 0x03, 0xAA, 0xBB]) [(0, 16), (1, 4)])).status = 6 := by
  decide

/-- Example E1. -/
theorem test_parseBsr_short :
    (after (.parseBsr .short) (withRegs (withBytes rs 0 [0x25]) [(1, 1)])).descAt 0 = ⟨1, 38, 0⟩ := by decide

/-- VB11: the bytes run out, group 2 takes the fallback level. -/
theorem test_parseBsr_long :
    let t := after (.parseBsr .longTruncated) (withRegs (withBytes rs 0 [0x05, 0x10]) [(1, 2)])
    t.reg 8 = 2 ∧ t.descAt 0 = ⟨0, 160, 0⟩ ∧ t.descAt 1 = ⟨2, 10, 1⟩ := by decide

/-! ### HARQT -/

/-- A process busy with an original transmission at position 0. -/
def busy : HarqRec := ⟨.busy, 0, true, false, 0, 0, 0x00030002, 777⟩

/-- A process waiting for its retransmission at position 1. -/
def waiting : HarqRec := ⟨.busy, 1, true, true, 0x00230002, 777, 0x00230002, 500⟩

/-- A process busy at the last position. -/
def lastPos : HarqRec := ⟨.busy, 3, true, false, 0, 777, 0x00230002, 502⟩

/-- VH1: process 0 is busy, process 1 is answered; then none. -/
theorem test_hqAlloc :
    regs (after (.hqAlloc .ul 3) (rs.setHarq 3 .ul 0 busy)) [8, 9] = [1, 1]
    ∧ regs (after (.hqAlloc .ul 3) ((rs.setHarq 3 .ul 0 busy).setHarq 3 .ul 1 busy)) [8, 9, 15] = [0, 0, 0] := by
  decide

/-- VH2: the New mark of device 2, uplink, process 1. -/
theorem test_hqMark_new :
    let t := after .hqMark (withRegs (withGrant rs 0x00030002 0x0000F00F 0x00123456 0x00000045) [(0, 777)])
    regs t [8, 9, 10] = [1, 0, 0]
    ∧ t.harq 2 .ul 1 = ⟨.busy, 0, true, false, 0, 0, 0x00000045_00123456_0000F00F_00030002, 777⟩ := by decide

/-- VH2: a retransmission mark after the second failure, position 2, redundancy version 2. -/
theorem test_hqMark_retx :
    let t := after .hqMark (withRegs (withGrant (rs.setHarq 2 .ul 1 waiting) 0x00230002 0 0 0) [(0, 501)])
    regs t [8, 9, 10] = [1, 2, 2] ∧ (t.harq 2 .ul 1).hasCtx = false ∧ (t.harq 2 .ul 1).lastTBS = 777 := by decide

/-- VH2: the first failure stores the context and the size of the original. -/
theorem test_hqResult_failure :
    let t := after (.hqResult .ul false 1 2) (rs.setHarq 2 .ul 1 busy)
    t.reg 8 = 1 ∧ t.harq 2 .ul 1 = ⟨.busy, 0, true, true, 0x00030002, 777, 0x00030002, 777⟩ := by decide

/-- VH2: the fourth failure drops the packet. -/
theorem test_hqResult_dropped :
    let t := after (.hqResult .ul false 1 2) (rs.setHarq 2 .ul 1 lastPos)
    t.reg 8 = 2 ∧ (t.harq 2 .ul 1).state = .free ∧ (t.harq 2 .ul 1).pos = 0 := by decide

/-- R178 on a record at position 1: redundancy version 3. -/
theorem test_hqRead :
    regs (after (.hqRead .ul 1 2) (rs.setHarq 2 .ul 1 waiting)) [8, 9, 10, 11, 12, 13] = [1, 1, 3, 1, 1, 777] := by
  decide

/-- VH4 step 14: process 2 of 2. -/
theorem test_hqRead_refused : (after (.hqRead .dl 2 1) rs).status = 9 := by decide

/-- VH2: the context of the second failure. -/
theorem test_hqCtx :
    let t := after (.hqCtx .ul 1 2) (rs.setHarq 2 .ul 1 waiting)
    t.reg 8 = 777 ∧ t.grantReg 0 = 0x00230002 ∧ t.hq = (rs.setHarq 2 .ul 1 waiting).hq := by decide

/-- VH4 step 6. -/
theorem test_hqCtx_refused : (after (.hqCtx .dl 0 1) (rs.setHarq 1 .dl 0 busy)).fault = 0x400 := by decide

/-! ### LCP -/

/-- VL12 step 8. -/
theorem test_lcReg :
    (after (.lcReg 1 1) (withRegs rs [(0, 1), (1, 65535), (2, 16), (3, 7)])).chan 1 1
      = ⟨true, 7, 16, 1, 65535, 0, 0, 0⟩ := by decide

/-- VL12 step 10: parameters are checked before a second registration. -/
theorem test_lcReg_checks_parameters_first :
    (after (.lcReg 1 1) (withRegs (rs.setChan 1 1 (ch 1 0 0 0 0 0)) [(0, 1), (1, 1), (2, 0)])).status = 13 := by decide

/-- R203: the value replaces the old one. -/
theorem test_lcBuf :
    ((after (.lcBuf 32 4) (withRegs (rs.setChan 4 32 (ch 1 0 0 7 0 0)) [(0, 500)])).chan 4 32).pending = 500 := by decide

/-- VL12 step 12. -/
theorem test_lcBuf_refused : (after (.lcBuf 2 1) rs).status = 11 := by decide

/-- VL13: elapsed time saturates; the other device stands. -/
theorem test_lcTime :
    let t := after (.lcTime 1)
      (withRegs ((rs.setChan 1 1 (ch 1 0 0 0 0 0xFFFFFFF0)).setChan 2 1 (ch 1 0 0 0 0 5)) [(0, 0x20)])
    (t.chan 1 1).elapsed = 0xFFFFFFFF ∧ (t.chan 2 1).elapsed = 5 := by decide

/-- VL4: the odd byte to the lowest channelId. -/
theorem test_lcRun_shares :
    let t := after (.lcRun 2) (withRegs
      (((rs.setChan 2 4 (ch 5 0 0 100 0 0)).setChan 2 7 (ch 5 0 0 100 0 0)).setChan 2 9 (ch 5 0 0 100 0 0)) [(0, 100)])
    regs t [8, 9, 10] = [3, 0, 100] ∧ t.descAt 0 = ⟨4, 34, 0⟩ ∧ t.descAt 1 = ⟨7, 33, 0⟩ ∧ t.descAt 2 = ⟨9, 33, 0⟩ := by
  decide

/-- VL1: two rounds, and what they leave of the buckets. -/
theorem test_lcRun_buckets :
    let t := after (.lcRun 1) (withRegs
      ((rs.setChan 1 1 (ch 1 8000 100 500 0 50)).setChan 1 2 (ch 2 16000 50 300 0 50)) [(0, 1000)])
    regs t [8, 9, 10] = [2, 200, 800] ∧ t.chan 1 1 = ch 1 8000 100 0 0 0 ∧ t.chan 1 2 = ch 2 16000 50 0 500 0 := by
  decide

/-- VL12 step 16. -/
theorem test_lcRead :
    regs (after (.lcRead 1 1) (rs.setChan 1 1 ⟨true, 7, 16, 1, 65535, 0, 0, 0⟩)) [8, 9, 10, 11, 12, 13, 14, 15]
      = [0, 0, 0, 1, 65535, 16, 7, 0] := by decide

/-! ### Steps and the window -/

/-- R70: a write to `CMD` runs the command. -/
theorem test_step_runs_command :
    (stepped (rs.withFetchWord 32 0x33000005)).status = 8 ∧ (stepped (rs.withFetchWord 32 0x33000005)).fault = 0x100
    ∧ (stepped (rs.withFetchWord 32 0x33000005)).cmdcnt = 1 := by decide

/-- VS3 and R72: `CAP0`, `CAP1`, and a `BUF` location that takes bits 7:0. -/
theorem test_window :
    windowRead rs 0x094 = 0x6C820004 ∧ windowRead rs 0x098 = 0x00000251 ∧ windowRead rs 0x090 = 0x4D504601
    ∧ (stepped { rs with script := [.write 0x01000004 0x1234] }).readByte 1 = 0x34 := by decide

/-! ### Witnesses: a state and operands that meet the hypotheses of each statement, clause by clause

`witness_<Name>` is for the statement `Obligations.<Name>`; each shows the hypotheses of one clause met
together, at a boundary of the clause where it has one. -/

set_option maxRecDepth 20000 in
theorem par_legal : par.legal = true := by decide

theorem rs_legal : rs.params.legal = true := par_legal

theorem witness_DecodeEncodeRoundTrip : (Instr.hqResult .ul true 15 65535).wf = true := by decide

theorem witness_DecodedWordIsItsEncoding : decode 0x3420FFFF = .ok (.lcRead 32 65535) := by decide

theorem witness_StepRunsTheDecodedCommand :
    { rs with script := [.write 0x080 0x33000004, .hardReset] : State }.script = .write 0x080 0x33000004 :: [.hardReset]
    ∧ decode 0x33000004 = .ok (.lcRun 4) := ⟨rfl, by decide⟩

theorem witness_IllegalWordIsRefused :
    { rs with script := [.write 0x080 0x34400001] : State }.script = .write 0x080 0x34400001 :: []
    ∧ ∀ o, (0x34400001 : Word) &&& tableMask o ≠ tableMatch o := ⟨rfl, fun o => by cases o <;> decide⟩

theorem witness_EveryStepGoesOn : rs.script = [] := rfl

/-- The clauses of a host read, each at the end of its range. -/
theorem witness_HostReadReturnsTheLocation :
    { rs with script := [.read 0x03C] : State }.script = .read 0x03C :: []
    ∧ (0x03C : Word).toNat = 4 * (15 : Fin 16).val ∧ (0x04C : Word).toNat = 0x040 + 4 * (3 : Fin 4).val
    ∧ rs.params.legal = true
    ∧ (131071 < rs.params.bufBytes ∧ (0x0107FFFC : Word).toNat = 0x01000000 + 4 * 131071)
    ∧ (65535 < rs.params.descEntries ∧ (0x080BFFF4 : Word).toNat = 0x08000000 + 12 * 65535
        ∧ (0x080BFFF8 : Word).toNat = 0x08000000 + 12 * 65535 + 4
        ∧ (0x080BFFFC : Word).toNat = 0x08000000 + 12 * 65535 + 8) := by
  refine ⟨rfl, ?_, ?_, rs_legal, ?_, ?_⟩ <;> decide

/-- An offset of the last row of R72, as `HostReadReturnsTheLocation` describes it. -/
def elsewhere (off : Word) : Bool :=
  decide (0x050 ≤ off.toNat ∧ off ∉ [0x084, 0x088, 0x08C, 0x090, 0x094, 0x098]
    ∧ ¬ (0x01000000 ≤ off.toNat ∧ off.toNat < 0x01000000 + 4 * par.bufBytes)
    ∧ ¬ (0x08000000 ≤ off.toNat ∧ off.toNat < 0x08000000 + 12 * par.descEntries))

/-- The offsets on both sides of every named range, and the reserved row's ends, read 0 (R72). -/
theorem witness_HostReadReturnsTheLocation_elsewhere :
    ∀ off ∈ ([0x050, 0x07C, 0x09C, 0x0FC, 0x00FFFFFC, 0x01080000, 0x07FFFFFC, 0x080C0000, 0xFFFFFFFF] : List Word),
      elsewhere off = true ∧ windowRead rs off = 0 := by
  intro off h
  simp only [List.mem_cons, List.not_mem_nil, or_false] at h
  rcases h with rfl | rfl | rfl | rfl | rfl | rfl | rfl | rfl | rfl <;> decide

theorem witness_HostReadReturnsTheLocation_unaligned :
    (0x085 : Word).toNat % 4 ≠ 0 ∧ windowRead { rs with status := 7 } 0x085 = 0 := by decide

theorem witness_HostWriteChangesOneLocation :
    { rs with script := [.write 0x0107FFFC 0x1FF] : State }.script = .write 0x0107FFFC 0x1FF :: []
    ∧ (0x0107FFFC : Word) ≠ 0x080 ∧ rs.params.legal = true := ⟨rfl, by decide, rs_legal⟩

/-- For `CAP0` and `CAP1`. -/
theorem witness_CapHoldsItsFields : rs.params.legal = true := rs_legal

theorem witness_EveryCommandReportsItsStatus : Instr.lcRun 0 ≠ .sreset := by decide

theorem witness_RefusalChangesOnlyTheMarks : exec (.lcRun 0) rs = .next (rs.refuse .device) ∧ (rs.refuse .device).status ≠ 0 :=
  ⟨rfl, by decide⟩

theorem witness_FaultIsStickyAndNeverRead_ResetValues :
    Instr.lcRun 0 ≠ .sreset ∧ { rs with script := [.hardReset] : State }.script = .hardReset :: [] :=
  ⟨by decide, rfl⟩

/-- A payload of 1 byte on the largest channelId; channel 63; a payload of 65536 bytes. -/
theorem witness_EncodeSubPduIsItsRule :
    (62 < 64 ∧ InLenIds .ul 62 ∧ ([0x25] : List Byte).length ≤ 65535) ∧ ¬ InLenIds .ul 63
    ∧ (InLenIds .dl 1 ∧ 65535 < (List.replicate 65536 (0 : Byte)).length) := by
  refine ⟨⟨by decide, .inr ⟨rfl, by decide, by decide⟩, by decide⟩, ?_, .inl ⟨by decide, by decide⟩, ?_⟩
  · rintro (h | ⟨-, h⟩) <;> omega
  · rw [List.length_replicate]; decide

theorem witness_ArgumentRegistersAreNeverWritten :
    Instr.lcRun 5 ≠ .sreset ∧ exec (.lcRun 5) rs = .next (rs.refuse .device) ∧ (7 : Fin 16).val < 8
    ∧ (rs.refuse .device).status ≠ 0 ∧ (14 : Fin 16).val < 15 := ⟨by decide, rfl, by decide, by decide, by decide⟩

/-- NOP is in no list of writers, so it meets the premise of every clause. -/
theorem witness_MemoriesHaveTheirNamedWriters :
    Instr.nop ≠ .sreset ∧ exec .nop rs = .next rs.complete
    ∧ opcodeOf .nop ∉ [Opcode.encSub, .encPad, .mux] ∧ opcodeOf .nop ∉ [Opcode.parse, .parseBsr, .lcRun]
    ∧ opcodeOf .nop ≠ .hqCtx ∧ opcodeOf .nop ∉ [Opcode.hqMark, .hqResult]
    ∧ opcodeOf .nop ∉ [Opcode.lcReg, .lcBuf, .lcTime, .lcRun] := by
  refine ⟨?_, rfl, ?_, ?_, ?_, ?_, ?_⟩ <;> decide

theorem witness_ParametersNeverChange :
    step { rs with script := [.hardReset] } = .next rs ∧ exec .nop rs = .next rs.complete := ⟨rfl, rfl⟩

theorem witness_NopOnlyReports : (0x00FFFFFF : Word) ≠ 0 ∧ (0x00FFFFFF : Word).toNat < 2 ^ 24 := by decide

theorem witness_BothResetsGiveTheResetState :
    { rs with script := [.write 0x080 0x01000000] : State }.script = .write 0x080 0x01000000 :: [] := rfl

/-- The largest channelId and payload, the destination ending at the end of `BUF`; for EncSubThenParse too. -/
def encMax : State := withRegs rs [(0, 0), (1, 65535), (2, 65534)]

theorem witness_EncSubStoresTheSubPdu :
    InLenIds .ul 62 ∧ (encMax.reg 1).toNat ≤ 65535
    ∧ (encMax.reg 0).toNat + (encMax.reg 1).toNat ≤ encMax.params.bufBytes
    ∧ (encMax.reg 2).toNat + ((if (encMax.reg 1).toNat ≤ 255 then 2 else 3) + (encMax.reg 1).toNat)
        ≤ encMax.params.bufBytes ∧ 255 < (encMax.reg 1).toNat :=
  ⟨.inr ⟨rfl, by decide, by decide⟩, by decide, by decide, by decide, by decide⟩

/-- Channel 62 on the downlink; 65536 bytes; a destination one byte too far; a source region too far. -/
theorem witness_EncSubStoresTheSubPdu_refused :
    let u := withRegs rs [(1, 65536)]
    let v := withRegs rs [(1, 65535), (2, 65535)]
    let w := withRegs rs [(0, 131073)]
    ¬ InLenIds .dl 62 ∧ (InLenIds .dl 32 ∧ 65535 < (u.reg 1).toNat)
    ∧ ((v.reg 1).toNat ≤ 65535
      ∧ v.params.bufBytes < (v.reg 2).toNat + ((if (v.reg 1).toNat ≤ 255 then 2 else 3) + (v.reg 1).toNat))
    ∧ ((w.reg 1).toNat ≤ 65535 ∧ w.params.bufBytes < (w.reg 0).toNat + (w.reg 1).toNat) := by
  refine ⟨?_, ⟨.inl ⟨by decide, by decide⟩, by decide⟩, by decide, by decide⟩
  rintro (h | ⟨h, -⟩)
  · omega
  · cases h

theorem witness_EncPadStoresPadding :
    1 ≤ ((withRegs rs [(1, 1), (2, 131071)]).reg 1).toNat
    ∧ ((withRegs rs [(1, 1), (2, 131071)]).reg 2).toNat + ((withRegs rs [(1, 1), (2, 131071)]).reg 1).toNat
        ≤ rs.params.bufBytes := by decide

theorem witness_EncPadStoresPadding_refused :
    (rs.reg 1).toNat < 1 ∧ 1 ≤ ((withRegs rs [(1, 1), (2, 131072)]).reg 1).toNat
    ∧ rs.params.bufBytes
        < ((withRegs rs [(1, 1), (2, 131072)]).reg 2).toNat + ((withRegs rs [(1, 1), (2, 131072)]).reg 1).toNat := by
  decide

/-- VM7, and VM6 one byte further. -/
theorem witness_MuxConcatenatesByDirection :
    let s := withRegs e5 [(1, 3), (2, 16), (3, 3), (4, 32), (5, 2), (6, 131064)]
    let u := withRegs e5 [(1, 3), (2, 16), (3, 3), (4, 32), (5, 2), (6, 131065)]
    ((s.reg 0).toNat + (s.reg 1).toNat ≤ s.params.bufBytes ∧ (s.reg 2).toNat + (s.reg 3).toNat ≤ s.params.bufBytes
      ∧ (s.reg 4).toNat + (s.reg 5).toNat ≤ s.params.bufBytes
      ∧ (s.reg 6).toNat + ((s.reg 1).toNat + (s.reg 3).toNat + (s.reg 5).toNat) ≤ s.params.bufBytes)
    ∧ ¬ ((u.reg 6).toNat + ((u.reg 1).toNat + (u.reg 3).toNat + (u.reg 5).toNat) ≤ u.params.bufBytes) := by decide

/-- A PDU of one empty sub-PDU, one of padding, one of channelId 0 and one cut short, each walked. -/
theorem witness_ParseReportsTheWalk :
    let s := withRegs (withBytes rs 0 [0x05]) [(1, 2)]
    (s.reg 0).toNat + (s.reg 1).toNat ≤ s.params.bufBytes
    ∧ ParseWalk .dl (s.readBytes 0 2) 0 (.ok ⟨[⟨5, 2, []⟩], 2, false⟩) := by
  refine ⟨by decide, ?_⟩
  exact .subPdu 0 2 0 ⟨[], 2, false⟩ (by decide) (.inl ⟨by decide, by decide⟩)
    (by unfold Announces; decide) (by decide) (.atEnd 2 (by decide))

theorem witness_ParseReportsTheWalk_padding :
    let s := withRegs (withBytes rs 131071 [0xFF]) [(0, 131071), (1, 1)]
    (s.reg 0).toNat + (s.reg 1).toNat ≤ s.params.bufBytes
    ∧ ParseWalk .ul (s.readBytes 131071 1) 0 (.ok ⟨[], 0, true⟩) :=
  ⟨by decide, .padding 0 (by decide) (by decide)⟩

theorem witness_ParseReportsTheWalk_refused :
    rs.params.bufBytes < ((withRegs rs [(0, 131072), (1, 1)]).reg 0).toNat
      + ((withRegs rs [(0, 131072), (1, 1)]).reg 1).toNat
    ∧ ParseWalk .dl (rs.readBytes 0 1) 0 (.error .format)
    ∧ ParseWalk .dl ((withBytes rs 0 [0x05]).readBytes 0 1) 0 (.error .trunc) := by
  refine ⟨by decide, .badId 0 (by decide) (by decide) ?_, .cutField 0 2 0 (by decide) (.inl ⟨by decide, by decide⟩)
    (by unfold Announces; decide) (by decide)⟩
  rintro (h | ⟨h, -⟩)
  · exact absurd h (by decide)
  · cases h

theorem witness_ParseInvertsFraming :
    (∀ it ∈ ([(32, [0xAA])] : List (Nat × List Byte)) ++ [(62, [])], InLenIds .ul it.1 ∧ it.2.length ≤ 65535)
    ∧ List.Forall₂ (fun it b => encodeSubPDU it.1 it.2 .ul = .ok b) [(32, [0xAA])] [[0x20, 0x01, 0xAA]]
    ∧ List.Forall₂ (fun it b => encodeSubPDU it.1 it.2 .ul = .ok b) [(62, [])] [[0x3E, 0x00]]
    ∧ encodePadding 2 = .ok [0x3F, 0x00] := by
  refine ⟨?_, .cons (by decide) .nil, .cons (by decide) .nil, by decide⟩
  intro it h
  rcases List.mem_cons.1 h with rfl | h
  · exact ⟨.inl ⟨by decide, by decide⟩, by decide⟩
  · rcases List.mem_cons.1 h with rfl | h
    · exact ⟨.inr ⟨rfl, by decide, by decide⟩, by decide⟩
    · cases h

theorem witness_ReservedBitsAndPaddingAreIgnored :
    (0xBF : Byte).toNat % 64 = 63 ∧ parse [0x05, 0x00] .dl = .ok ⟨[⟨5, 2, []⟩], 2, false⟩ := by decide

theorem witness_ParsedListFitsThePdu : parse [0x05, 0x00, 0x3F] .dl = .ok ⟨[⟨5, 2, []⟩], 2, true⟩ := by decide

/-- The last byte of `BUF`; a region past it; and a report of no bytes. -/
theorem witness_ParseBsr :
    (1 ≤ ((withRegs rs [(0, 131071), (1, 1)]).reg 1).toNat
      ∧ ((withRegs rs [(0, 131071), (1, 1)]).reg 0).toNat + ((withRegs rs [(0, 131071), (1, 1)]).reg 1).toNat
          ≤ rs.params.bufBytes)
    ∧ rs.params.bufBytes < ((withRegs rs [(0, 131072), (1, 1)]).reg 0).toNat
        + ((withRegs rs [(0, 131072), (1, 1)]).reg 1).toNat
    ∧ ((rs.reg 0).toNat + (rs.reg 1).toNat ≤ rs.params.bufBytes ∧ (rs.reg 1).toNat = 0) := by decide

/-- The last device: its first process busy and its last one free; then all busy; then a device too far. -/
theorem witness_HqAllocFindsTheLeastFree :
    let s := rs.setHarq 4 .ul 0 busy
    (1 ≤ 4 ∧ 4 ≤ s.params.numDevices ∧ 1 < s.params.numHarq ∧ (s.harq 4 .ul 1).state = .free
      ∧ ∀ q, q < 1 → (s.harq 4 .ul q).state = .busy)
    ∧ (∀ q, q < s.params.numHarq → ((s.setHarq 4 .ul 1 busy).harq 4 .ul q).state = .busy)
    ∧ s.params.numDevices < 5 := by
  refine ⟨⟨by decide, by decide, by decide, by decide, by decide⟩, ?_, by decide⟩
  intro q h
  have h2 : q < 2 := h
  interval_cases q <;> decide

/-- The addressed record free, waiting, and busy without a context; a device of 0 and 5; a process of 2. -/
theorem witness_HqMarkMovesTheRecord :
    let s := withGrant rs 0x00030004 0 0 0
    let r := withGrant (rs.setHarq 4 .ul 1 waiting) 0x00230004 0 0 0
    (1 ≤ (s.grantReg 0).toNat % 65536 ∧ (s.grantReg 0).toNat % 65536 ≤ s.params.numDevices
      ∧ (s.grantReg 0).toNat / 2 ^ 17 % 16 < s.params.numHarq ∧ (s.grantReg 0).getLsbD 21 = false
      ∧ (s.harq 4 .ul 1).state = .free)
    ∧ ((r.grantReg 0).toNat % 65536 ≤ r.params.numDevices ∧ (r.grantReg 0).toNat / 2 ^ 17 % 16 < r.params.numHarq
      ∧ (r.grantReg 0).getLsbD 21 = true ∧ (r.harq 4 .ul 1).state = .busy ∧ (r.harq 4 .ul 1).hasCtx = true) := by
  decide

theorem witness_HqMarkMovesTheRecord_refused :
    let b := rs.setHarq 4 .ul 1 busy
    (b.harq 4 .ul 1).state = .busy ∧ ((withGrant b 0x00030004 0 0 0).grantReg 0).getLsbD 21 = false
    ∧ ((withGrant b 0x00230004 0 0 0).grantReg 0).getLsbD 21 = true
    ∧ ¬ ((b.harq 4 .ul 1).state = .busy ∧ (b.harq 4 .ul 1).hasCtx = true)
    ∧ ((withGrant rs 0 0 0 0).grantReg 0).toNat % 65536 = 0
    ∧ rs.params.numDevices < ((withGrant rs 5 0 0 0).grantReg 0).toNat % 65536
    ∧ (1 ≤ ((withGrant rs 0x00040001 0 0 0).grantReg 0).toNat % 65536
      ∧ rs.params.numHarq ≤ ((withGrant rs 0x00040001 0 0 0).grantReg 0).toNat / 2 ^ 17 % 16) := by decide

/-- The last device and process; busy at the last and at an earlier position; free; addresses too far. -/
theorem witness_HqResultMovesTheRecord :
    let s := rs.setHarq 4 .ul 1 lastPos
    let w := rs.setHarq 4 .ul 1 waiting
    (1 < 16 ∧ 1 ≤ 4 ∧ 4 ≤ s.params.numDevices ∧ 1 < s.params.numHarq)
    ∧ ((s.harq 4 .ul 1).state = .busy ∧ (s.harq 4 .ul 1).pos = s.params.rvLen - 1)
    ∧ ((w.harq 4 .ul 1).state = .busy ∧ (w.harq 4 .ul 1).pos ≠ w.params.rvLen - 1)
    ∧ (rs.harq 4 .ul 1).state = .free ∧ rs.params.numDevices < 5 ∧ rs.params.numHarq ≤ 2 := by decide

theorem witness_HqReadReportsTheRecord :
    (1 ≤ 4 ∧ 4 ≤ rs.params.numDevices ∧ 1 < rs.params.numHarq) ∧ rs.params.numDevices < 5
    ∧ rs.params.numHarq ≤ 2 := by decide

theorem witness_HqCtxReturnsTheContext :
    ((rs.setHarq 4 .ul 1 waiting).harq 4 .ul 1).hasCtx = true ∧ (rs.harq 4 .ul 1).hasCtx = false
    ∧ 4 ≤ rs.params.numDevices ∧ 1 < rs.params.numHarq ∧ rs.params.numDevices < 5 ∧ rs.params.numHarq ≤ 2 := by decide

theorem witness_GrantIsCarriedVerbatim :
    let s := withGrant rs 0xFF830004 0xFFFFFFFF 0xFFFFFFFF 0xFFFFFFFF
    1 ≤ (s.grantReg 0).toNat % 65536 ∧ (s.grantReg 0).toNat % 65536 ≤ s.params.numDevices
    ∧ (s.grantReg 0).toNat / 2 ^ 17 % 16 < s.params.numHarq ∧ (s.grantReg 0).getLsbD 21 = false
    ∧ (s.harq 4 .ul 1).state = .free ∧ 2 ≤ s.params.rvLen := by decide

/-- The reset records meet every invariant, whatever the parameters. -/
theorem reset_record_ok : HarqRecOk par HarqRec.reset := ⟨by decide, by decide, by decide, by decide, by decide⟩

theorem rs_harqOk : rs.HarqOk := fun _ _ _ => reset_record_ok

theorem reset_channel_ok : LcRecOk LcRec.reset := ⟨by decide, by decide⟩

theorem rs_lcOk : rs.LcOk := fun _ _ => reset_channel_ok

theorem witness_HarqInvariantIsKept : rs.HarqOk ∧ step (rs.withFetchWord 32 0) = .next rs.complete :=
  ⟨rs_harqOk, rfl⟩

/-- The whole sequence of VH2: a New mark and three retransmissions. -/
theorem witness_FullSequenceEndsFree :
    par.legal = true ∧ HarqRecOk par HarqRec.reset ∧ HarqRec.reset.state = .free
    ∧ (0x00030002 : GrantBits).getLsbD 21 = false
    ∧ (∀ g ∈ ([(0x00230002, 500), (0x00230002, 501), (0x00230002, 502)] : List (GrantBits × Word)),
        g.1.getLsbD 21 = true)
    ∧ markBusy HarqRec.reset 0x00030002 777 = .ok busy
    ∧ [(0x00230002, 500), (0x00230002, 501), (0x00230002, (502 : Nat))].length ≤ par.rvLen - 1 := by
  refine ⟨par_legal, reset_record_ok, rfl, by decide, ?_, by decide, by decide⟩
  intro g hg
  fin_cases hg <;> decide

/-- The last device and channel, every parameter at its upper bound; and each premise of a refusal. -/
theorem witness_LcRegRegistersOneChannel :
    let s := withRegs rs [(0, 0xFFFFFFFF), (1, 65535), (2, 16), (3, 7)]
    (32 < 64 ∧ (1 ≤ 4 ∧ 4 ≤ s.params.numDevices) ∧ (1 ≤ 32 ∧ 32 ≤ 32)
      ∧ (1 ≤ (s.reg 2).toNat ∧ (s.reg 2).toNat ≤ 16 ∧ (s.reg 3).toNat ≤ 7 ∧ (s.reg 1).toNat ≤ 65535)
      ∧ (s.chan 4 32).valid = false)
    ∧ ¬ (1 ≤ 5 ∧ 5 ≤ s.params.numDevices) ∧ ¬ (1 ≤ 33 ∧ 33 ≤ 32)
    ∧ ¬ (1 ≤ (rs.reg 2).toNat ∧ (rs.reg 2).toNat ≤ 16 ∧ (rs.reg 3).toNat ≤ 7 ∧ (rs.reg 1).toNat ≤ 65535)
    ∧ ((s.setChan 4 32 (ch 1 0 0 0 0 0)).chan 4 32).valid = true := by decide

theorem witness_LcBuf_LcRead :
    (1 ≤ 4 ∧ 4 ≤ rs.params.numDevices) ∧ (1 ≤ 32 ∧ 32 ≤ 32) ∧ ((rs.setChan 4 32 (ch 1 0 0 7 0 0)).chan 4 32).valid = true
    ∧ ¬ (1 ≤ 5 ∧ 5 ≤ rs.params.numDevices) ∧ ¬ (1 ≤ 33 ∧ 33 ≤ 32) ∧ (rs.chan 4 32).valid = false := by decide

theorem witness_LcTime_LcRun : (1 ≤ 4 ∧ 4 ≤ rs.params.numDevices) ∧ rs.params.numDevices < 5 := by decide

/-- The state of VL4 before its run: three channels of one priority. -/
def vl4 : State := withRegs
  (((rs.setChan 2 4 (ch 5 0 0 100 0 0)).setChan 2 7 (ch 5 0 0 100 0 0)).setChan 2 9 (ch 5 0 0 100 0 0)) [(0, 100)]

/-- A state whose listed channels are legal has every channel legal. -/
theorem lcOk_of_listed (s : State) (h : ∀ e ∈ s.lc, LcRecOk e.2) : s.LcOk := by
  intro dev c
  have key : ∀ l : List (Nat × LcRec), (∀ e ∈ l, LcRecOk e.2) → ∀ a, LcRecOk (tableGet LcRec.reset l a) := by
    intro l hl a
    induction l with
    | nil => exact reset_channel_ok
    | cons e l ih =>
      unfold tableGet
      split
      · exact hl _ (by simp)
      · exact ih (fun e h => hl e (by simp [h]))
  exact key _ h _

theorem vl4_lcOk : vl4.LcOk := by
  refine lcOk_of_listed _ ?_
  rw [show vl4.lc = [(132, ch 5 0 0 100 0 0), (135, ch 5 0 0 100 0 0), (137, ch 5 0 0 100 0 0)] by decide]
  simp [LcRecOk, ch]

/-- The run leaves bytes pending, so that fewer than 8 bytes of budget remain. -/
theorem witness_LcRunConservesTheBudget :
    1 ≤ 2 ∧ 2 ≤ vl4.params.numDevices ∧ (vl4.chan 2 9).valid = true ∧ ¬ (2 = 2 ∧ 1 ≤ 5 ∧ 5 ≤ 32 ∧ (vl4.chan 2 5).valid = true)
    ∧ (lcpRun (serviceOrder (registered vl4 2)) 100).1 ≠ [] ∧ vl4.LcOk
    ∧ ((after (.lcRun 2) vl4).reg 9).toNat < 8 ∧ ((after (.lcRun 2) vl4).chan 2 9).pending = 67 :=
  ⟨by decide, by decide, by decide, by decide, by decide, vl4_lcOk, by decide, by decide⟩

theorem witness_SmallBudgetOnlyFillsBuckets :
    1 ≤ 2 ∧ 2 ≤ vl4.params.numDevices ∧ ((withRegs vl4 [(0, 7)]).reg 0).toNat < 8 ∧ (vl4.chan 2 4).valid = true := by
  decide

/-- One channel, its bucket running into Round 1's threshold, and more budget than 8 bytes. -/
theorem witness_Round1GivesBucketShares :
    ([⟨1, 1, false, 0, 0, 0, 95, 10000, 0⟩, ⟨2, 2, false, 0, 0, 0, 95, 10000, 0⟩] : List LcpChan)[1]?
      = some ⟨2, 2, false, 0, 0, 0, 95, 10000, 0⟩ := by decide

/-- The state of VL2 before its run: one channel pending, its bucket below what it will use. -/
def vl2 : State := withRegs (rs.setChan 4 32 (ch 4 1000 100 5000 0 20)) [(0, 8)]

theorem witness_SingleActiveChannelSkipsItsBucket :
    1 ≤ 4 ∧ 4 ≤ vl2.params.numDevices ∧ 8 ≤ (vl2.reg 0).toNat ∧ (vl2.chan 4 32).valid = true
    ∧ (vl2.chan 4 32).pending ≠ 0 ∧ (∀ c', 1 ≤ c' → c' ≤ 32 → c' ≠ 32 → (vl2.chan 4 c').pending = 0) := by
  refine ⟨by decide, by decide, by decide, by decide, by decide, fun c' h1 h2 h3 => ?_⟩
  interval_cases c' <;> first | exact absurd rfl h3 | decide

theorem witness_SingleActiveChannelSkipsItsBucket_lcOk : vl2.LcOk := by
  refine lcOk_of_listed _ ?_
  rw [show vl2.lc = [(288, ch 4 1000 100 5000 0 20)] by decide]
  simp [LcRecOk, ch]

/-- Both sides of the Round 1 gate: three active channels, and one. -/
theorem witness_LcRunAppliesTheRun :
    (1 ≤ 2 ∧ 2 ≤ vl4.params.numDevices ∧ AtLeastTwoActive (serviceOrder (registered vl4 2)))
    ∧ (1 ≤ 4 ∧ 4 ≤ vl2.params.numDevices ∧ ¬ AtLeastTwoActive (serviceOrder (registered vl2 4)))
    ∧ rs.params.numDevices < 5 := by
  unfold AtLeastTwoActive; decide

/-- VL1: Round 1 uses 400 and 300 bytes of 1000 (the example of R207). -/
theorem test_round1Walk :
    Round1Walk 1000 [⟨1, 1, false, 8000, 100, 50, 500, 400, 0⟩, ⟨2, 2, false, 16000, 50, 50, 300, 800, 0⟩]
      [⟨1, 1, false, 8000, 100, 50, 100, 0, 400⟩, ⟨2, 2, false, 16000, 50, 50, 0, 500, 300⟩] 300 := by
  refine ⟨[400, 300], rfl, fun j c h => ?_, rfl, rfl⟩
  rcases j with _ | _ | j
  · obtain rfl := Option.some.inj h; rfl
  · obtain rfl := Option.some.inj h; rfl
  · simp at h

theorem witness_ChannelConfigurationIsImmutable :
    Instr.lcRun 4 ≠ .sreset ∧ (Instr.lcRun 4).wf = true ∧ 32 < 64 ∧ (vl2.chan 4 32).valid = true
    ∧ (∀ c, Instr.lcRun 4 ≠ .lcReg c 3 ∧ Instr.lcRun 4 ≠ .lcBuf c 3) ∧ Instr.lcRun 4 ≠ .lcTime 3
    ∧ Instr.lcRun 4 ≠ .lcRun 3 ∧ ∃ t, exec (.lcRun 4) vl2 = .next t :=
  ⟨by decide, by decide, by decide, by decide, fun _ => ⟨nofun, nofun⟩, nofun, by decide, _, rfl⟩

theorem witness_MemoriesStayCanonicalAndInRange :
    vl2.params.legal = true ∧ vl2.canonical = true ∧ vl2.inRange = true
    ∧ ∃ t, step (vl2.withFetchWord 32 0x33000004) = .next t := ⟨rs_legal, by decide, by decide, _, rfl⟩

theorem witness_StatusRegistersStayLegal :
    (rs.refuse .param).StatusOk ∧ ∃ t, step ((rs.refuse .param).withFetchWord 32 0) = .next t :=
  ⟨⟨by decide, by decide, by decide⟩, _, rfl⟩

theorem witness_ChannelRecordsStayLegal : rs.LcOk ∧ ∃ t, step (rs.withFetchWord 32 0x30200004) = .next t :=
  ⟨rs_lcOk, _, rfl⟩

end Sys2Proof.Tests
end

/-! ## What one step can do -/

namespace Sys2Proof.Machine

/-! ### The step, one equation for each kind of host action (R73) -/

theorem step_of_script_nil {s : State} (hs : s.script = []) : step s = .next s := by
  simp only [step, fetch, hs]

theorem step_of_read {s : State} {off : Word} {rest : List HostAction} (hs : s.script = .read off :: rest) :
    step s = .next { s with script := rest, rdata := windowRead s off } := by
  simp only [step, fetch, hs]

theorem step_of_hardReset {s : State} {rest : List HostAction} (hs : s.script = .hardReset :: rest) :
    step s = .next { s with script := rest }.resetAll := by
  simp only [step, fetch, hs]

theorem step_of_windowWrite {s : State} {off data : Word} {rest : List HostAction}
    (hs : s.script = .write off data :: rest) (hoff : windowLoc s.params off ≠ .cmd) :
    step s = .next (windowWrite { s with script := rest } off data) := by
  simp only [step, fetch, hs, if_neg hoff]

theorem step_of_command {s : State} {off cw : Word} {rest : List HostAction} {i : Instr}
    (hs : s.script = .write off cw :: rest) (hoff : windowLoc s.params off = .cmd) (hi : decode cw = .ok i) :
    step s = exec i { s with script := rest } := by
  simp only [step, fetch, hs, if_pos hoff, hi]

theorem step_of_illegalWord {s : State} {off cw : Word} {rest : List HostAction} {e : DecodeError}
    (hs : s.script = .write off cw :: rest) (hoff : windowLoc s.params off = .cmd) (he : decode cw = .error e) :
    step s = .next ({ s with script := rest }.refuse .illegal) := by
  simp only [step, fetch, hs, if_pos hoff, he]

/-- Everything a step can be: idle, a host read, the hardware reset, a host write to a location other than
`CMD`, a command, or the refusal of a word that is none (R73, R118). -/
theorem step_cases (s : State) :
    (s.script = [] ∧ step s = .next s)
    ∨ (∃ off rest, s.script = .read off :: rest
        ∧ step s = .next { s with script := rest, rdata := windowRead s off })
    ∨ (∃ rest, s.script = .hardReset :: rest ∧ step s = .next { s with script := rest }.resetAll)
    ∨ (∃ off data rest, s.script = .write off data :: rest ∧ windowLoc s.params off ≠ .cmd
        ∧ step s = .next (windowWrite { s with script := rest } off data))
    ∨ (∃ off cw rest i, s.script = .write off cw :: rest ∧ windowLoc s.params off = .cmd ∧ decode cw = .ok i
        ∧ step s = exec i { s with script := rest })
    ∨ (∃ off cw rest e, s.script = .write off cw :: rest ∧ windowLoc s.params off = .cmd ∧ decode cw = .error e
        ∧ step s = .next ({ s with script := rest }.refuse .illegal)) := by
  match hs : s.script with
  | [] => exact .inl ⟨rfl, step_of_script_nil hs⟩
  | .read off :: rest => exact .inr (.inl ⟨off, rest, rfl, step_of_read hs⟩)
  | .hardReset :: rest => exact .inr (.inr (.inl ⟨rest, rfl, step_of_hardReset hs⟩))
  | .write off data :: rest =>
    by_cases hoff : windowLoc s.params off = .cmd
    · cases hd : decode data with
      | ok i =>
        exact .inr (.inr (.inr (.inr (.inl ⟨off, data, rest, i, rfl, hoff, hd, step_of_command hs hoff hd⟩))))
      | error e =>
        exact .inr (.inr (.inr (.inr (.inr ⟨off, data, rest, e, rfl, hoff, hd, step_of_illegalWord hs hoff hd⟩))))
    · exact .inr (.inr (.inr (.inl ⟨off, data, rest, rfl, hoff, step_of_windowWrite hs hoff⟩)))

/-- SRESET is the one command that does not settle an effect (R241). -/
theorem exec_sreset (s : State) : exec .sreset s = .next s.resetAll := rfl

/-- Every command ends in a next state: a refusal of the block is one too (R252, R265). -/
theorem exec_next (i : Instr) (s : State) : ∃ t, exec i s = .next t := by
  by_cases hi : i = .sreset
  · exact ⟨s.resetAll, hi ▸ exec_sreset s⟩
  · exact ⟨_, exec_eq_settle i s hi⟩

theorem step_next (s : State) : ∃ t, step s = .next t := by
  obtain ⟨-, h⟩ | ⟨_, _, -, h⟩ | ⟨_, -, h⟩ | ⟨_, _, _, -, -, h⟩ | ⟨_, _, rest, i, -, -, -, h⟩
    | ⟨_, _, _, _, -, -, -, h⟩ := step_cases s
  · exact ⟨_, h⟩
  · exact ⟨_, h⟩
  · exact ⟨_, h⟩
  · exact ⟨_, h⟩
  · obtain ⟨t, ht⟩ := exec_next i { s with script := rest }
    exact ⟨t, h.trans ht⟩
  · exact ⟨_, h⟩

/-- Settles O7: a step is one of six kinds, five of which name their next state; the sixth is a command,
which ends in a next state by `exec_next`. -/
theorem everyStepGoesOn : Obligations.EveryStepGoesOn :=
  ⟨step_next, fun _ hs => step_of_script_nil hs⟩

/-! ### The parameters (R6, R291) -/

theorem windowWrite_params (s : State) (off data : Word) : (windowWrite s off data).params = s.params := by
  unfold windowWrite
  cases windowLoc s.params off <;> rfl

theorem lcTimeOver_params (dev dt : Nat) (l : List Nat) (s : State) :
    (lcTimeOver dev dt l s).params = s.params := by
  rw [lcTimeOver_eq]

theorem writeBack_params (dev : Nat) (l : List LcpChan) (s : State) : (writeBack dev l s).params = s.params := by
  rw [writeBack_eq]

/-- An accepted effect is built from updates of registers, memories and tables, none of which touches the
parameters. -/
theorem effectOf_params {i : Instr} {s t : State} (h : effectOf i s = .ok t) : t.params = s.params := by
  cases i with
  | nop | sreset => exact congrArg State.params (Except.ok.inj h).symm
  | encSub dir lcid => obtain ⟨out, -, -, -, -, -, rfl⟩ := encSub_ok h; simp
  | encPad => obtain ⟨out, -, -, rfl⟩ := encPad_ok h; simp
  | mux dir => obtain ⟨-, -, -, -, rfl⟩ := muxCmd_ok h; simp
  | parse dir => obtain ⟨r, -, -, rfl⟩ := parseCmd_ok h; simp
  | parseBsr variant => obtain ⟨r, -, -, rfl⟩ := parseBsrCmd_ok h; simp
  | hqAlloc dir dev => obtain ⟨-, ⟨-, rfl⟩ | ⟨proc, -, rfl⟩⟩ := hqAlloc_ok h <;> simp
  | hqMark => obtain ⟨r, -, -, rfl⟩ := hqMark_ok h; simp
  | hqResult dir succ proc dev => obtain ⟨r, outcome, -, -, rfl⟩ := hqResult_ok h; simp
  | hqRead dir proc dev => obtain ⟨-, rfl⟩ := hqRead_ok h; simp
  | hqCtx dir proc dev => obtain ⟨-, -, rfl⟩ := hqCtx_ok h; simp
  | lcReg ch dev => obtain ⟨-, -, -, rfl⟩ := lcReg_ok h; simp
  | lcBuf ch dev => obtain ⟨-, rfl⟩ := lcBuf_ok h; simp
  | lcTime dev => obtain ⟨-, l, -, rfl⟩ := lcTime_ok h; exact lcTimeOver_params _ _ _ _
  | lcRun dev => obtain ⟨-, run, -, rfl⟩ := lcRun_ok h; simp [writeBack_params]
  | lcRead ch dev => obtain ⟨-, rfl⟩ := lcRead_ok h; simp

theorem exec_params {i : Instr} {s t : State} (h : exec i s = .next t) : t.params = s.params := by
  by_cases hi : i = .sreset
  · subst hi
    obtain rfl := Host.Outcome.next.inj h
    exact s.resetAll_params
  · obtain ⟨u, hu, rfl⟩ | ⟨e, -, rfl⟩ := exec_cases hi h
    · exact u.complete_params.trans (effectOf_params hu)
    · exact s.refuse_params e

theorem step_params {s t : State} (h : step s = .next t) : t.params = s.params := by
  obtain ⟨-, hs⟩ | ⟨_, _, -, hs⟩ | ⟨_, -, hs⟩ | ⟨_, _, _, -, -, hs⟩ | ⟨_, _, _, _, -, -, -, hs⟩
    | ⟨_, _, _, _, -, -, -, hs⟩ := step_cases s <;> rw [hs] at h
  · obtain rfl := Host.Outcome.next.inj h; rfl
  · obtain rfl := Host.Outcome.next.inj h; rfl
  · obtain rfl := Host.Outcome.next.inj h; exact State.resetAll_params _
  · obtain rfl := Host.Outcome.next.inj h; exact windowWrite_params _ _ _
  · exact (exec_params h :)
  · obtain rfl := Host.Outcome.next.inj h; exact State.refuse_params _ _

/-- Settles O19, by the cases of a step; a command keeps the parameters because its accepted effect does
(`effectOf_params`), and so do its end, its refusal and SRESET. -/
theorem parametersNeverChange : Obligations.ParametersNeverChange :=
  ⟨fun _ _ => step_params, fun _ _ _ => exec_params⟩

/-! ### The state after a reset -/

/-- A reset record is legal at any length of the redundancy-version sequence (R37, R43). -/
theorem harqRecOk_reset (p : Params) : HarqRecOk p HarqRec.reset :=
  ⟨nofun, Nat.zero_le _, nofun, fun _ => rfl, nofun⟩

theorem lcRecOk_reset : LcRecOk LcRec.reset := ⟨nofun, fun _ => rfl⟩

theorem State.resetAll_canonical (s : State) : s.resetAll.canonical = true := rfl

theorem State.resetAll_inRange (s : State) : s.resetAll.inRange = true := rfl

theorem State.resetAll_harqOk (s : State) : s.resetAll.HarqOk := fun _ _ _ => harqRecOk_reset s.params

theorem State.resetAll_lcOk (s : State) : s.resetAll.LcOk := fun _ _ => lcRecOk_reset

theorem State.resetAll_statusOk (s : State) : s.resetAll.StatusOk := by
  refine ⟨?_, ?_, fun h => absurd rfl h⟩ <;> simp

/-- The state after power-up is what a reset makes of it (R43, R290). -/
theorem reset_resetAll : State.reset.resetAll = State.reset := rfl

end Sys2Proof.Machine

/-! ## The parameters of this hardware are legal (R6) -/

namespace Sys2Proof

theorem nonDecreasing_iff_isChain (l : List Word) :
    nonDecreasing l = true ↔ l.IsChain (fun a b => a.toNat ≤ b.toNat) := by
  induction l using nonDecreasing.induct with
  | case1 => simp [nonDecreasing]
  | case2 a => simp [nonDecreasing]
  | case3 a b rest ih => simp [nonDecreasing, ih]

theorem runningMax_le_succ (raw : Nat → Word) (i : Nat) :
    (runningMax raw i).toNat ≤ (runningMax raw (i + 1)).toNat := by
  rw [runningMax]
  split
  · assumption
  · exact Nat.le_refl _

/-- The running maximum of any table is a table that R6 allows. -/
theorem nonDecreasing_runningMax (raw : Nat → Word) (n : Nat) :
    nonDecreasing ((List.range n).map (runningMax raw)) = true := by
  rw [nonDecreasing_iff_isChain, List.isChain_map, List.isChain_range]
  exact fun i _ => runningMax_le_succ raw i

theorem nonDecreasing_bsr5Default : nonDecreasing bsr5Default = true := by decide

theorem one_le_of_zero_replaced (w : Word) : 1 ≤ (if w = 0 then 1 else w).toNat := by
  split
  · decide
  · bv_omega

/-- The legal values of R6, as one flat list. -/
theorem Params.legal_iff (p : Params) :
    p.legal = true ↔
      (1 ≤ p.numDevices ∧ p.numDevices ≤ 65535) ∧ (1 ≤ p.numHarq ∧ p.numHarq ≤ 16)
      ∧ (1 ≤ p.rvLen ∧ p.rvLen ≤ 4) ∧ (1 ≤ p.numRbgs ∧ p.numRbgs ≤ 32) ∧ (12 ≤ p.log2Buf ∧ p.log2Buf ≤ 24)
      ∧ p.bsr5.length = 32 ∧ nonDecreasing p.bsr5 = true ∧ p.bsr8.length = 256 ∧ nonDecreasing p.bsr8 = true
      ∧ 1 ≤ p.bsrFallback.toNat := by
  simp only [Params.legal, Bool.and_eq_true, decide_eq_true_eq, and_assoc]

theorem hardware_rvLen : Config.hardware.rvLen = Config.rvLenLessOne.val + 1 := by
  simp [Params.rvLen, Config.hardware]

/-- An opaque member of `Fin n`, plus one, lies in `1..n`, and so does each count of R6. -/
theorem hardware_legal : Config.hardware.legal = true := by
  have hrv : 1 ≤ Config.hardware.rvLen ∧ Config.hardware.rvLen ≤ 4 := by
    rw [hardware_rvLen]
    exact ⟨Nat.succ_pos _, Config.rvLenLessOne.isLt⟩
  exact (Params.legal_iff _).2
    ⟨⟨Nat.succ_pos _, Config.numDevicesLessOne.isLt⟩, ⟨Nat.succ_pos _, Config.numHarqLessOne.isLt⟩, hrv,
      ⟨Nat.succ_pos _, Config.numRbgsLessOne.isLt⟩, ⟨by decide, by decide⟩, rfl, nonDecreasing_bsr5Default,
      by simp [Config.hardware], nonDecreasing_runningMax _ _, one_le_of_zero_replaced _⟩

end Sys2Proof

namespace Sys2Proof.Machine

/-- Settles O59: the state after reset is what a reset makes of it, a reset meets every invariant whatever
the parameters, and each opaque constant takes legal values only. -/
theorem invariantsHoldAtReset : Obligations.InvariantsHoldAtReset := by
  rw [Obligations.InvariantsHoldAtReset, ← reset_resetAll]
  exact ⟨State.resetAll_canonical _, State.resetAll_inRange _, State.resetAll_harqOk _, State.resetAll_lcOk _,
    State.resetAll_statusOk _, hardware_legal⟩

end Sys2Proof.Machine

/-! ## What a command leaves alone -/

namespace Sys2Proof.Machine

/-! ### The tables a command writes (R33, R34, R35, R140, R170, R200) -/

/-- Between `s` and `t` only memories that a command of opcode `o` is named to write have changed. -/
structure WritesOnlyItsOwn (o : Opcode) (s t : State) : Prop where
  buf : o ∉ [.encSub, .encPad, .mux] → t.buf = s.buf
  desc : o ∉ [.parse, .parseBsr, .lcRun] → t.desc = s.desc
  g : o ≠ .hqCtx → t.g = s.g
  hq : o ∉ [.hqMark, .hqResult] → t.hq = s.hq
  lc : o ∉ [.lcReg, .lcBuf, .lcTime, .lcRun] → t.lc = s.lc

theorem WritesOnlyItsOwn.of_same {o : Opcode} {s t : State}
    (h : t.buf = s.buf ∧ t.desc = s.desc ∧ t.g = s.g ∧ t.hq = s.hq ∧ t.lc = s.lc) : WritesOnlyItsOwn o s t :=
  let ⟨hbuf, hdesc, hg, hhq, hlc⟩ := h
  ⟨fun _ => hbuf, fun _ => hdesc, fun _ => hg, fun _ => hhq, fun _ => hlc⟩

/-- An accepted effect is one or two updates of the command's own memories, and of registers. -/
theorem effectOf_writesOnlyItsOwn {i : Instr} {s t : State} (h : effectOf i s = .ok t) :
    WritesOnlyItsOwn (opcodeOf i) s t := by
  cases i with
  | nop | sreset => obtain rfl := Except.ok.inj h; exact .of_same ⟨rfl, rfl, rfl, rfl, rfl⟩
  | encSub dir lcid => obtain ⟨out, -, -, -, -, -, rfl⟩ := encSub_ok h; constructor <;> simp [opcodeOf]
  | encPad => obtain ⟨out, -, -, rfl⟩ := encPad_ok h; constructor <;> simp [opcodeOf]
  | mux dir => obtain ⟨-, -, -, -, rfl⟩ := muxCmd_ok h; constructor <;> simp [opcodeOf]
  | parse dir => obtain ⟨r, -, -, rfl⟩ := parseCmd_ok h; constructor <;> simp [opcodeOf]
  | parseBsr variant => obtain ⟨r, -, -, rfl⟩ := parseBsrCmd_ok h; constructor <;> simp [opcodeOf]
  | hqAlloc dir dev =>
    obtain ⟨-, ⟨-, rfl⟩ | ⟨proc, -, rfl⟩⟩ := hqAlloc_ok h <;> exact .of_same ⟨rfl, rfl, rfl, rfl, rfl⟩
  | hqMark => obtain ⟨r, -, -, rfl⟩ := hqMark_ok h; constructor <;> simp [opcodeOf]
  | hqResult dir succ proc dev => obtain ⟨r, outcome, -, -, rfl⟩ := hqResult_ok h; constructor <;> simp [opcodeOf]
  | hqRead dir proc dev => obtain ⟨-, rfl⟩ := hqRead_ok h; exact .of_same ⟨rfl, rfl, rfl, rfl, rfl⟩
  | hqCtx dir proc dev => obtain ⟨-, -, rfl⟩ := hqCtx_ok h; constructor <;> simp [opcodeOf]
  | lcReg ch dev => obtain ⟨-, -, -, rfl⟩ := lcReg_ok h; constructor <;> simp [opcodeOf]
  | lcBuf ch dev => obtain ⟨-, rfl⟩ := lcBuf_ok h; constructor <;> simp [opcodeOf]
  | lcTime dev =>
    obtain ⟨-, l, -, rfl⟩ := lcTime_ok h
    rw [lcTimeOver_eq]; constructor <;> simp [opcodeOf]
  | lcRun dev =>
    obtain ⟨-, run, -, rfl⟩ := lcRun_ok h
    rw [writeBack_eq]; constructor <;> simp [opcodeOf]
  | lcRead ch dev => obtain ⟨-, rfl⟩ := lcRead_ok h; exact .of_same ⟨rfl, rfl, rfl, rfl, rfl⟩

/-- The end of a command writes no memory, and neither does a refusal. -/
theorem exec_writesOnlyItsOwn {i : Instr} {s t : State} (hi : i ≠ .sreset) (h : exec i s = .next t) :
    WritesOnlyItsOwn (opcodeOf i) s t := by
  obtain ⟨u, hu, rfl⟩ | ⟨e, -, rfl⟩ := exec_cases hi h
  · obtain ⟨hbuf, hdesc, hg, hhq, hlc⟩ := effectOf_writesOnlyItsOwn hu
    exact ⟨hbuf, hdesc, hg, hhq, hlc⟩
  · exact .of_same ⟨rfl, rfl, rfl, rfl, rfl⟩

/-- Settles O18: a refusal writes no memory, and an accepted effect only those of its own command, which
`effectOf_writesOnlyItsOwn` shows command by command. -/
theorem memoriesHaveTheirNamedWriters : Obligations.MemoriesHaveTheirNamedWriters := fun _ _ _ hi h =>
  let ⟨hbuf, hdesc, hg, hhq, hlc⟩ := exec_writesOnlyItsOwn hi h
  ⟨hbuf, hdesc, hg, hhq, hlc⟩

/-! ### The registers a command writes (R23) -/

/-- The result registers start at `x[8]`. -/
theorem effectOf_reg {i : Instr} {s t : State} (h : effectOf i s = .ok t) {j : Fin 16} (hj : j.val < 8) :
    t.reg j = s.reg j := by
  have hne : ∀ k : Fin 16, 8 ≤ k.val → j ≠ k := fun k hk hjk => by omega
  have h8 : j ≠ 8 ∧ j ≠ 9 ∧ j ≠ 10 ∧ j ≠ 11 ∧ j ≠ 12 ∧ j ≠ 13 ∧ j ≠ 14 := by
    refine ⟨hne _ ?_, hne _ ?_, hne _ ?_, hne _ ?_, hne _ ?_, hne _ ?_, hne _ ?_⟩ <;> decide
  cases i with
  | nop | sreset => exact congrArg (State.reg · j) (Except.ok.inj h).symm
  | encSub dir lcid => obtain ⟨out, -, -, -, -, -, rfl⟩ := encSub_ok h; simp [h8]
  | encPad => obtain ⟨out, -, -, rfl⟩ := encPad_ok h; simp [h8]
  | mux dir => obtain ⟨-, -, -, -, rfl⟩ := muxCmd_ok h; simp [h8]
  | parse dir => obtain ⟨r, -, -, rfl⟩ := parseCmd_ok h; simp [h8]
  | parseBsr variant => obtain ⟨r, -, -, rfl⟩ := parseBsrCmd_ok h; simp [h8]
  | hqAlloc dir dev => obtain ⟨-, ⟨-, rfl⟩ | ⟨proc, -, rfl⟩⟩ := hqAlloc_ok h <;> simp [h8]
  | hqMark => obtain ⟨r, -, -, rfl⟩ := hqMark_ok h; simp [h8]
  | hqResult dir succ proc dev => obtain ⟨r, outcome, -, -, rfl⟩ := hqResult_ok h; simp [h8]
  | hqRead dir proc dev => obtain ⟨-, rfl⟩ := hqRead_ok h; simp [h8]
  | hqCtx dir proc dev => obtain ⟨-, -, rfl⟩ := hqCtx_ok h; simp [h8]
  | lcReg ch dev => obtain ⟨-, -, -, rfl⟩ := lcReg_ok h; simp
  | lcBuf ch dev => obtain ⟨-, rfl⟩ := lcBuf_ok h; simp
  | lcTime dev => obtain ⟨-, l, -, rfl⟩ := lcTime_ok h; rw [lcTimeOver_eq]; rfl
  | lcRun dev => obtain ⟨-, run, -, rfl⟩ := lcRun_ok h; rw [writeBack_eq]; simp [h8]; rfl
  | lcRead ch dev => obtain ⟨-, rfl⟩ := lcRead_ok h; simp [h8]

/-- Settles O17: an effect writes from `x[8]` on, and the end of any command `x[15]` besides; a non-zero
status is that of a refusal, which writes nothing but `x[15]`. -/
theorem argumentRegistersAreNeverWritten : Obligations.ArgumentRegistersAreNeverWritten := by
  intro i s t hi h
  have hne : ∀ j : Fin 16, j.val < 15 → j ≠ 15 := fun j hj hj15 => by rw [hj15] at hj; omega
  obtain ⟨u, hu, rfl⟩ | ⟨e, -, rfl⟩ := exec_cases hi h
  · refine ⟨fun j hj => ?_, fun hstatus => absurd rfl hstatus⟩
    rw [State.reg_complete, if_neg (hne j (by omega)), effectOf_reg hu hj]
  · have hkept : ∀ j : Fin 16, j.val < 15 → (s.refuse e).reg j = s.reg j := fun j hj => by
      rw [State.reg_refuse, if_neg (hne j hj)]
    exact ⟨fun j hj => hkept j (by omega), fun _ => hkept⟩

/-! ### What no command reads (R25, R35, R253) -/

/-- The state with other contents in `STATUS`, `FAULT` and `DESC`. -/
def State.masked (s : State) (status fault : Word) (desc : List (Nat × Desc)) : State :=
  { s with status := status, fault := fault, desc := desc }

theorem State.masked_self (s : State) : s.masked s.status s.fault s.desc = s := rfl

theorem lcTimeOver_masked (dev dt : Nat) (l : List Nat) (s : State) (st f : Word) (ds : List (Nat × Desc)) :
    lcTimeOver dev dt l (s.masked st f ds) = (lcTimeOver dev dt l s).masked st f ds := by
  induction l generalizing s with
  | nil => rfl
  | cons ch l ih =>
    have hchan : (s.masked st f ds).chan dev ch = s.chan dev ch := rfl
    simp only [lcTimeOver, hchan]
    split
    · exact ih (s.setChan dev ch _)
    · exact ih s

theorem writeBack_masked (dev : Nat) (l : List LcpChan) (s : State) (st f : Word) (ds : List (Nat × Desc)) :
    writeBack dev l (s.masked st f ds) = (writeBack dev l s).masked st f ds := by
  induction l generalizing s with
  | nil => rfl
  | cons c l ih => exact ih (s.setChan dev c.id _)

section
variable (s : State) (st f : Word) (ds : List (Nat × Desc))

@[simp] theorem State.params_masked : (s.masked st f ds).params = s.params := rfl
@[simp] theorem State.reg_masked (j : Fin 16) : (s.masked st f ds).reg j = s.reg j := rfl
@[simp] theorem State.argN_masked (j : Fin 16) : (s.masked st f ds).argN j = s.argN j := rfl
@[simp] theorem State.fits_masked (off n : Nat) : (s.masked st f ds).fits off n = s.fits off n := rfl
@[simp] theorem State.readBytes_masked (off n : Nat) : (s.masked st f ds).readBytes off n = s.readBytes off n := rfl
@[simp] theorem State.harq_masked (d : Nat) (di : Dir) (q : Nat) : (s.masked st f ds).harq d di q = s.harq d di q := rfl
@[simp] theorem State.chan_masked (d c : Nat) : (s.masked st f ds).chan d c = s.chan d c := rfl
@[simp] theorem grantOf_masked : grantOf (s.masked st f ds) = grantOf s := rfl
@[simp] theorem allocateFreeProcess_masked (dev : Nat) (dir : Dir) :
    allocateFreeProcess (s.masked st f ds) dev dir = allocateFreeProcess s dev dir := rfl
@[simp] theorem checkReg_masked (dev ch : Nat) : checkReg (s.masked st f ds) dev ch = checkReg s dev ch := rfl
@[simp] theorem registered_masked (dev : Nat) : registered (s.masked st f ds) dev = registered s dev := rfl

end

/-- A check in front of an effect stays in front of the effect's image; the two checks may be decided in
different ways. -/
theorem check_eq_map {α β : Type} {c : Prop} {d d' : Decidable c} {e : ErrCode} {r : Except ErrCode α}
    {r' : Except ErrCode β} {m : α → β} (h : r' = r.map m) :
    @ite _ c d (.error e) r' = (@ite _ c d' (.error e) r).map m := by
  by_cases hc : c
  · rw [if_pos hc, if_pos hc]; rfl
  · rw [if_neg hc, if_neg hc]; exact h

/-- No effect reads `STATUS`, `FAULT` or `DESC`: with other contents there it makes the same checks and the
same writes, and what it writes to `DESC` is a list `l` that does not depend on them. -/
theorem effectOf_masked (i : Instr) (s : State) :
    ∃ l : List Desc, ∀ st f ds,
      effectOf i (s.masked st f ds) = (effectOf i s).map (·.masked st f (descWrite ds 0 l)) := by
  cases i with
  | nop | sreset => exact ⟨[], fun _ _ _ => rfl⟩
  | encSub dir lcid =>
    refine ⟨[], fun st f ds => ?_⟩
    simp only [effectOf, encSub, State.argN_masked, State.fits_masked, State.readBytes_masked]
    refine check_eq_map (check_eq_map (check_eq_map (check_eq_map ?_)))
    split <;> rfl
  | encPad =>
    refine ⟨[], fun st f ds => ?_⟩
    simp only [effectOf, encPad, State.argN_masked, State.fits_masked]
    split
    · rfl
    · exact check_eq_map rfl
  | mux dir =>
    refine ⟨[], fun st f ds => ?_⟩
    simp only [effectOf, muxCmd, State.argN_masked, State.fits_masked, State.readBytes_masked]
    exact check_eq_map (check_eq_map (check_eq_map (check_eq_map rfl)))
  | parse dir =>
    simp only [effectOf, parseCmd, State.argN_masked, State.fits_masked, State.readBytes_masked]
    cases parse (s.readBytes (s.argN 0) (s.argN 1)) dir with
    | error e => exact ⟨[], fun _ _ _ => check_eq_map rfl⟩
    | ok r => exact ⟨r.items.map (subPduDesc (s.argN 0)), fun _ _ _ => check_eq_map rfl⟩
  | parseBsr variant =>
    simp only [effectOf, parseBsrCmd, State.params_masked, State.argN_masked, State.fits_masked,
      State.readBytes_masked]
    cases parseBufferStatusReport s.params variant (s.readBytes (s.argN 0) (s.argN 1)) with
    | error e => exact ⟨[], fun _ _ _ => check_eq_map rfl⟩
    | ok r => exact ⟨r.map bsrDesc, fun _ _ _ => check_eq_map rfl⟩
  | hqAlloc dir dev =>
    refine ⟨[], fun st f ds => ?_⟩
    simp only [effectOf, hqAlloc, State.params_masked, allocateFreeProcess_masked]
    refine check_eq_map ?_
    split <;> rfl
  | hqMark =>
    refine ⟨[], fun st f ds => ?_⟩
    simp only [effectOf, hqMark, State.params_masked, State.harq_masked, State.reg_masked, grantOf_masked]
    split
    · rfl
    · split <;> rfl
  | hqResult dir succ proc dev =>
    refine ⟨[], fun st f ds => ?_⟩
    simp only [effectOf, hqResult, State.params_masked, State.harq_masked]
    split
    · rfl
    · split <;> rfl
  | hqRead dir proc dev =>
    refine ⟨[], fun st f ds => ?_⟩
    simp only [effectOf, hqRead, State.params_masked, State.harq_masked]
    split <;> rfl
  | hqCtx dir proc dev =>
    refine ⟨[], fun st f ds => ?_⟩
    simp only [effectOf, hqCtx, State.params_masked, State.harq_masked]
    split
    · rfl
    · exact check_eq_map rfl
  | lcReg ch dev =>
    refine ⟨[], fun st f ds => ?_⟩
    simp only [effectOf, lcReg, State.params_masked, State.argN_masked, State.reg_masked, State.chan_masked]
    split
    · rfl
    · exact check_eq_map (check_eq_map rfl)
  | lcBuf ch dev =>
    refine ⟨[], fun st f ds => ?_⟩
    simp only [effectOf, lcBuf, checkReg_masked, State.reg_masked, State.chan_masked]
    split <;> rfl
  | lcTime dev =>
    refine ⟨[], fun st f ds => ?_⟩
    simp only [effectOf, lcTime, State.params_masked, State.argN_masked, lcTimeOver_masked]
    exact check_eq_map rfl
  | lcRun dev =>
    simp only [effectOf, lcRun, State.params_masked, State.argN_masked, registered_masked, writeBack_masked]
    generalize lcpRun (serviceOrder (registered s dev)) (s.argN 0) = run
    exact ⟨lcpOutput run.1, fun _ _ _ => check_eq_map rfl⟩
  | lcRead ch dev =>
    refine ⟨[], fun st f ds => ?_⟩
    simp only [effectOf, lcRead, checkReg_masked, State.chan_masked]
    split <;> rfl

/-- An accepted effect leaves `STATUS` and `FAULT` to the end of the command (R251): what it makes of any other
contents of them is those contents. -/
theorem effectOf_marks {i : Instr} {s t : State} (h : effectOf i s = .ok t) :
    t.status = s.status ∧ t.fault = s.fault := by
  obtain ⟨l, hl⟩ := effectOf_masked i s
  have hself := hl s.status s.fault s.desc
  rw [State.masked_self, h] at hself
  have ht : t = t.masked s.status s.fault (descWrite s.desc 0 l) := Except.ok.inj hself
  rw [ht]
  exact ⟨rfl, rfl⟩

/-- A command ends the same whatever `STATUS` and `DESC` held, but for what of the old `DESC` its list leaves. -/
theorem exec_masked {i : Instr} (hi : i ≠ .sreset) (s : State) :
    ∃ t, exec i s = .next t
      ∧ ∀ st ds, ∃ ds', exec i (s.masked st s.fault ds) = .next { t with desc := ds' }
        ∧ (ds = s.desc → ds' = t.desc) := by
  obtain ⟨l, hl⟩ := effectOf_masked i s
  have hself := hl s.status s.fault s.desc
  simp only [exec_eq_settle i _ hi, hl]
  cases heff : effectOf i s with
  | error e => exact ⟨_, rfl, fun st ds => ⟨ds, rfl, id⟩⟩
  | ok t =>
    rw [State.masked_self, heff] at hself
    have ht : t = t.masked s.status s.fault (descWrite s.desc 0 l) := Except.ok.inj hself
    refine ⟨_, rfl, fun st ds => ⟨descWrite ds 0 l, ?_, ?_⟩⟩
    · rw [ht]; rfl
    · rintro rfl
      rw [ht]; rfl

/-- Settles O16: the masked `STATUS` is overwritten at the end of the command, and the masked `DESC` is only
written (`effectOf_masked`); SRESET sets both. -/
theorem noCommandReadsStatusOrDesc : Obligations.NoCommandReadsStatusOrDesc := by
  intro i s v ds
  by_cases hi : i = .sreset
  · subst hi
    exact ⟨rfl, _, _, rfl, rfl, rfl⟩
  · obtain ⟨t, ht, hmasked⟩ := exec_masked hi s
    obtain ⟨dsv, hv, hdsv⟩ := hmasked v s.desc
    obtain ⟨ds', hds, -⟩ := hmasked s.status ds
    refine ⟨?_, t, _, ht, hds, rfl⟩
    rw [hdsv rfl] at hv
    exact hv.trans ht.symm

/-! ## What every step keeps -/

/-- A property is kept by every step if the host's reads and writes, a reset, an accepted effect with its end,
and a refusal keep it. -/
theorem step_keeps (P : State → Prop) (hscript : ∀ s rest v, P s → P { s with script := rest, rdata := v })
    (hwrite : ∀ s off data, P s → P (windowWrite s off data)) (hreset : ∀ s, P s → P s.resetAll)
    (heffect : ∀ i s t, P s → effectOf i s = .ok t → P t.complete) (hrefuse : ∀ s e, P s → P (s.refuse e))
    {s t : State} (hs : P s) (h : step s = .next t) : P t := by
  have hrest : ∀ rest, P { s with script := rest } := fun rest => hscript s rest s.rdata hs
  obtain ⟨-, hstep⟩ | ⟨off, rest, -, hstep⟩ | ⟨rest, -, hstep⟩ | ⟨off, data, rest, -, -, hstep⟩
    | ⟨off, cw, rest, i, -, -, -, hstep⟩ | ⟨off, cw, rest, e, -, -, -, hstep⟩ := step_cases s <;> rw [hstep] at h
  · obtain rfl := Host.Outcome.next.inj h; exact hs
  · obtain rfl := Host.Outcome.next.inj h; exact hscript s rest _ hs
  · obtain rfl := Host.Outcome.next.inj h; exact hreset _ (hrest rest)
  · obtain rfl := Host.Outcome.next.inj h; exact hwrite _ off data (hrest rest)
  · by_cases hi : i = .sreset
    · subst hi
      obtain rfl := Host.Outcome.next.inj h
      exact hreset _ (hrest rest)
    · obtain ⟨u, hu, rfl⟩ | ⟨e, -, rfl⟩ := exec_cases hi h
      · exact heffect i _ u (hrest rest) hu
      · exact hrefuse _ e (hrest rest)
  · obtain rfl := Host.Outcome.next.inj h; exact hrefuse _ _ (hrest rest)

@[simp] theorem windowWrite_hq (s : State) (off data : Word) : (windowWrite s off data).hq = s.hq := by
  unfold windowWrite
  cases windowLoc s.params off <;> rfl

@[simp] theorem windowWrite_lc (s : State) (off data : Word) : (windowWrite s off data).lc = s.lc := by
  unfold windowWrite
  cases windowLoc s.params off <;> rfl

theorem windowWrite_marks (s : State) (off data : Word) :
    (windowWrite s off data).status = s.status ∧ (windowWrite s off data).fault = s.fault := by
  unfold windowWrite
  cases windowLoc s.params off <;> exact ⟨rfl, rfl⟩

/-! ### STATUS and FAULT (R25, R30, R31) -/

theorem statusOk_congr {s t : State} (hstatus : t.status = s.status) (hfault : t.fault = s.fault) (h : s.StatusOk) :
    t.StatusOk := by
  unfold State.StatusOk
  rw [hstatus, hfault]
  exact h

/-- Success reports status 0 and keeps `FAULT` (R251). -/
theorem statusOk_complete {s : State} (h : s.StatusOk) : s.complete.StatusOk :=
  let ⟨_, hbits, _⟩ := h
  ⟨Nat.zero_le _, hbits, fun hstatus => absurd rfl hstatus⟩

/-- The bit of a status code is one of `FAULT[13:1]` (R31). -/
theorem faultBit_and (e : ErrCode) : word (2 ^ errCode e) &&& 0x3FFE = word (2 ^ errCode e) := by
  cases e <;> decide

theorem faultBit_getLsbD (e : ErrCode) : (word (2 ^ errCode e)).getLsbD (word (errCode e)).toNat = true := by
  cases e <;> decide

/-- A refusal sets the bit of the code it reports (R252, R253). -/
theorem statusOk_refuse {s : State} (e : ErrCode) (h : s.StatusOk) : (s.refuse e).StatusOk := by
  obtain ⟨-, hbits, -⟩ := h
  have hcode : (word (errCode e)).toNat ≤ 13 := (Nat.mod_le _ _).trans (errCode_range e).2
  refine ⟨hcode, ?_, fun _ => ?_⟩
  · rw [State.refuse_fault, faultSet, BitVec.and_comm, BitVec.and_or_distrib_left, BitVec.and_comm, hbits,
      BitVec.and_comm, faultBit_and]
  · rw [State.refuse_fault, faultSet, BitVec.getLsbD_or, State.refuse_status, statusWord, faultBit_getLsbD,
      Bool.or_true]

/-- Settles O57: only the end of a command and a reset write the two registers, and each leaves them legal. -/
theorem statusRegistersStayLegal : Obligations.StatusRegistersStayLegal := fun _ _ =>
  step_keeps State.StatusOk (fun _ _ _ h => h)
    (fun s off data => statusOk_congr (windowWrite_marks s off data).1 (windowWrite_marks s off data).2)
    (fun s _ => s.resetAll_statusOk)
    (fun _ _ _ h heff => statusOk_complete (statusOk_congr (effectOf_marks heff).1 (effectOf_marks heff).2 h))
    (fun _ e => statusOk_refuse e)

/-! ### The HARQ records (R37) -/

/-- Both marks keep I2 to I6: a New mark starts at position 0 without a context, since only a Busy process
holds one; a retransmission uses up the context, which I4 says stood before the last position. -/
theorem markBusy_recOk {p : Params} {r r' : HarqRec} {grant : GrantBits} {tbs : Word} (hr : HarqRecOk p r)
    (h : markBusy r grant tbs = .ok r') : HarqRecOk p r' := by
  obtain ⟨hbusy, -, hbefore, -, -⟩ := hr
  unfold markBusy at h
  split at h
  · split at h
    · rename_i hctx
      obtain rfl := Except.ok.inj h
      have hpos := hbefore hctx.2
      exact ⟨nofun, by show r.pos + 1 ≤ _; omega, nofun, fun hfree => by simp [hctx.1] at hfree, nofun⟩
    · cases h
  · split at h
    · rename_i hfree
      obtain rfl := Except.ok.inj h
      have hctx : r.hasCtx ≠ true := fun hc => by simp [hbusy hc] at hfree
      exact ⟨fun _ => rfl, Nat.zero_le _, fun hc => absurd hc hctx, nofun, fun hc => absurd hc hctx⟩
    · cases h

/-- A reception result frees the process, or stores the grant as the context of a process that is not at the
last position. -/
theorem onReceptionResult_recOk {p : Params} {r r' : HarqRec} {success : Bool} {outcome : Nat} (hr : HarqRecOk p r)
    (h : onReceptionResult p r success = .ok (r', outcome)) : HarqRecOk p r' := by
  obtain ⟨-, hpos, -, -, -⟩ := hr
  have hfreed : HarqRecOk p { r with state := .free, hasCtx := false, pos := 0 } :=
    ⟨nofun, Nat.zero_le _, nofun, fun _ => rfl, nofun⟩
  unfold onReceptionResult at h
  split at h
  · rename_i hbusy
    split at h
    · obtain ⟨rfl, -⟩ := Prod.mk.inj (Except.ok.inj h); exact hfreed
    · split at h
      · obtain ⟨rfl, -⟩ := Prod.mk.inj (Except.ok.inj h); exact hfreed
      · rename_i hlast
        obtain ⟨rfl, -⟩ := Prod.mk.inj (Except.ok.inj h)
        exact ⟨fun _ => hbusy, hpos, fun _ => by show r.pos < _; omega, fun hfree => by simp [hbusy] at hfree,
          fun _ => rfl⟩
  · cases h

theorem harqOk_congr {s t : State} (hparams : t.params = s.params) (hhq : t.hq = s.hq) (h : s.HarqOk) : t.HarqOk := by
  unfold State.HarqOk State.harq
  rw [hparams, hhq]
  exact h

theorem harqOk_complete {s : State} (h : s.HarqOk) : s.complete.HarqOk := h

/-- The rule for a write to the table: one legal record among legal ones. -/
theorem harqOk_setHarq {s : State} {dev : Nat} {dir : Dir} {proc : Nat} {r : HarqRec} (h : s.HarqOk)
    (hr : HarqRecOk s.params r) : (s.setHarq dev dir proc r).HarqOk := by
  intro d di q
  rw [State.harq_setHarq, State.setHarq_params]
  split
  · exact hr
  · exact h d di q

theorem effectOf_harqOk {i : Instr} {s t : State} (h : s.HarqOk) (heff : effectOf i s = .ok t) : t.HarqOk := by
  cases i with
  | hqMark =>
    obtain ⟨r, -, hr, rfl⟩ := hqMark_ok heff
    exact harqOk_setHarq h (markBusy_recOk (h _ _ _) hr)
  | hqResult dir succ proc dev =>
    obtain ⟨r, outcome, -, hr, rfl⟩ := hqResult_ok heff
    exact harqOk_setHarq h (onReceptionResult_recOk (h _ _ _) hr)
  | _ => exact harqOk_congr (effectOf_params heff) ((effectOf_writesOnlyItsOwn heff).hq (by simp [opcodeOf])) h

/-- Settles O42: only HQ_MARK and HQ_RESULT write a record, each the result of its function of R175 or R177,
and both functions keep I2 to I6. -/
theorem harqInvariantIsKept : Obligations.HarqInvariantIsKept := fun _ _ =>
  step_keeps State.HarqOk (fun _ _ _ h => h)
    (fun s off data => harqOk_congr (windowWrite_params s off data) (windowWrite_hq s off data))
    (fun s _ => s.resetAll_harqOk) (fun _ _ _ h heff => harqOk_complete (effectOf_harqOk h heff))
    (fun _ _ h => h)

/-! ### The logical-channel records (R40, R41) -/

theorem State.chan_of_key_eq (s : State) {d c dev ch : Nat} (hkey : lcKey d c = lcKey dev ch) :
    s.chan d c = s.chan dev ch := by
  rw [State.chan, hkey, State.chan]

/-- What may become of a record other than by registration: its runtime fields change, and only if it is
registered. -/
structure RuntimeOnly (r r' : LcRec) : Prop where
  config : r' = { r with pending := r'.pending, bj := r'.bj, elapsed := r'.elapsed }
  unregistered : r.valid = false → r' = r

theorem RuntimeOnly.refl (r : LcRec) : RuntimeOnly r r := ⟨rfl, fun _ => rfl⟩

theorem RuntimeOnly.of_valid {r : LcRec} (h : r.valid = true) (pending bj elapsed : Word) :
    RuntimeOnly r { r with pending := pending, bj := bj, elapsed := elapsed } :=
  ⟨rfl, fun hv => by rw [h] at hv; cases hv⟩

theorem RuntimeOnly.valid_eq {r r' : LcRec} (h : RuntimeOnly r r') : r'.valid = r.valid := by rw [h.config]

theorem RuntimeOnly.trans {r r' r'' : LcRec} (h : RuntimeOnly r r') (h' : RuntimeOnly r' r'') : RuntimeOnly r r'' := by
  refine ⟨?_, fun hv => ?_⟩
  · rw [h'.config, h.config]
  · rw [h'.unregistered (h.valid_eq.trans hv), h.unregistered hv]

theorem RuntimeOnly.recOk {r r' : LcRec} (h : RuntimeOnly r r') (hr : LcRecOk r) : LcRecOk r' := by
  obtain ⟨hprio, hreset⟩ := hr
  refine ⟨fun hv => ?_, fun hv => ?_⟩
  · rw [h.config]
    exact hprio (h.valid_eq ▸ hv)
  · rw [h.valid_eq] at hv
    rw [h.unregistered hv]
    exact hreset hv

/-- Every record of `t` is that of `s` but for its runtime fields. -/
def ChannelsRuntimeOnly (s t : State) : Prop := ∀ d c, RuntimeOnly (s.chan d c) (t.chan d c)

theorem channelsRuntimeOnly_of_lc_eq {s t : State} (h : t.lc = s.lc) : ChannelsRuntimeOnly s t := fun d c => by
  unfold State.chan
  rw [h]
  exact .refl _

theorem channelsRuntimeOnly_trans {s t u : State} (h : ChannelsRuntimeOnly s t) (h' : ChannelsRuntimeOnly t u) :
    ChannelsRuntimeOnly s u := fun d c => (h d c).trans (h' d c)

theorem channelsRuntimeOnly_setChan {s : State} {dev ch : Nat} {r : LcRec} (h : RuntimeOnly (s.chan dev ch) r) :
    ChannelsRuntimeOnly s (s.setChan dev ch r) := fun d c => by
  rw [State.chan_setChan]
  split
  · rename_i hkey
    rw [s.chan_of_key_eq hkey]
    exact h
  · exact .refl _

theorem lcTimeOver_runtimeOnly (dev dt : Nat) (l : List Nat) (s : State) :
    ChannelsRuntimeOnly s (lcTimeOver dev dt l s) := by
  induction l generalizing s with
  | nil => exact fun _ _ => .refl _
  | cons ch l ih =>
    unfold lcTimeOver
    split
    · rename_i hv
      exact channelsRuntimeOnly_trans (channelsRuntimeOnly_setChan (.of_valid hv _ _ _)) (ih _)
    · exact ih s

/-- Writing back a run's channels, all of them registered. -/
theorem writeBack_runtimeOnly (dev : Nat) (l : List LcpChan) (s : State)
    (h : ∀ c ∈ l, (s.chan dev c.id).valid = true) : ChannelsRuntimeOnly s (writeBack dev l s) := by
  induction l generalizing s with
  | nil => exact fun _ _ => .refl _
  | cons c l ih =>
    have hset : ChannelsRuntimeOnly s (s.setChan dev c.id (lcpRecord (s.chan dev c.id) c)) :=
      channelsRuntimeOnly_setChan (.of_valid (h c (by simp)) _ _ _)
    exact channelsRuntimeOnly_trans hset (ih _ fun c' hc' => (hset dev c'.id).valid_eq.trans (h c' (by simp [hc'])))

/-- The channels of a run are registered records of the device (R206). -/
theorem mem_lcpRun {dev b : Nat} {s : State} {c : LcpChan} (h : c ∈ (lcpRun (serviceOrder (registered s dev)) b).1) :
    c.id ∈ channelIds ∧ (s.chan dev c.id).valid = true := by
  have hid : c.id ∈ (lcpRun (serviceOrder (registered s dev)) b).1.map LcpChan.id := List.mem_map_of_mem h
  rw [lcpRun_ids] at hid
  obtain ⟨c', hc', hcc'⟩ := List.mem_map.1 hid
  have hreg : c' ∈ registered s dev := by
    obtain ⟨p, -, hp⟩ := List.mem_flatMap.1 hc'
    exact List.mem_of_mem_filter hp
  obtain ⟨k, hk, rfl⟩ := List.mem_map.1 hreg
  rw [← hcc']
  exact List.mem_filter.1 hk

/-- No effect but a registration changes more of the records than runtime fields of registered ones. -/
theorem effectOf_runtimeOnly {i : Instr} {s t : State} (heff : effectOf i s = .ok t) (hreg : opcodeOf i ≠ .lcReg) :
    ChannelsRuntimeOnly s t := by
  cases i with
  | lcReg ch dev => exact absurd rfl hreg
  | lcBuf ch dev =>
    obtain ⟨hcheck, rfl⟩ := lcBuf_ok heff
    exact channelsRuntimeOnly_setChan (.of_valid (checkReg_none.1 hcheck).2 _ _ _)
  | lcTime dev =>
    obtain ⟨-, l, -, rfl⟩ := lcTime_ok heff
    exact lcTimeOver_runtimeOnly dev _ l s
  | lcRun dev =>
    obtain ⟨-, run, hrun, rfl⟩ := lcRun_ok heff
    exact writeBack_runtimeOnly dev run.1 s fun c hc => (mem_lcpRun (hrun ▸ hc)).2
  | _ => exact channelsRuntimeOnly_of_lc_eq ((effectOf_writesOnlyItsOwn heff).lc (by simp [opcodeOf]))

/-- A registration writes a record with a priority of 1..16 (R201). -/
theorem lcReg_recOk {bsd prio lcg : Nat} (h : lcParamBad bsd prio lcg = false) (g : BitVec 3) (pbr : Word)
    (d : BitVec 16) : LcRecOk ⟨true, g, BitVec.ofNat 5 prio, pbr, d, 0, 0, 0⟩ := by
  simp only [lcParamBad, numPrio, numLcg, decide_eq_false_iff_not] at h
  refine ⟨fun _ => ?_, nofun⟩
  have hprio : (BitVec.ofNat 5 prio).toNat = prio := Nat.mod_eq_of_lt (by omega)
  show 1 ≤ (BitVec.ofNat 5 prio).toNat ∧ (BitVec.ofNat 5 prio).toNat ≤ 16
  omega

theorem lcOk_congr {s t : State} (hlc : t.lc = s.lc) (h : s.LcOk) : t.LcOk := by
  unfold State.LcOk State.chan
  rw [hlc]
  exact h

theorem lcOk_complete {s : State} (h : s.LcOk) : s.complete.LcOk := h

/-- The rule for a write to the table: one legal record among legal ones. -/
theorem lcOk_setChan {s : State} {dev ch : Nat} {r : LcRec} (h : s.LcOk) (hr : LcRecOk r) :
    (s.setChan dev ch r).LcOk := by
  intro d c
  rw [State.chan_setChan]
  split
  · exact hr
  · exact h d c

theorem effectOf_lcOk {i : Instr} {s t : State} (h : s.LcOk) (heff : effectOf i s = .ok t) : t.LcOk := by
  by_cases hreg : opcodeOf i = .lcReg
  · cases i with
    | lcReg ch dev =>
      obtain ⟨-, hparam, -, rfl⟩ := lcReg_ok heff
      exact lcOk_setChan h (lcReg_recOk hparam _ _ _)
    | _ => simp [opcodeOf] at hreg
  · exact fun d c => (effectOf_runtimeOnly heff hreg d c).recOk (h d c)

/-- Settles O58: LC_REG checks the priority it registers, and every other command changes runtime fields of
registered records only. -/
theorem channelRecordsStayLegal : Obligations.ChannelRecordsStayLegal := fun _ _ =>
  step_keeps State.LcOk (fun _ _ _ h => h) (fun s off data => lcOk_congr (windowWrite_lc s off data))
    (fun s _ => s.resetAll_lcOk) (fun _ _ _ h heff => lcOk_complete (effectOf_lcOk h heff)) (fun _ _ h => h)

/-! ### The channels of another device (R200) -/

/-- Every record of a device `d` in `t` is that in `s`. -/
def DeviceKept (d : Nat) (s t : State) : Prop := ∀ c, c < 64 → t.chan d c = s.chan d c

theorem deviceKept_setChan {d dev ch : Nat} (s : State) (r : LcRec) (hd : d ≠ dev) (hch : ch < 64) :
    DeviceKept d s (s.setChan dev ch r) := fun c hc => by
  rw [State.chan_setChan, if_neg fun hkey => hd (lcKey_inj _ _ _ _ hc hch hkey).1]

theorem lcTimeOver_deviceKept {d dev : Nat} (dt : Nat) (l : List Nat) (s : State) (hd : d ≠ dev)
    (hl : ∀ ch ∈ l, ch < 64) : DeviceKept d s (lcTimeOver dev dt l s) := by
  induction l generalizing s with
  | nil => exact fun _ _ => rfl
  | cons ch l ih =>
    obtain ⟨hch, hl⟩ := List.forall_mem_cons.1 hl
    unfold lcTimeOver
    split
    · exact fun c hc => (ih _ hl c hc).trans (deviceKept_setChan s _ hd hch c hc)
    · exact ih s hl

theorem writeBack_deviceKept {d dev : Nat} (l : List LcpChan) (s : State) (hd : d ≠ dev) (hl : ∀ c ∈ l, c.id < 64) :
    DeviceKept d s (writeBack dev l s) := by
  induction l generalizing s with
  | nil => exact fun _ _ => rfl
  | cons c l ih =>
    obtain ⟨hc, hl⟩ := List.forall_mem_cons.1 hl
    exact fun k hk => (ih _ hl k hk).trans (deviceKept_setChan s _ hd hc k hk)

theorem mem_channelIds {ch : Nat} : ch ∈ channelIds ↔ 1 ≤ ch ∧ ch ≤ 32 := by
  rw [channelIds, List.mem_range'_1, maxLcidData]
  omega

/-- The effect of a command that names no channel of device `d`, and not the device itself. -/
theorem effectOf_deviceKept {i : Instr} {s t : State} {d : Nat} (heff : effectOf i s = .ok t)
    (hch : ∀ ch, i ≠ .lcReg ch d ∧ i ≠ .lcBuf ch d) (htime : i ≠ .lcTime d) (hrun : i ≠ .lcRun d) :
    DeviceKept d s t := by
  cases i with
  | lcReg ch dev =>
    obtain ⟨hcheck, -, -, rfl⟩ := lcReg_ok heff
    obtain ⟨-, -, -, hle⟩ := checkDevCh_none.1 hcheck
    exact deviceKept_setChan s _ (fun hd => (hch ch).1 (by rw [hd])) (by omega)
  | lcBuf ch dev =>
    obtain ⟨hcheck, rfl⟩ := lcBuf_ok heff
    obtain ⟨⟨-, -, -, hle⟩, -⟩ := checkReg_none.1 hcheck
    exact deviceKept_setChan s _ (fun hd => (hch ch).2 (by rw [hd])) (by omega)
  | lcTime dev =>
    obtain ⟨-, l, hl, rfl⟩ := lcTime_ok heff
    refine lcTimeOver_deviceKept _ l s (fun hd => htime (by rw [hd])) fun ch hmem => ?_
    have := mem_channelIds.1 (hl ▸ hmem)
    omega
  | lcRun dev =>
    obtain ⟨-, run, hrun', rfl⟩ := lcRun_ok heff
    refine writeBack_deviceKept run.1 s (fun hd => hrun (by rw [hd])) fun c hc => ?_
    have := mem_channelIds.1 (mem_lcpRun (hrun' ▸ hc)).1
    omega
  | _ =>
    intro c _
    rw [State.chan, (effectOf_writesOnlyItsOwn heff).lc (by simp [opcodeOf]), State.chan]

/-- A registered record changes in its runtime fields only: LC_REG refuses it as a duplicate (R44). -/
theorem effectOf_runtimeOnly_of_valid {i : Instr} {s t : State} {d c : Nat} (heff : effectOf i s = .ok t)
    (hv : (s.chan d c).valid = true) : RuntimeOnly (s.chan d c) (t.chan d c) := by
  by_cases hreg : opcodeOf i = .lcReg
  · cases i with
    | lcReg ch dev =>
      obtain ⟨-, -, hdup, rfl⟩ := lcReg_ok heff
      have hkey : lcKey d c ≠ lcKey dev ch := fun hkey => by
        rw [s.chan_of_key_eq hkey, hdup] at hv
        cases hv
      rw [State.chan_setChan, if_neg hkey]
      exact .refl _
    | _ => simp [opcodeOf] at hreg
  · exact effectOf_runtimeOnly heff hreg d c

/-- Settles O55: a refusal changes no record, and of an accepted effect the first part is
`effectOf_runtimeOnly_of_valid` and the second `effectOf_deviceKept`. -/
theorem channelConfigurationIsImmutable : Obligations.ChannelConfigurationIsImmutable := by
  intro i s t d c hi _ hc h
  obtain ⟨u, hu, rfl⟩ | ⟨e, -, rfl⟩ := exec_cases hi h
  · simp only [State.chan_complete]
    refine ⟨fun hv => ?_, fun hch htime hrun => effectOf_deviceKept hu hch htime hrun c hc⟩
    have hrt := effectOf_runtimeOnly_of_valid hu hv
    rw [hrt.config]
    exact ⟨hv, rfl, rfl, rfl, rfl⟩
  · exact ⟨fun hv => ⟨hv, rfl, rfl, rfl, rfl⟩, fun _ _ _ => rfl⟩

/-! ## A parsed list (R151) -/

theorem lenIds_iff (dir : Dir) (lcid : Nat) : lenIds dir lcid = true ↔ InLenIds dir lcid := by
  cases dir <;> simp [lenIds, InLenIds]

/-- A header has two bytes or more, and they lie in the PDU (R95). -/
theorem lengthField_bound {pdu : List Byte} {cur hl len : Nat} (h : lengthField pdu cur = some (hl, len)) :
    2 ≤ hl ∧ cur + hl ≤ pdu.length := by
  obtain ⟨-, hle, heq⟩ | ⟨-, -, heq⟩ | ⟨-, hle, heq⟩ | ⟨-, -, heq⟩ := lengthField_cases pdu cur <;> rw [heq] at h
  · obtain ⟨rfl, -⟩ := Prod.mk.inj (Option.some.inj h); omega
  · cases h
  · obtain ⟨rfl, -⟩ := Prod.mk.inj (Option.some.inj h); omega
  · cases h

theorem length_slice {bytes : List Byte} {a n : Nat} (h : a + n ≤ bytes.length) : (slice bytes a n).length = n := by
  rw [slice, List.length_take, List.length_drop]
  omega

/-- The list a walk has gathered when its cursor stands at `cur`: it describes bytes before the cursor. -/
structure ListedTo (dir : Dir) (pdu : List Byte) (cur : Nat) (items : List SubPdu) : Prop where
  count : 2 * items.length ≤ cur
  cursor : cur ≤ pdu.length
  item : ∀ it ∈ items, InLenIds dir it.lcid ∧ 2 ≤ it.start ∧ it.start + it.payload.length ≤ cur
    ∧ it.payload = (pdu.drop it.start).take it.payload.length
  apart : items.Pairwise (fun a b => a.start + a.payload.length + 2 ≤ b.start)

theorem listedTo_nil (dir : Dir) (pdu : List Byte) : ListedTo dir pdu 0 [] :=
  ⟨Nat.le_refl _, Nat.zero_le _, nofun, .nil⟩

/-- The walk's step: the next sub-PDU starts at the cursor, and the cursor moves behind it. -/
theorem ListedTo.append {dir : Dir} {pdu : List Byte} {cur hl len lcid : Nat} {items : List SubPdu}
    (h : ListedTo dir pdu cur items) (hid : InLenIds dir lcid) (hhl : 2 ≤ hl) (hend : cur + hl + len ≤ pdu.length) :
    ListedTo dir pdu (cur + hl + len) (items ++ [⟨lcid, cur + hl, slice pdu (cur + hl) len⟩]) := by
  obtain ⟨hcount, -, hitem, hapart⟩ := h
  have hlen := length_slice hend
  refine ⟨?_, hend, fun it hit => ?_, List.pairwise_append.2 ⟨hapart, List.pairwise_singleton _ _, fun a ha b hb => ?_⟩⟩
  · rw [List.length_append, List.length_singleton]
    omega
  · obtain hit | hit := List.mem_append.1 hit
    · obtain ⟨hlcid, hstart, hle, hpayload⟩ := hitem it hit
      exact ⟨hlcid, hstart, by omega, hpayload⟩
    · obtain rfl := List.mem_singleton.1 hit
      refine ⟨hid, (by omega : 2 ≤ cur + hl), by rw [hlen], ?_⟩
      rw [hlen]
      rfl
  · obtain rfl := List.mem_singleton.1 hb
    obtain ⟨-, -, hle, -⟩ := hitem a ha
    show _ ≤ cur + hl
    omega

/-- What the walk returns is listed to the cursor it returns; the fuel is enough, since a sub-PDU moves the
cursor (R310), so a walk that saw no padding ended at the end of the PDU. -/
theorem parseFrom_listedTo {dir : Dir} {pdu : List Byte} {fuel cur : Nat} {items : List SubPdu} {r : Parsed}
    (hlisted : ListedTo dir pdu cur items) (hfuel : pdu.length ≤ cur + fuel)
    (h : parseFrom dir pdu fuel cur items = .ok r) :
    ListedTo dir pdu r.cursor r.items ∧ (r.padSeen = false → r.cursor = pdu.length) := by
  induction fuel generalizing cur items with
  | zero =>
    obtain rfl := Except.ok.inj h
    exact ⟨hlisted, fun _ => Nat.le_antisymm hlisted.cursor hfuel⟩
  | succ fuel ih =>
    rw [parseFrom] at h
    split at h
    · rename_i hend
      obtain rfl := Except.ok.inj h
      exact ⟨hlisted, fun _ => Nat.le_antisymm hlisted.cursor hend⟩
    · simp only at h
      split at h
      · obtain rfl := Except.ok.inj h
        exact ⟨hlisted, nofun⟩
      · split at h; · cases h
        rename_i hid
        split at h; · cases h
        rename_i hl len hfield
        split at h; · cases h
        have hhl := (lengthField_bound hfield).1
        have hlen : lenIds dir (headerLcid (byteAt pdu cur)) = true := by simpa using hid
        exact ih (hlisted.append ((lenIds_iff _ _).1 hlen) hhl (by omega)) (by omega) h

theorem parse_listedTo {dir : Dir} {pdu : List Byte} {r : Parsed} (h : parse pdu dir = .ok r) :
    ListedTo dir pdu r.cursor r.items ∧ (r.padSeen = false → r.cursor = pdu.length) :=
  parseFrom_listedTo (listedTo_nil dir pdu) (by omega) h

/-- Settles O32, by induction on the walk: `ListedTo` holds of the empty list at the start of the PDU, and each
sub-PDU keeps it (`ListedTo.append`). -/
theorem parsedListFitsThePdu : Obligations.ParsedListFitsThePdu := fun _ _ _ h =>
  let ⟨⟨hcount, hcursor, hitem, hapart⟩, hpad⟩ := parse_listedTo h
  ⟨hcount.trans hcursor, hcursor, hpad, hitem, hapart⟩

/-! ## The constant registers (R27, R28, R29) -/

theorem windowRead_mpfId (s : State) : windowRead s 0x090 = mpfId := rfl

theorem windowRead_cap0 (s : State) : windowRead s 0x094 = cap0 s.params := rfl

theorem windowRead_cap1 (s : State) : windowRead s 0x098 = cap1 s.params := rfl

/-- Settles O10: the offset 0x090 is `MPF_ID`, whatever the state. -/
theorem mpfIdIsConstant : Obligations.MpfIdIsConstant := ⟨windowRead_mpfId, windowRead_mpfId _⟩

theorem rvAt_lt (p : Params) (i : Nat) : rvAt p i < 4 := BitVec.isLt _

/-- Under legal parameters the fields of `CAP0` do not overlap, and their sum fits the register. -/
theorem cap0_toNat {p : Params} (h : p.legal = true) :
    (cap0 p).toNat = p.numDevices + 2 ^ 16 * p.numHarq + 2 ^ 21 * p.rvLen + 2 ^ 24 * rvAt p 0 + 2 ^ 26 * rvAt p 1
      + 2 ^ 28 * rvAt p 2 + 2 ^ 30 * rvAt p 3 := by
  obtain ⟨hdev, hharq, hrv, -⟩ := (Params.legal_iff p).1 h
  have h0 := rvAt_lt p 0
  have h1 := rvAt_lt p 1
  have h2 := rvAt_lt p 2
  have h3 := rvAt_lt p 3
  rw [cap0, BitVec.toNat_ofNat]
  omega

theorem cap1_toNat {p : Params} (h : p.legal = true) : (cap1 p).toNat = p.log2Buf + 2 ^ 5 * p.numRbgs := by
  obtain ⟨-, -, -, hrbg, hbuf, -⟩ := (Params.legal_iff p).1 h
  rw [cap1, BitVec.toNat_ofNat]
  omega

/-- A field of a register as a number. -/
theorem extractLsb'_toNat_eq (w : Word) (lo n : Nat) : (w.extractLsb' lo n).toNat = w.toNat / 2 ^ lo % 2 ^ n := by
  rw [BitVec.extractLsb'_toNat, Nat.shiftRight_eq_div_pow]

/-- Settles O11: the fields of the sum `cap0_toNat` do not overlap. -/
theorem cap0HoldsItsFields : Obligations.Cap0HoldsItsFields := by
  intro s h
  obtain ⟨hdev, hharq, hrv, -⟩ := (Params.legal_iff s.params).1 h
  have h0 := rvAt_lt s.params 0
  have h1 := rvAt_lt s.params 1
  have h2 := rvAt_lt s.params 2
  have h3 := rvAt_lt s.params 3
  have hsum := cap0_toNat h
  rw [windowRead_cap0]
  simp only [extractLsb'_toNat_eq, hsum]
  refine ⟨by omega, by omega, by omega, fun i hi => BitVec.eq_of_toNat_eq ?_⟩
  rw [extractLsb'_toNat_eq, hsum]
  show _ = rvAt s.params i
  interval_cases i <;> omega

/-- Settles O12, as `cap0HoldsItsFields`. -/
theorem cap1HoldsItsFields : Obligations.Cap1HoldsItsFields := by
  intro s h
  obtain ⟨-, -, -, hrbg, hbuf, -⟩ := (Params.legal_iff s.params).1 h
  have hsum := cap1_toNat h
  rw [windowRead_cap1]
  refine ⟨?_, ?_, BitVec.eq_of_toNat_eq ?_⟩
  · rw [extractLsb'_toNat_eq, hsum, Params.bufBytes]
    congr 1
    omega
  · rw [extractLsb'_toNat_eq, hsum]
    omega
  · rw [extractLsb'_toNat_eq, hsum]
    show _ = 0
    omega

/-! ## The values after a reset (R43) -/

theorem resetAll_reg (s : State) (i : Fin 16) : s.resetAll.reg i = 0 := by
  simp [State.reg]

theorem resetAll_grantReg (s : State) (i : Fin 4) : s.resetAll.grantReg i = 0 := by
  simp [State.grantReg]

theorem resetAll_hasResetValues (s : State) : s.resetAll.HasResetValues :=
  ⟨resetAll_reg s, resetAll_grantReg s, rfl, rfl, rfl, fun _ => rfl, fun _ => rfl,
    fun _ _ _ => ⟨rfl, rfl, rfl, rfl, rfl, rfl, rfl, rfl⟩, fun _ _ => rfl, windowRead_mpfId _, windowRead_cap0 _,
    windowRead_cap1 _⟩

/-- Settles O22: the state at the start is one that a reset leaves (`reset_resetAll`), and both resets are
`resetAll`. -/
theorem resetValues : Obligations.ResetValues :=
  ⟨reset_resetAll ▸ resetAll_hasResetValues State.reset, fun s => ⟨_, exec_sreset s, resetAll_hasResetValues s⟩,
    fun _ _ hs => ⟨_, step_of_hardReset hs, resetAll_hasResetValues _⟩⟩

/-! ## The memories in canonical form and range (R34, R35, R36, R39) -/

/-- A table in canonical form that lists keys of `R` only. -/
def TableIn {α : Type} [DecidableEq α] (dflt : α) (R : Nat → Prop) (t : List (Nat × α)) : Prop :=
  tableWf dflt t = true ∧ ∀ e ∈ t, R e.1

theorem TableIn.set {α : Type} [DecidableEq α] {dflt : α} {R : Nat → Prop} {t : List (Nat × α)}
    (h : TableIn dflt R t) {a : Nat} (ha : R a) (v : α) : TableIn dflt R (tableSet dflt t a v) := by
  refine ⟨tableSet_wf dflt t a v h.1, fun e he => ?_⟩
  obtain rfl | he := tableSet_mem dflt t a v e he
  · exact ha
  · exact h.2 e he

/-- The keys of `HQ`: an existing device and an existing process of either direction (R36). -/
def HqKeyIn (p : Params) (k : Nat) : Prop := 1 ≤ k / 32 ∧ k / 32 ≤ p.numDevices ∧ k % 16 < p.numHarq

/-- The keys of `LC`: an existing device and a channel of 1..32 (R39). -/
def LcKeyIn (p : Params) (k : Nat) : Prop := 1 ≤ k / 64 ∧ k / 64 ≤ p.numDevices ∧ 1 ≤ k % 64 ∧ k % 64 ≤ 32

/-- What `State.canonical` and `State.inRange` say together, memory by memory. -/
structure MemoriesIn (s : State) : Prop where
  buf : TableIn (0 : Byte) (· < s.params.bufBytes) s.buf
  desc : TableIn Desc.zero (· < s.params.descEntries) s.desc
  hq : TableIn HarqRec.reset (HqKeyIn s.params) s.hq
  lc : TableIn LcRec.reset (LcKeyIn s.params) s.lc

theorem memoriesIn_iff (s : State) : MemoriesIn s ↔ s.canonical = true ∧ s.inRange = true := by
  simp only [State.canonical, State.inRange, Bool.and_eq_true, List.all_eq_true, decide_eq_true_eq]
  constructor
  · rintro ⟨⟨b1, b2⟩, ⟨d1, d2⟩, ⟨h1, h2⟩, ⟨l1, l2⟩⟩
    exact ⟨⟨⟨⟨b1, d1⟩, h1⟩, l1⟩, ⟨⟨b2, d2⟩, h2⟩, l2⟩
  · rintro ⟨⟨⟨⟨b1, d1⟩, h1⟩, l1⟩, ⟨⟨b2, d2⟩, h2⟩, l2⟩
    exact ⟨⟨b1, b2⟩, ⟨d1, d2⟩, ⟨h1, h2⟩, ⟨l1, l2⟩⟩

/-! ### One rule for each way of writing a memory -/

/-- A byte string stored in a region of `BUF`. -/
theorem TableIn.memWrite {s : State} {m : List Host.Cell} (h : TableIn (0 : Byte) (· < s.params.bufBytes) m)
    {off : Nat} {bs : List Byte} (hfits : s.fits off bs.length = true) :
    TableIn (0 : Byte) (· < s.params.bufBytes) (memWrite m off bs) := by
  have hend : off + bs.length ≤ s.params.bufBytes := of_decide_eq_true hfits
  refine ⟨memWrite_wf m off bs h.1, fun e he => ?_⟩
  obtain ⟨-, hlt⟩ | he := memWrite_mem m off bs e he
  · exact lt_of_lt_of_le hlt hend
  · exact h.2 e he

/-- A list result that `DESC` has room for (R35). -/
theorem TableIn.descWrite {n : Nat} {t : List (Nat × Desc)} (h : TableIn Desc.zero (· < n) t) {ds : List Desc}
    (hlen : ds.length ≤ n) : TableIn Desc.zero (· < n) (descWrite t 0 ds) := by
  refine ⟨descWrite_wf t 0 ds h.1, fun e he => ?_⟩
  obtain ⟨-, hlt⟩ | he := descWrite_mem t 0 ds e he
  · show e.1 < n
    omega
  · exact h.2 e he

/-- A device and a process that pass `check_addr` give a key of `HQ`: a process index is below 16 (R6). -/
theorem hqKeyIn_of_checkAddr {p : Params} (hp : p.legal = true) {dev proc : Nat} (h : checkAddr p dev proc = none)
    (dir : Dir) : HqKeyIn p (hqKey dev dir proc) := by
  obtain ⟨-, ⟨-, h16⟩, -⟩ := (Params.legal_iff p).1 hp
  obtain ⟨h1, hdev, hproc⟩ := checkAddr_none.1 h
  cases dir <;> simp only [HqKeyIn, hqKey] <;> omega

theorem lcKeyIn_lcKey {p : Params} {dev ch : Nat} (hdev : 1 ≤ dev ∧ dev ≤ p.numDevices) (hch : 1 ≤ ch ∧ ch ≤ 32) :
    LcKeyIn p (lcKey dev ch) := by
  unfold LcKeyIn lcKey
  omega

theorem lcTimeOver_lcIn {dev : Nat} (dt : Nat) {l : List Nat} {s : State} {R : Nat → Prop}
    (h : TableIn LcRec.reset R s.lc) (hl : ∀ ch ∈ l, R (lcKey dev ch)) :
    TableIn LcRec.reset R (lcTimeOver dev dt l s).lc := by
  induction l generalizing s with
  | nil => exact h
  | cons ch l ih =>
    obtain ⟨hch, hl⟩ := List.forall_mem_cons.1 hl
    unfold lcTimeOver
    split
    · exact ih (h.set hch _) hl
    · exact ih h hl

theorem writeBack_lcIn {dev : Nat} {l : List LcpChan} {s : State} {R : Nat → Prop} (h : TableIn LcRec.reset R s.lc)
    (hl : ∀ c ∈ l, R (lcKey dev c.id)) : TableIn LcRec.reset R (writeBack dev l s).lc := by
  induction l generalizing s with
  | nil => exact h
  | cons c l ih =>
    obtain ⟨hc, hl⟩ := List.forall_mem_cons.1 hl
    exact ih (h.set hc _) hl

theorem windowLoc_buf_lt {p : Params} {off : Word} {a : Nat} (h : windowLoc p off = .buf a) : a < p.bufBytes := by
  have hcases := windowLoc_cases p off off.toNat rfl
  simp only [h, reduceCtorEq, and_false, exists_false, false_or, or_false, WindowLoc.buf.injEq] at hcases
  obtain ⟨a', ha', -, rfl⟩ := hcases
  exact ha'

theorem windowLoc_desc_lt {p : Params} {off : Word} {k j : Nat} (h : windowLoc p off = .desc k j) :
    k < p.descEntries := by
  have hcases := windowLoc_cases p off off.toNat rfl
  simp only [h, reduceCtorEq, and_false, exists_false, false_or, or_false, WindowLoc.desc.injEq] at hcases
  obtain ⟨k', j', hk', -, -, rfl, -⟩ := hcases
  exact hk'

theorem windowWrite_memoriesIn (s : State) (off data : Word) (h : MemoriesIn s) :
    MemoriesIn (windowWrite s off data) := by
  obtain ⟨hbuf, hdesc, hhq, hlc⟩ := h
  unfold windowWrite
  cases hloc : windowLoc s.params off with
  | buf a => exact ⟨hbuf.set (windowLoc_buf_lt hloc) _, hdesc, hhq, hlc⟩
  | desc k j => exact ⟨hbuf, hdesc.set (windowLoc_desc_lt hloc) _, hhq, hlc⟩
  | _ => exact ⟨hbuf, hdesc, hhq, hlc⟩

/-! ### The lengths of what a command writes -/

theorem encodeSubPDU_length {lcid : Nat} {payload out : List Byte} {dir : Dir}
    (h : encodeSubPDU lcid payload dir = .ok out) : out.length = headerLen payload.length + payload.length := by
  simp only [encodeSubPDU] at h
  split at h; · cases h
  split at h; · cases h
  split at h
  · rename_i hshort
    obtain rfl := Except.ok.inj h
    rw [headerLen, if_pos hshort, List.length_append]
    rfl
  · rename_i hlong
    obtain rfl := Except.ok.inj h
    rw [headerLen, if_neg hlong, List.length_append]
    rfl

theorem encodePadding_length {n : Nat} {out : List Byte} (h : encodePadding n = .ok out) : out.length = n := by
  unfold encodePadding at h
  split at h; · cases h
  obtain rfl := Except.ok.inj h
  rw [List.length_cons, List.length_replicate]
  omega

theorem multiplex_length (data ctrl pad : List Byte) (dir : Dir) :
    (multiplex data ctrl pad dir).length = data.length + ctrl.length + pad.length := by
  cases dir <;> simp only [multiplex, List.length_append]
  omega

theorem bsrLongFrom_length_le (p : Params) (bytes : List Byte) (groups : List Nat) (k : Nat) :
    (bsrLongFrom p bytes groups k).length ≤ groups.length := by
  induction groups generalizing k with
  | nil => exact Nat.le_refl _
  | cons i rest ih =>
    unfold bsrLongFrom
    split_ifs
    · exact Nat.succ_le_succ (ih _)
    · exact Nat.succ_le_succ (ih _)
    · exact (ih k).trans (Nat.le_succ _)

/-- A report has at most one entry a channel group (R100). -/
theorem parseBufferStatusReport_length_le {p : Params} {v : BsrVariant} {bytes : List Byte} {r : List BsrEntry}
    (h : parseBufferStatusReport p v bytes = .ok r) : r.length ≤ numLcg := by
  unfold parseBufferStatusReport at h
  split at h; · cases h
  split at h
  · obtain rfl := Except.ok.inj h
    rw [List.length_singleton]
    decide
  · obtain rfl := Except.ok.inj h
    exact (bsrLongFrom_length_le p bytes _ 1).trans List.length_range.le

theorem countP_prio_lt_succ (cs : List LcpChan) (n : Nat) :
    cs.countP (fun c => decide (c.prio < n + 1))
      = cs.countP (fun c => decide (c.prio < n)) + cs.countP (fun c => decide (c.prio = n)) := by
  induction cs with
  | nil => rfl
  | cons c cs ih =>
    simp only [List.countP_cons, ih, decide_eq_true_eq]
    split_ifs <;> omega

/-- Sorting into priority classes lists each channel of a priority below `n` once. -/
theorem flatMap_prio_length (cs : List LcpChan) (n : Nat) :
    ((List.range n).flatMap (fun p => cs.filter (fun c => decide (c.prio = p)))).length
      = cs.countP (fun c => decide (c.prio < n)) := by
  induction n with
  | zero => simp
  | succ n ih =>
    rw [List.range_succ, List.flatMap_append, List.length_append, ih, countP_prio_lt_succ, List.flatMap_singleton,
      ← List.countP_eq_length_filter]

theorem serviceOrder_length_le (cs : List LcpChan) : (serviceOrder cs).length ≤ cs.length :=
  (flatMap_prio_length cs 32).le.trans List.countP_le_length

/-- A run lists no more channels than a device can have (R207). -/
theorem lcpOutput_length_le (dev b : Nat) (s : State) :
    (lcpOutput (lcpRun (serviceOrder (registered s dev)) b).1).length ≤ maxLcidData := by
  have hrun := congrArg List.length (lcpRun_ids b (serviceOrder (registered s dev)))
  rw [List.length_map, List.length_map] at hrun
  calc (lcpOutput (lcpRun (serviceOrder (registered s dev)) b).1).length
      ≤ (lcpRun (serviceOrder (registered s dev)) b).1.length := by
        rw [lcpOutput, List.length_map]
        exact List.length_filter_le _ _
    _ = (serviceOrder (registered s dev)).length := hrun
    _ ≤ (registered s dev).length := serviceOrder_length_le _
    _ ≤ channelIds.length := by
        rw [registered, List.length_map]
        exact List.length_filter_le _ _
    _ = maxLcidData := List.length_range'

/-! ### What an accepted effect leaves in each memory -/

theorem effectOf_bufIn {i : Instr} {s t : State} (h : TableIn (0 : Byte) (· < s.params.bufBytes) s.buf)
    (heff : effectOf i s = .ok t) : TableIn (0 : Byte) (· < s.params.bufBytes) t.buf := by
  cases i with
  | encSub dir lcid =>
    obtain ⟨out, hout, -, -, -, hfits, rfl⟩ := encSub_ok heff
    have hlen := encodeSubPDU_length hout
    rw [State.length_readBytes] at hlen
    exact h.memWrite (hlen ▸ hfits)
  | encPad =>
    obtain ⟨out, hout, hfits, rfl⟩ := encPad_ok heff
    exact h.memWrite (by rw [encodePadding_length hout]; exact hfits)
  | mux dir =>
    obtain ⟨-, -, -, hfits, rfl⟩ := muxCmd_ok heff
    exact h.memWrite (by simpa only [multiplex_length, State.length_readBytes] using hfits)
  | _ =>
    rw [(effectOf_writesOnlyItsOwn heff).buf (by simp [opcodeOf])]
    exact h

/-- Each list result fits `DESC`: PARSE's has half an entry a byte of the PDU, and the other two are shorter than
the smallest `DESC`. -/
theorem effectOf_descIn {i : Instr} {s t : State} (hp : s.params.legal = true)
    (h : TableIn Desc.zero (· < s.params.descEntries) s.desc) (heff : effectOf i s = .ok t) :
    TableIn Desc.zero (· < s.params.descEntries) t.desc := by
  obtain ⟨hmin, -, hentries⟩ := bufBytes_bounds hp
  cases i with
  | parse dir =>
    obtain ⟨r, hfits, hr, rfl⟩ := parseCmd_ok heff
    have hend : s.argN 0 + s.argN 1 ≤ s.params.bufBytes := of_decide_eq_true hfits
    obtain ⟨hcount, -⟩ := parsedListFitsThePdu _ _ _ hr
    rw [State.length_readBytes] at hcount
    exact h.descWrite (by rw [List.length_map]; omega)
  | parseBsr variant =>
    obtain ⟨r, -, hr, rfl⟩ := parseBsrCmd_ok heff
    have hlen : r.length ≤ 8 := parseBufferStatusReport_length_le hr
    exact h.descWrite (by rw [List.length_map]; omega)
  | lcRun dev =>
    obtain ⟨-, run, hrun, rfl⟩ := lcRun_ok heff
    have hlen : (lcpOutput run.1).length ≤ 32 := hrun ▸ lcpOutput_length_le dev _ s
    rw [writeBack_eq]
    exact h.descWrite (by omega)
  | _ =>
    rw [(effectOf_writesOnlyItsOwn heff).desc (by simp [opcodeOf])]
    exact h

theorem effectOf_hqIn {i : Instr} {s t : State} (hp : s.params.legal = true)
    (h : TableIn HarqRec.reset (HqKeyIn s.params) s.hq) (heff : effectOf i s = .ok t) :
    TableIn HarqRec.reset (HqKeyIn s.params) t.hq := by
  cases i with
  | hqMark =>
    obtain ⟨r, hcheck, -, rfl⟩ := hqMark_ok heff
    exact h.set (hqKeyIn_of_checkAddr hp hcheck _) r
  | hqResult dir succ proc dev =>
    obtain ⟨r, outcome, hcheck, -, rfl⟩ := hqResult_ok heff
    exact h.set (hqKeyIn_of_checkAddr hp hcheck dir) r
  | _ =>
    rw [(effectOf_writesOnlyItsOwn heff).hq (by simp [opcodeOf])]
    exact h

theorem effectOf_lcIn {i : Instr} {s t : State} (h : TableIn LcRec.reset (LcKeyIn s.params) s.lc)
    (heff : effectOf i s = .ok t) : TableIn LcRec.reset (LcKeyIn s.params) t.lc := by
  cases i with
  | lcReg ch dev =>
    obtain ⟨hcheck, -, -, rfl⟩ := lcReg_ok heff
    obtain ⟨h1, hdev, hch⟩ := checkDevCh_none.1 hcheck
    rw [State.setChan_lc]
    exact h.set (lcKeyIn_lcKey ⟨h1, hdev⟩ hch) _
  | lcBuf ch dev =>
    obtain ⟨hcheck, rfl⟩ := lcBuf_ok heff
    obtain ⟨⟨h1, hdev, hch⟩, -⟩ := checkReg_none.1 hcheck
    exact h.set (lcKeyIn_lcKey ⟨h1, hdev⟩ hch) _
  | lcTime dev =>
    obtain ⟨hdev, l, hl, rfl⟩ := lcTime_ok heff
    exact lcTimeOver_lcIn _ h fun ch hmem => lcKeyIn_lcKey (badDevice_false.1 hdev) (mem_channelIds.1 (hl ▸ hmem))
  | lcRun dev =>
    obtain ⟨hdev, run, hrun, rfl⟩ := lcRun_ok heff
    exact writeBack_lcIn h fun c hc =>
      lcKeyIn_lcKey (badDevice_false.1 hdev) (mem_channelIds.1 (mem_lcpRun (hrun ▸ hc)).1)
  | _ =>
    rw [(effectOf_writesOnlyItsOwn heff).lc (by simp [opcodeOf])]
    exact h

theorem effectOf_memoriesIn {i : Instr} {s t : State} (hp : s.params.legal = true) (h : MemoriesIn s)
    (heff : effectOf i s = .ok t) : MemoriesIn t := by
  have hparams := effectOf_params heff
  refine ⟨?_, ?_, ?_, ?_⟩ <;> rw [hparams]
  · exact effectOf_bufIn h.buf heff
  · exact effectOf_descIn hp h.desc heff
  · exact effectOf_hqIn hp h.hq heff
  · exact effectOf_lcIn h.lc heff

/-- What every step keeps of the memories; their ranges are those of legal parameters. -/
def LegalMemoriesIn (s : State) : Prop := s.params.legal = true ∧ MemoriesIn s

/-- The memories and the parameters are all that the invariant speaks of. -/
theorem legalMemoriesIn_congr (s t : State) (hparams : t.params = s.params)
    (h : t.buf = s.buf ∧ t.desc = s.desc ∧ t.hq = s.hq ∧ t.lc = s.lc) (hs : LegalMemoriesIn s) : LegalMemoriesIn t := by
  obtain ⟨hbuf, hdesc, hhq, hlc⟩ := h
  obtain ⟨hlegal, hmem⟩ := hs
  refine ⟨hparams ▸ hlegal, ?_, ?_, ?_, ?_⟩
  · rw [hparams, hbuf]; exact hmem.buf
  · rw [hparams, hdesc]; exact hmem.desc
  · rw [hparams, hhq]; exact hmem.hq
  · rw [hparams, hlc]; exact hmem.lc

theorem step_legalMemoriesIn {s t : State} (hs : LegalMemoriesIn s) (h : step s = .next t) : LegalMemoriesIn t := by
  refine step_keeps LegalMemoriesIn (fun s _ _ => legalMemoriesIn_congr s _ rfl ⟨rfl, rfl, rfl, rfl⟩)
    (fun s off data hs => ?_) (fun s hs => ?_) (fun i s t hs heff => ?_)
    (fun s _ => legalMemoriesIn_congr s _ rfl ⟨rfl, rfl, rfl, rfl⟩) hs h
  · exact ⟨by rw [windowWrite_params]; exact hs.1, windowWrite_memoriesIn s off data hs.2⟩
  · exact ⟨hs.1, (memoriesIn_iff _).2 ⟨s.resetAll_canonical, s.resetAll_inRange⟩⟩
  · have ht : LegalMemoriesIn t := ⟨effectOf_params heff ▸ hs.1, effectOf_memoriesIn hs.1 hs.2 heff⟩
    exact legalMemoriesIn_congr t t.complete rfl ⟨rfl, rfl, rfl, rfl⟩ ht

/-- Settles O56: each way of writing a memory keeps the canonical form, and the checks a command has passed,
with the lengths of what it writes, keep the range. -/
theorem memoriesStayCanonicalAndInRange : Obligations.MemoriesStayCanonicalAndInRange :=
  fun s t hlegal hcanonical hrange h =>
    (memoriesIn_iff t).1 (step_legalMemoriesIn ⟨hlegal, (memoriesIn_iff s).2 ⟨hcanonical, hrange⟩⟩ h).2

end Sys2Proof.Machine

/-! ## The host window (R60, R66, R70, R72) -/

namespace Sys2Proof.Machine

/-! ### The map: which offsets are a location -/

/-- The offsets of a location (R72), read off the map from the location's side. -/
def WindowLoc.IsAt (p : Params) (o : Nat) : WindowLoc → Prop
  | .reg i => o = 4 * i.val
  | .grantReg i => o = 0x040 + 4 * i.val
  | .cmd => o = 0x080
  | .status => o = 0x084
  | .fault => o = 0x088
  | .cmdcnt => o = 0x08C
  | .mpfId => o = 0x090
  | .cap0 => o = 0x094
  | .cap1 => o = 0x098
  | .buf a => a < p.bufBytes ∧ o = 0x01000000 + 4 * a
  | .desc k j => k < p.descEntries ∧ j < 3 ∧ o = 0x08000000 + 12 * k + 4 * j
  | .reserved => True

theorem windowLoc_isAt (p : Params) (off : Word) : (windowLoc p off).IsAt p off.toNat := by
  obtain ⟨-, h⟩ | ⟨i, ho, h⟩ | ⟨i, ho, h⟩ | ⟨ho, h⟩ | ⟨ho, h⟩ | ⟨ho, h⟩ | ⟨ho, h⟩ | ⟨ho, h⟩ | ⟨ho, h⟩ | ⟨ho, h⟩
    | ⟨a, ha, ho, h⟩ | ⟨k, j, hk, hj, ho, h⟩ | ⟨-, -, -, -, h⟩ := windowLoc_cases p off _ rfl <;> rw [h]
  exacts [trivial, ho, ho, ho, ho, ho, ho, ho, ho, ho, ⟨ha, ho⟩, ⟨hk, hj, ho⟩, trivial]

theorem isAt_of_windowLoc {p : Params} {off : Word} {l : WindowLoc} (h : windowLoc p off = l) :
    l.IsAt p off.toNat :=
  h ▸ windowLoc_isAt p off

theorem windowLoc_eq_reg_iff {p : Params} {off : Word} {i : Fin 16} :
    windowLoc p off = .reg i ↔ off.toNat = 4 * i.val := by
  refine ⟨isAt_of_windowLoc, fun h => ?_⟩
  have hi : 4 * i.val / 4 = i.val := by omega
  simp (disch := omega) only [windowLoc, h, if_neg, if_pos, hi, Fin.ofNat_val_eq_self]

theorem windowLoc_eq_grantReg_iff {p : Params} {off : Word} {i : Fin 4} :
    windowLoc p off = .grantReg i ↔ off.toNat = 0x040 + 4 * i.val := by
  refine ⟨isAt_of_windowLoc, fun h => ?_⟩
  have hi : (0x040 + 4 * i.val - 0x040) / 4 = i.val := by omega
  simp (disch := omega) only [windowLoc, h, if_neg, if_pos, hi, Fin.ofNat_val_eq_self]

theorem windowLoc_eq_cmd_iff {p : Params} {off : Word} : windowLoc p off = .cmd ↔ off = 0x080 :=
  ⟨fun h => BitVec.eq_of_toNat_eq (isAt_of_windowLoc h), by rintro rfl; rfl⟩

theorem windowLoc_eq_buf_iff {p : Params} {off : Word} {a : Nat} :
    windowLoc p off = .buf a ↔ a < p.bufBytes ∧ off.toNat = 0x01000000 + 4 * a := by
  refine ⟨isAt_of_windowLoc, fun ⟨ha, h⟩ => ?_⟩
  have hi : (0x01000000 + 4 * a - 0x01000000) / 4 = a := by omega
  simp (disch := omega) only [windowLoc, h, bufBase, if_neg, if_pos, hi]

/-- Legal parameters keep the end of `BUF` below `DESC` (R6). -/
theorem windowLoc_eq_desc_iff {p : Params} (hp : p.legal = true) {off : Word} {k j : Nat} :
    windowLoc p off = .desc k j ↔ k < p.descEntries ∧ j < 3 ∧ off.toNat = 0x08000000 + 12 * k + 4 * j := by
  refine ⟨isAt_of_windowLoc, fun ⟨hk, hj, h⟩ => ?_⟩
  obtain ⟨-, hmax, -⟩ := bufBytes_bounds hp
  have hk' : (0x08000000 + 12 * k + 4 * j - 0x08000000) / 12 = k := by omega
  have hj' : (0x08000000 + 12 * k + 4 * j - 0x08000000) % 12 / 4 = j := by omega
  simp (disch := omega) only [windowLoc, h, bufBase, descBase, if_neg, if_pos, hk', hj']

theorem windowLoc_unaligned {p : Params} {off : Word} (h : off.toNat % 4 ≠ 0) : windowLoc p off = .reserved :=
  if_pos h

/-- The locations that take a host write other than a command (R72). -/
def WindowLoc.takesWrite : WindowLoc → Bool
  | .reg _ | .grantReg _ | .buf _ | .desc _ _ => true
  | _ => false

/-- A location that takes no write lies outside the registers, `BUF` and `DESC`, or its offset is none of the
map's. -/
theorem offset_of_not_takesWrite {p : Params} (hp : p.legal = true) {off : Word}
    (h : (windowLoc p off).takesWrite = false) :
    off.toNat % 4 ≠ 0
    ∨ (0x050 ≤ off.toNat ∧ ¬ (0x01000000 ≤ off.toNat ∧ off.toNat < 0x01000000 + 4 * p.bufBytes)
      ∧ ¬ (0x08000000 ≤ off.toNat ∧ off.toNat < 0x08000000 + 12 * p.descEntries)) := by
  have hnot : ∀ l, l.takesWrite = true → windowLoc p off ≠ l := by
    rintro l hl rfl
    exact absurd (hl.symm.trans h) nofun
  by_cases halign : off.toNat % 4 ≠ 0
  · exact .inl halign
  refine .inr ⟨?_, ?_, ?_⟩
  · by_contra hlt
    by_cases hx : off.toNat < 0x040
    · exact hnot _ rfl (windowLoc_eq_reg_iff (i := ⟨off.toNat / 4, by omega⟩).2 (by simp only; omega))
    · exact hnot _ rfl (windowLoc_eq_grantReg_iff (i := ⟨(off.toNat - 0x040) / 4, by omega⟩).2 (by simp only; omega))
  · intro hbuf
    exact hnot _ rfl (windowLoc_eq_buf_iff (a := (off.toNat - 0x01000000) / 4).2 ⟨by omega, by omega⟩)
  · intro hdesc
    exact hnot _ rfl ((windowLoc_eq_desc_iff hp (k := (off.toNat - 0x08000000) / 12)
      (j := (off.toNat - 0x08000000) % 12 / 4)).2 ⟨by omega, by omega, by omega⟩)

/-! ### A command word written to `CMD` (R70) -/

theorem step_of_commandWord {s : State} {cw : Word} {rest : List HostAction} {i : Instr}
    (hs : s.script = .write 0x080 cw :: rest) (hi : decode cw = .ok i) :
    step s = exec i { s with script := rest } :=
  step_of_command hs (windowLoc_eq_cmd_iff.2 rfl) hi

theorem withFetchWord_script (s : State) (cw : Word) :
    (s.withFetchWord 32 cw.toNat).script = .write 0x080 cw :: s.script := by
  have hcw : word (cw.toNat % 2 ^ 32) = cw := by
    rw [Nat.mod_eq_of_lt cw.isLt, word, BitVec.ofNat_toNat, BitVec.setWidth_eq]
  rw [State.withFetchWord, hcw]

/-- Settles O5: 0x080 is the offset of `CMD`, and consuming the write that `withFetchWord` puts first gives the
state back. -/
theorem stepRunsTheDecodedCommand : Obligations.StepRunsTheDecodedCommand :=
  ⟨fun _ _ _ _ hs hi => step_of_commandWord hs hi, fun s cw _ hi => step_of_commandWord (withFetchWord_script s cw) hi⟩

/-! ### What a host read returns (R66, R72) -/

theorem windowRead_cmd (s : State) : windowRead s 0x080 = 0 := rfl

theorem windowRead_status (s : State) : windowRead s 0x084 = s.status := rfl

theorem windowRead_fault (s : State) : windowRead s 0x088 = s.fault := rfl

theorem windowRead_cmdcnt (s : State) : windowRead s 0x08C = s.cmdcnt := rfl

section Read

variable {s : State} {off : Word}

theorem windowRead_of_reg {i : Fin 16} (h : off.toNat = 4 * i.val) : windowRead s off = s.reg i := by
  simp only [windowRead, windowLoc_eq_reg_iff.2 h]

theorem windowRead_of_grantReg {i : Fin 4} (h : off.toNat = 0x040 + 4 * i.val) :
    windowRead s off = s.grantReg i := by
  simp only [windowRead, windowLoc_eq_grantReg_iff.2 h]

theorem windowRead_of_buf {a : Nat} (ha : a < s.params.bufBytes) (h : off.toNat = 0x01000000 + 4 * a) :
    windowRead s off = (s.readByte a).setWidth 32 := by
  simp only [windowRead, windowLoc_eq_buf_iff.2 ⟨ha, h⟩, word, BitVec.ofNat_toNat]

theorem windowRead_of_desc (hp : s.params.legal = true) {k j : Nat} (hk : k < s.params.descEntries) (hj : j < 3)
    (h : off.toNat = 0x08000000 + 12 * k + 4 * j) : windowRead s off = descWord (s.descAt k) j := by
  simp only [windowRead, (windowLoc_eq_desc_iff hp).2 ⟨hk, hj, h⟩]

theorem windowRead_unaligned (h : off.toNat % 4 ≠ 0) : windowRead s off = 0 := by
  simp only [windowRead, windowLoc_unaligned h]

/-- `CMD` reads 0, and so does every offset the map does not name (R72). -/
theorem windowRead_elsewhere (hlow : 0x050 ≤ off.toNat)
    (hnamed : off ∉ ([0x084, 0x088, 0x08C, 0x090, 0x094, 0x098] : List Word))
    (hbuf : ¬ (0x01000000 ≤ off.toNat ∧ off.toNat < 0x01000000 + 4 * s.params.bufBytes))
    (hdesc : ¬ (0x08000000 ≤ off.toNat ∧ off.toNat < 0x08000000 + 12 * s.params.descEntries)) :
    windowRead s off = 0 := by
  by_cases hcmd : off = 0x080
  · rw [hcmd, windowRead_cmd]
  · simp only [List.mem_cons, List.not_mem_nil, or_false, not_or, ← BitVec.toNat_inj, BitVec.reduceToNat] at hnamed hcmd
    simp (disch := omega) only [windowRead, windowLoc, bufBase, descBase, if_neg, ite_self]

end Read

/-- Settles O8: the step's equation for a read, and the map row by row. -/
theorem hostReadReturnsTheLocation : Obligations.HostReadReturnsTheLocation := by
  intro s off rest hs
  refine ⟨windowRead s off, step_of_read hs, rfl, fun _ => windowRead_of_reg, fun _ => windowRead_of_grantReg,
    fun h => h ▸ windowRead_cmd s, fun h => h ▸ windowRead_status s, fun h => h ▸ windowRead_fault s,
    fun h => h ▸ windowRead_cmdcnt s, fun h => h ▸ windowRead_mpfId s, fun h => h ▸ windowRead_cap0 s,
    fun h => h ▸ windowRead_cap1 s, fun _ _ => windowRead_of_buf, fun hp k hk => ?_, windowRead_elsewhere,
    windowRead_unaligned⟩
  have hword : ∀ j, j < 3 → off.toNat = 0x08000000 + 12 * k + 4 * j → windowRead s off = descWord (s.descAt k) j :=
    fun j => windowRead_of_desc hp hk
  exact ⟨hword 0 (by decide), hword 1 (by decide), hword 2 (by decide)⟩

/-! ### What a host write leaves alone (R60) -/

theorem windowWrite_cmdcnt (s : State) (off data : Word) : (windowWrite s off data).cmdcnt = s.cmdcnt := by
  unfold windowWrite
  cases windowLoc s.params off <;> rfl

theorem windowWrite_script (s : State) (off data : Word) : (windowWrite s off data).script = s.script := by
  unfold windowWrite
  cases windowLoc s.params off <;> rfl

theorem windowWrite_rdata (s : State) (off data : Word) : (windowWrite s off data).rdata = s.rdata := by
  unfold windowWrite
  cases windowLoc s.params off <;> rfl

/-! ### What a location reads as after a write (R72) -/

/-- `BUF[a] <- b`, as a window write makes it. -/
def State.setByte (s : State) (a : Nat) (b : Byte) : State := { s with buf := tableSet 0 s.buf a b }

/-- Word `j` of `DESC[k]` replaced, as a window write makes it. -/
def State.setDescWord (s : State) (k j : Nat) (v : Word) : State :=
  { s with desc := tableSet Desc.zero s.desc k (descSetWord (s.descAt k) j v) }

@[simp] theorem State.setByte_params (s : State) (a : Nat) (b : Byte) : (s.setByte a b).params = s.params := rfl

@[simp] theorem State.setDescWord_params (s : State) (k j : Nat) (v : Word) :
    (s.setDescWord k j v).params = s.params := rfl

theorem State.readByte_setByte (s : State) (a a' : Nat) (b : Byte) :
    (s.setByte a b).readByte a' = if a' = a then b else s.readByte a' :=
  tableGet_set 0 s.buf a a' b

theorem State.descAt_setDescWord (s : State) (k j k' : Nat) (v : Word) :
    (s.setDescWord k j v).descAt k' = if k' = k then descSetWord (s.descAt k) j v else s.descAt k' :=
  tableGet_set Desc.zero s.desc k k' _

theorem descWord_descSetWord (d : Desc) {j j' : Nat} (v : Word) (hj : j < 3) (hj' : j' < 3) :
    descWord (descSetWord d j v) j' = if j' = j then v else descWord d j' := by
  interval_cases j <;> interval_cases j' <;> rfl

/-- Everything a window write can be: one register, byte or descriptor word is written, or nothing is. -/
theorem windowWrite_cases (s : State) (off v : Word) :
    (∃ i, windowLoc s.params off = .reg i ∧ windowWrite s off v = s.setReg i v)
    ∨ (∃ i, windowLoc s.params off = .grantReg i ∧ windowWrite s off v = s.setGrantReg i v)
    ∨ (∃ a, windowLoc s.params off = .buf a ∧ windowWrite s off v = s.setByte a (v.setWidth 8))
    ∨ (∃ k j, windowLoc s.params off = .desc k j ∧ windowWrite s off v = s.setDescWord k j v)
    ∨ ((windowLoc s.params off).takesWrite = false ∧ windowWrite s off v = s) := by
  unfold windowWrite
  cases windowLoc s.params off with
  | reg i => exact .inl ⟨i, rfl, rfl⟩
  | grantReg i => exact .inr (.inl ⟨i, rfl, rfl⟩)
  | buf a => exact .inr (.inr (.inl ⟨a, rfl, by rw [State.setByte, ← BitVec.ofNat_toNat]⟩))
  | desc k j => exact .inr (.inr (.inr (.inl ⟨k, j, rfl, rfl⟩)))
  | _ => exact .inr (.inr (.inr (.inr ⟨rfl, rfl⟩)))

section ReadAfterWrite

variable {s : State} {off : Word}

theorem windowRead_setReg {i : Fin 16} (v : Word) (h : off.toNat ≠ 4 * i.val) :
    windowRead (s.setReg i v) off = windowRead s off := by
  unfold windowRead
  rw [State.setReg_params]
  cases hloc : windowLoc s.params off with
  | reg j =>
    have hij : j ≠ i := by
      rintro rfl
      exact h (windowLoc_eq_reg_iff.1 hloc)
    simp only [State.reg_setReg, if_neg hij]
  | _ => rfl

theorem windowRead_setGrantReg {i : Fin 4} (v : Word) (h : off.toNat ≠ 0x040 + 4 * i.val) :
    windowRead (s.setGrantReg i v) off = windowRead s off := by
  unfold windowRead
  rw [State.setGrantReg_params]
  cases hloc : windowLoc s.params off with
  | grantReg j =>
    have hij : j ≠ i := by
      rintro rfl
      exact h (windowLoc_eq_grantReg_iff.1 hloc)
    simp only [State.grantReg_setGrantReg, if_neg hij]
  | _ => rfl

theorem windowRead_setByte {a : Nat} (b : Byte) (h : off.toNat ≠ 0x01000000 + 4 * a) :
    windowRead (s.setByte a b) off = windowRead s off := by
  unfold windowRead
  rw [State.setByte_params]
  cases hloc : windowLoc s.params off with
  | buf c =>
    have hac : c ≠ a := by
      rintro rfl
      exact h (windowLoc_eq_buf_iff.1 hloc).2
    simp only [State.readByte_setByte, if_neg hac]
  | _ => rfl

theorem windowRead_setDescWord (hp : s.params.legal = true) {k j : Nat} (v : Word) (hj : j < 3)
    (h : off.toNat ≠ 0x08000000 + 12 * k + 4 * j) :
    windowRead (s.setDescWord k j v) off = windowRead s off := by
  unfold windowRead
  rw [State.setDescWord_params]
  cases hloc : windowLoc s.params off with
  | desc l m =>
    obtain ⟨-, hm, hoff⟩ := (windowLoc_eq_desc_iff hp).1 hloc
    simp only [State.descAt_setDescWord]
    split_ifs with hl
    · rw [descWord_descSetWord _ v hj hm, if_neg (by omega), hl]
    · rfl
  | _ => rfl

end ReadAfterWrite

/-- A host write leaves what every other location reads as: two offsets of one location that takes writes
are equal. -/
theorem windowRead_windowWrite_ne {s : State} (hp : s.params.legal = true) {off off' : Word} (v : Word)
    (hne : off' ≠ off) : windowRead (windowWrite s off v) off' = windowRead s off' := by
  have hother : ∀ n, off.toNat = n → off'.toNat ≠ n := by
    rintro n rfl h
    exact hne (BitVec.eq_of_toNat_eq h)
  obtain ⟨i, hloc, hw⟩ | ⟨i, hloc, hw⟩ | ⟨a, hloc, hw⟩ | ⟨k, j, hloc, hw⟩ | ⟨-, hw⟩ := windowWrite_cases s off v
    <;> rw [hw]
  · exact windowRead_setReg v (hother _ (windowLoc_eq_reg_iff.1 hloc))
  · exact windowRead_setGrantReg v (hother _ (windowLoc_eq_grantReg_iff.1 hloc))
  · exact windowRead_setByte _ (hother _ (windowLoc_eq_buf_iff.1 hloc).2)
  · obtain ⟨-, hj, hoff⟩ := (windowLoc_eq_desc_iff hp).1 hloc
    exact windowRead_setDescWord hp v hj (hother _ hoff)

/-- A `BUF` location keeps bits 7:0 of the word and reads its byte with zeros above (R72). -/
theorem setWidth_setWidth_byte (v : Word) : (v.setWidth 8).setWidth 32 = v &&& 0xFF := by
  apply BitVec.eq_of_toNat_eq
  rw [BitVec.toNat_setWidth, BitVec.toNat_setWidth, BitVec.toNat_and,
    show (0xFF : Word).toNat = 2 ^ 8 - 1 from rfl, Nat.and_two_pow_sub_one_eq_mod]
  omega

/-- What a written location reads as afterwards, by the row of R72 its offset lies in. -/
theorem windowRead_windowWrite_self {s : State} (hp : s.params.legal = true) (off v : Word) :
    windowRead (windowWrite s off v) off =
      if off.toNat % 4 ≠ 0 then windowRead s off
      else if off.toNat < 0x050 then v
      else if 0x01000000 ≤ off.toNat ∧ off.toNat < 0x01000000 + 4 * s.params.bufBytes then v &&& 0xFF
      else if 0x08000000 ≤ off.toNat ∧ off.toNat < 0x08000000 + 12 * s.params.descEntries then v
      else windowRead s off := by
  obtain ⟨-, hmax, -⟩ := bufBytes_bounds hp
  obtain ⟨i, hloc, hw⟩ | ⟨i, hloc, hw⟩ | ⟨a, hloc, hw⟩ | ⟨k, j, hloc, hw⟩ | ⟨hloc, hw⟩ := windowWrite_cases s off v
    <;> rw [hw]
  · have hoff := windowLoc_eq_reg_iff.1 hloc
    rw [if_neg (by omega), if_pos (by omega), windowRead_of_reg hoff, State.reg_setReg, if_pos rfl]
  · have hoff := windowLoc_eq_grantReg_iff.1 hloc
    rw [if_neg (by omega), if_pos (by omega), windowRead_of_grantReg hoff, State.grantReg_setGrantReg, if_pos rfl]
  · obtain ⟨ha, hoff⟩ := windowLoc_eq_buf_iff.1 hloc
    rw [if_neg (by omega), if_neg (by omega), if_pos (by omega), windowRead_of_buf (by exact ha) hoff,
      State.readByte_setByte, if_pos rfl, setWidth_setWidth_byte]
  · obtain ⟨hk, hj, hoff⟩ := (windowLoc_eq_desc_iff hp).1 hloc
    rw [if_neg (by omega), if_neg (by omega), if_neg (by omega), if_pos (by omega),
      windowRead_of_desc (by exact hp) (by exact hk) hj hoff, State.descAt_setDescWord, if_pos rfl,
      descWord_descSetWord _ v hj hj, if_pos rfl]
  · obtain halign | ⟨hlow, hbuf, hdesc⟩ := offset_of_not_takesWrite hp hloc
    · rw [if_pos halign]
    · rw [if_neg (by omega : ¬ off.toNat < 0x050), if_neg hbuf, if_neg hdesc, ite_self]

/-- Settles O9: a write to a location other than `CMD` is a window write, which changes one location
(`windowRead_windowWrite_ne`) as its row of R72 says (`windowRead_windowWrite_self`). -/
theorem hostWriteChangesOneLocation : Obligations.HostWriteChangesOneLocation := by
  intro s off v rest hs hoff hp
  have hcmd : windowLoc s.params off ≠ .cmd := fun h => hoff (windowLoc_eq_cmd_iff.1 h)
  obtain ⟨hstatus, hfault⟩ := windowWrite_marks { s with script := rest } off v
  exact ⟨_, step_of_windowWrite hs hcmd, windowWrite_script _ _ _, windowWrite_params _ _ _, windowWrite_rdata _ _ _,
    windowWrite_hq _ _ _, windowWrite_lc _ _ _, hstatus, hfault, windowWrite_cmdcnt _ _ _,
    fun _ => windowRead_windowWrite_ne (s := { s with script := rest }) hp v,
    windowRead_windowWrite_self (s := { s with script := rest }) hp off v⟩

end Sys2Proof.Machine

/-! ## Command words (R110 to R118) -/

namespace Sys2Proof

/-! ### The fields of a command read back from its word -/

/-- Every command's fields read back from its low 24 bits, constructor by constructor. -/
theorem fieldsReadBack (i : Instr) : Laws.FieldsReadBack.Statement i := by
  cases i with
  | nop => exact Laws.FieldsReadBack.nop
  | sreset => exact Laws.FieldsReadBack.sreset
  | encSub dir lcid => exact Laws.FieldsReadBack.encSub dir lcid
  | encPad => exact Laws.FieldsReadBack.encPad
  | mux dir => exact Laws.FieldsReadBack.mux dir
  | parse dir => exact Laws.FieldsReadBack.parse dir
  | parseBsr variant => exact Laws.FieldsReadBack.parseBsr variant
  | hqAlloc dir dev => exact Laws.FieldsReadBack.hqAlloc dir dev
  | hqMark => exact Laws.FieldsReadBack.hqMark
  | hqResult dir succ proc dev => exact Laws.FieldsReadBack.hqResult dir succ proc dev
  | hqRead dir proc dev => exact Laws.FieldsReadBack.hqRead dir proc dev
  | hqCtx dir proc dev => exact Laws.FieldsReadBack.hqCtx dir proc dev
  | lcReg ch dev => exact Laws.FieldsReadBack.lcReg ch dev
  | lcBuf ch dev => exact Laws.FieldsReadBack.lcBuf ch dev
  | lcTime dev => exact Laws.FieldsReadBack.lcTime dev
  | lcRun dev => exact Laws.FieldsReadBack.lcRun dev
  | lcRead ch dev => exact Laws.FieldsReadBack.lcRead ch dev

/-- The reserved bits of a format lie below the opcode byte. -/
theorem reserved_low (o : Opcode) (x f : Nat) :
    (reservedBits o).all (fun r => bits (2 ^ 24 * x + f) r.1 r.2 == 0)
      = (reservedBits o).all (fun r => bits f r.1 r.2 == 0) := by
  rw [Bool.eq_iff_iff, List.all_eq_true, List.all_eq_true]
  refine forall₂_congr fun r hr => ?_
  obtain ⟨hle, hlt⟩ := reserved_le o r hr
  rw [bits_low x f r.1 r.2 hle hlt]

/-- Settles O1: the opcode byte of the word names the command's opcode, and below it the command's own bits
have its reserved bits zero and give its fields back (`fieldsReadBack`). -/
theorem decodeEncodeRoundTrip : Obligations.DecodeEncodeRoundTrip := by
  intro i hi
  obtain ⟨hreserved, hfields⟩ := fieldsReadBack i hi
  have hop := bits_opcode (opcodeNat (opcodeOf i)) (fieldBits i) (opcodeNat_le _) (fieldBits_lt i hi)
  rw [decode_eq_ok (opcodeOf i) _ _ (encode_toNat i hi) hop ((reserved_low _ _ _).trans hreserved), fieldsOf_low,
    hfields]

/-! ### A word is the encoding of the fields read from it -/

/-- A field is below the power of two of its width. -/
theorem bits_lt (v hi lo : Nat) : bits v hi lo < 2 ^ (hi + 1 - lo) := Nat.mod_lt _ (by positivity)

theorem dirNat_dirOfNat {n : Nat} (h : n < 2) : dirNat (dirOfNat n) = n := by
  interval_cases n <;> rfl

theorem variantNat_variantOfNat {n : Nat} (h : n < 4) : variantNat (variantOfNat n) = n := by
  interval_cases n <;> rfl

theorem bitNat_decide_eq_one {n : Nat} (h : n < 2) : bitNat (decide (n = 1)) = n := by
  interval_cases n <;> rfl

/-- A field read from a word fits the bits it was read from. -/
theorem fieldsOf_wf (o : Opcode) (v : Nat) : (fieldsOf o v).wf = true := by
  have hlcid := bits_lt v 5 0
  have hproc := bits_lt v 19 16
  have hch := bits_lt v 21 16
  have hdev := bits_lt v 15 0
  cases o <;> simp [fieldsOf, Instr.wf, lcidFits, procFits, chFits, devFits] <;> omega

/-- The fields and the reserved bits of a format tile the low 24 bits: with the reserved bits zero, a word's low
24 bits are those of the command of its fields. -/
theorem fieldBits_fieldsOf (o : Opcode) (v : Nat)
    (h : (reservedBits o).all (fun f => bits v f.1 f.2 == 0) = true) : fieldBits (fieldsOf o v) = v % 2 ^ 24 := by
  have hdir := dirNat_dirOfNat (bits_lt v 23 23)
  have hsucc := bitNat_decide_eq_one (bits_lt v 22 22)
  have hvariant := variantNat_variantOfNat (bits_lt v 1 0)
  cases o <;>
    simp only [reservedBits, List.all_cons, List.all_nil, Bool.and_true, Bool.and_eq_true, beq_iff_eq] at h <;>
    simp only [fieldsOf, fieldBits, hdir, hsucc, hvariant] <;>
    simp only [bits] at * <;> omega

/-- Settles O2: the fields fit their bits (`fieldsOf_wf`), and opcode byte and field bits make up the word again
(`fieldBits_fieldsOf`). -/
theorem decodedWordIsItsEncoding : Obligations.DecodedWordIsItsEncoding := by
  intro w i hdecode
  obtain ⟨-, he⟩ | ⟨o, hop, ⟨hreserved, hok⟩ | ⟨-, he⟩⟩ := decode_cases w
  · rw [he] at hdecode; cases hdecode
  · obtain rfl := Except.ok.inj (hok.symm.trans hdecode)
    have hwf := fieldsOf_wf o w.toNat
    refine ⟨hwf, BitVec.eq_of_toNat_eq ?_⟩
    rw [encode_toNat _ hwf, opcodeOf_fieldsOf, fieldBits_fieldsOf o _ hreserved, hop, bits_31_24]
    exact Nat.div_add_mod _ _
  · rw [he] at hdecode; cases hdecode

/-! ### The mask of a row is the opcode byte and the format's reserved bits -/

/-- A word decodes to a command of an opcode exactly where its opcode byte names it and the reserved bits of its
format are zero (R118). -/
theorem decode_opcode_iff (w : Word) (o : Opcode) :
    (∃ i, decode w = .ok i ∧ opcodeOf i = o)
      ↔ bits w.toNat 31 24 = opcodeNat o ∧ ∀ f ∈ reservedBits o, bits w.toNat f.1 f.2 = 0 := by
  constructor
  · rintro ⟨i, hdecode, rfl⟩
    obtain ⟨-, he⟩ | ⟨o, hop, ⟨hreserved, hok⟩ | ⟨-, he⟩⟩ := decode_cases w
    · rw [he] at hdecode; cases hdecode
    · obtain rfl := Except.ok.inj (hok.symm.trans hdecode)
      rw [opcodeOf_fieldsOf]
      exact ⟨hop.symm, by simpa using hreserved⟩
    · rw [he] at hdecode; cases hdecode
  · rintro ⟨hop, hreserved⟩
    exact ⟨fieldsOf o w.toNat, decode_eq_ok o w _ rfl hop (by simpa using hreserved), opcodeOf_fieldsOf _ _⟩

/-- The mask of the field `(hi, lo)`. -/
def fieldMask (f : Nat × Nat) : Word := (BitVec.allOnes (f.1 + 1 - f.2)).setWidth 32 <<< f.2

/-- Under the mask of a field, a word is the field in its place. -/
theorem and_fieldMask (w : Word) (hi lo : Nat) :
    w &&& fieldMask (hi, lo) = (w.extractLsb' lo (hi + 1 - lo)).setWidth 32 <<< lo := by
  ext i hi'
  by_cases h : i < lo
  · simp [fieldMask, h]
  · have hlo : lo + (i - lo) = i := by omega
    simp [fieldMask, h, hlo, Bool.and_comm, BitVec.getLsbD_eq_getElem hi']

/-- A field put in its place in a word loses no bit. -/
theorem toNat_setWidth_shiftLeft {n lo : Nat} (x : BitVec n) (h : lo + n ≤ 32) :
    (x.setWidth 32 <<< lo).toNat = 2 ^ lo * x.toNat := by
  have hx : 2 ^ lo * x.toNat < 2 ^ 32 := calc
    2 ^ lo * x.toNat < 2 ^ lo * 2 ^ n := Nat.mul_lt_mul_of_pos_left x.isLt (by positivity)
    _ = 2 ^ (lo + n) := (pow_add 2 lo n).symm
    _ ≤ 2 ^ 32 := Nat.pow_le_pow_right (by decide) h
  have hx' : x.toNat < 2 ^ 32 := (Nat.le_mul_of_pos_left _ (by positivity)).trans_lt hx
  rw [BitVec.toNat_shiftLeft, BitVec.toNat_setWidth, Nat.mod_eq_of_lt hx', Nat.shiftLeft_eq, mul_comm,
    Nat.mod_eq_of_lt hx]

theorem toNat_and_fieldMask (w : Word) {hi lo : Nat} (hlo : lo ≤ hi) (hhi : hi < 32) :
    (w &&& fieldMask (hi, lo)).toNat = 2 ^ lo * bits w.toNat hi lo := by
  rw [and_fieldMask, toNat_setWidth_shiftLeft _ (by omega), Machine.bits_toNat]

/-- A comparison under two masks, the first of which keeps no bit of the value, is one under each. -/
theorem and_or_eq_iff {w a b v : Word} (h : a &&& v = 0) : w &&& (a ||| b) = v ↔ w &&& a = 0 ∧ w &&& b = v := by
  have hdistrib : w &&& (a ||| b) = w &&& a ||| w &&& b := BitVec.and_or_distrib_left
  constructor
  · rintro rfl
    have ha : w &&& a = 0 := by
      rw [← h]
      ext i
      grind
    exact ⟨ha, by rw [hdistrib, ha]; exact BitVec.zero_or.symm⟩
  · rintro ⟨ha, hb⟩
    rw [hdistrib, ha, hb]
    exact BitVec.zero_or

/-- The mask column is the opcode byte and the reserved bits of the row's format (R111 to R116). -/
theorem tableMask_eq (o : Opcode) :
    tableMask o = (reservedBits o).foldr (fun f m => fieldMask f ||| m) (fieldMask (31, 24)) := by
  cases o <;> decide

theorem tableMatch_toNat (o : Opcode) : (tableMatch o).toNat = 2 ^ 24 * opcodeNat o := by cases o <;> rfl

theorem reserved_and_match (o : Opcode) : ∀ f ∈ reservedBits o, fieldMask f &&& tableMatch o = 0 := by
  cases o <;> decide

/-- Under the masks of a list of fields and one further mask, a word agrees with a value outside the fields
exactly where the fields are zero and it agrees under the further mask. -/
theorem and_fieldMasks_eq_iff {w v m : Word} {fs : List (Nat × Nat)} (h : ∀ f ∈ fs, fieldMask f &&& v = 0) :
    w &&& fs.foldr (fun f m => fieldMask f ||| m) m = v ↔ (∀ f ∈ fs, w &&& fieldMask f = 0) ∧ w &&& m = v := by
  induction fs with
  | nil => simp
  | cons f fs ih =>
    rw [List.forall_mem_cons] at h ⊢
    rw [List.foldr_cons, and_or_eq_iff h.1, ih h.2, and_assoc]

/-- Settles O3: by `decode_opcode_iff` and, the mask being those fields, `and_fieldMasks_eq_iff`. -/
theorem decodeAgreesWithOpcodeTable : Obligations.DecodeAgreesWithOpcodeTable := by
  intro w o
  have hop : w &&& fieldMask (31, 24) = tableMatch o ↔ bits w.toNat 31 24 = opcodeNat o := by
    rw [← BitVec.toNat_inj, toNat_and_fieldMask w (by decide) (by decide), tableMatch_toNat]
    exact Nat.mul_right_inj (by positivity)
  have hfield : ∀ f ∈ reservedBits o, w &&& fieldMask f = 0 ↔ bits w.toNat f.1 f.2 = 0 := fun f hf => by
    obtain ⟨hle, hlt⟩ := reserved_le o f hf
    rw [← BitVec.toNat_inj, toNat_and_fieldMask w hle (by omega)]
    simp
  rw [decode_opcode_iff, tableMask_eq, and_fieldMasks_eq_iff (reserved_and_match o), hop,
    forall₂_congr hfield, and_comm]

end Sys2Proof

namespace Sys2Proof.Machine

/-! ### Words of the listings, and words of no row (R118) -/

/-- Settles O4: each word is a closed term, so decoding it is an evaluation. -/
theorem sampleWordsDecode : Obligations.SampleWordsDecode := ⟨rfl, rfl, rfl, rfl, rfl, rfl, rfl, rfl⟩

theorem decode_error_of_no_row {cw : Word} (h : ∀ o, cw &&& tableMask o ≠ tableMatch o) :
    ∃ e, decode cw = .error e := by
  cases hd : decode cw with
  | error e => exact ⟨e, rfl⟩
  | ok i => exact absurd ((decodeAgreesWithOpcodeTable cw (opcodeOf i)).1 ⟨i, hd, rfl⟩) (h _)

/-- Settles O6: a word of no row does not decode (`decodeAgreesWithOpcodeTable`), and the step's equation for such
a word is the refusal with code 1. -/
theorem illegalWordIsRefused : Obligations.IllegalWordIsRefused := by
  intro s cw rest hs hrow
  obtain ⟨e, he⟩ := decode_error_of_no_row hrow
  exact step_of_illegalWord hs (windowLoc_eq_cmd_iff.2 rfl) he

/-! ## What the parser ignores (R97, R99) -/

/-! ### The walk, one equation for each way its next step can go (R151) -/

section Walk

variable {dir : Dir} {pdu : List Byte} {fuel cur : Nat} {items : List SubPdu}

theorem parseFrom_padding (hcur : cur < pdu.length) (hpad : headerLcid (byteAt pdu cur) = padLcid) :
    parseFrom dir pdu (fuel + 1) cur items = .ok ⟨items, cur, true⟩ := by
  rw [parseFrom, if_neg (by omega)]
  exact if_pos hpad

theorem parseFrom_subPdu {hl len : Nat} (hcur : cur < pdu.length)
    (hid : lenIds dir (headerLcid (byteAt pdu cur)) = true) (hfield : lengthField pdu cur = some (hl, len))
    (hend : cur + hl + len ≤ pdu.length) :
    parseFrom dir pdu (fuel + 1) cur items = parseFrom dir pdu fuel (cur + hl + len)
      (items ++ [⟨headerLcid (byteAt pdu cur), cur + hl, slice pdu (cur + hl) len⟩]) := by
  have hpad : headerLcid (byteAt pdu cur) ≠ padLcid := fun h =>
    absurd (lenIds_bound hid).2 (h ▸ by decide)
  simp only [parseFrom, hfield, hid, if_neg (Nat.not_le.2 hcur), if_neg hpad, if_neg (Nat.not_lt.2 hend)]
  rfl

/-- Everything an accepted walk's next step can be: the end of the PDU, a padding header, or a sub-PDU. -/
theorem parseFrom_ok_cases {r : Parsed} (h : parseFrom dir pdu (fuel + 1) cur items = .ok r) :
    (pdu.length ≤ cur ∧ r = ⟨items, cur, false⟩)
    ∨ (cur < pdu.length ∧ headerLcid (byteAt pdu cur) = padLcid ∧ r = ⟨items, cur, true⟩)
    ∨ ∃ hl len, cur < pdu.length ∧ lenIds dir (headerLcid (byteAt pdu cur)) = true
        ∧ lengthField pdu cur = some (hl, len) ∧ cur + hl + len ≤ pdu.length
        ∧ parseFrom dir pdu fuel (cur + hl + len)
            (items ++ [⟨headerLcid (byteAt pdu cur), cur + hl, slice pdu (cur + hl) len⟩]) = .ok r := by
  rw [parseFrom] at h
  split at h
  · rename_i hend
    exact .inl ⟨hend, (Except.ok.inj h).symm⟩
  rename_i hcur
  simp only at h
  split at h
  · rename_i hpad
    exact .inr (.inl ⟨by omega, hpad, (Except.ok.inj h).symm⟩)
  split at h; · cases h
  rename_i hid
  split at h; · cases h
  rename_i hl len hfield
  split at h; · cases h
  exact .inr (.inr ⟨hl, len, by omega, by simpa using hid, hfield, by omega, h⟩)

end Walk

/-! ### Two PDUs that the parser reads alike -/

/-- The two PDUs are as long, their headers read the same at every cursor, and so do their bytes where a payload
can start. -/
structure ReadAlike (p q : List Byte) : Prop where
  length : p.length = q.length
  lcid : ∀ cur, headerLcid (byteAt p cur) = headerLcid (byteAt q cur)
  field : ∀ cur, lengthField p cur = lengthField q cur
  payload : ∀ a n, 2 ≤ a → slice p a n = slice q a n

/-- The walk reads nothing of a PDU but header fields, and bytes behind a header. -/
theorem ReadAlike.parseFrom_eq {p q : List Byte} (h : ReadAlike p q) (dir : Dir) (fuel cur : Nat)
    (items : List SubPdu) : parseFrom dir p fuel cur items = parseFrom dir q fuel cur items := by
  induction fuel generalizing cur items with
  | zero => rfl
  | succ fuel ih =>
    simp only [parseFrom, h.length, h.lcid cur, h.field cur]
    cases hfield : lengthField q cur with
    | none => rfl
    | some f =>
      have hhl := (lengthField_bound hfield).1
      simp only [h.payload (cur + f.1) f.2 (by omega), ih]

theorem ReadAlike.parse_eq {p q : List Byte} (h : ReadAlike p q) (dir : Dir) : parse p dir = parse q dir := by
  rw [parse, parse, h.length, h.parseFrom_eq]

/-- First header bytes with the same channelId and the same flag read alike. -/
theorem readAlike_cons {b c : Byte} (hlcid : headerLcid b = headerLcid c) (hf : headerF b = headerF c)
    (rest : List Byte) : ReadAlike (b :: rest) (c :: rest) where
  length := rfl
  lcid
    | 0 => hlcid
    | _ + 1 => rfl
  field
    | 0 => by
      have hb : byteAt (b :: rest) 0 = b := rfl
      have hc : byteAt (c :: rest) 0 = c := rfl
      simp only [lengthField, hb, hc, hf]
      rfl
    | _ + 1 => rfl
  payload
    | _ + 1, _, _ => rfl

/-- Bit 7 is in neither field of a header (R91). -/
theorem header_xor_bit7 (h : Byte) :
    headerLcid (h ^^^ 0x80) = headerLcid h ∧ headerF (h ^^^ 0x80) = headerF h := by
  refine ⟨?_, ?_⟩
  · have hmod := Nat.xor_mod_two_pow (a := h.toNat) (b := 0x80) (n := 6)
    rw [headerLcid_eq, headerLcid_eq, BitVec.toNat_xor]
    simpa using hmod
  · simp [headerF_eq]

/-! ### The bytes after a padding header -/

section Append

variable {pdu tail : List Byte} {cur : Nat}

theorem byteAt_append (h : cur < pdu.length) : byteAt (pdu ++ tail) cur = byteAt pdu cur :=
  List.getD_append _ _ _ _ h

theorem byteAt_append_length (h : Byte) : byteAt (pdu ++ h :: tail) pdu.length = h := by
  simp [byteAt]

theorem slice_append {a n : Nat} (h : a + n ≤ pdu.length) : slice (pdu ++ tail) a n = slice pdu a n := by
  rw [slice, slice, List.drop_append_of_le_length (by omega), List.take_append_of_le_length (by simp; omega)]

/-- A length field that lies in the PDU is read the same whatever follows the PDU. -/
theorem lengthField_append {f : Nat × Nat} (h : lengthField pdu cur = some f) :
    lengthField (pdu ++ tail) cur = some f := by
  have hbyte : ∀ i, i < pdu.length → byteAt (pdu ++ tail) i = byteAt pdu i := fun _ => byteAt_append
  have hlen : pdu.length ≤ (pdu ++ tail).length := by simp
  obtain ⟨hf, hle, heq⟩ | ⟨-, -, heq⟩ | ⟨hf, hle, heq⟩ | ⟨-, -, heq⟩ := lengthField_cases pdu cur <;> rw [heq] at h
  · rw [lengthField, hbyte cur (by omega), hbyte (cur + 1) (by omega), hbyte (cur + 2) (by omega), if_pos hf,
      if_pos (hle.trans hlen), h]
  · cases h
  · rw [lengthField, hbyte cur (by omega), hbyte (cur + 1) (by omega), hf, if_neg (by decide),
      if_pos (hle.trans hlen), h]
  · cases h

end Append

/-- A walk that reaches the end of a PDU without padding goes the same way in a longer PDU, and a padding header
that follows ends it there. -/
theorem parseFrom_append_padding {dir : Dir} {pdu tail : List Byte} {h : Byte} {r : Parsed}
    (hpad : headerLcid h = padLcid) {fuel fuel' cur : Nat} {items : List SubPdu} (hcur : cur ≤ pdu.length)
    (hfuel : pdu.length ≤ cur + fuel) (hfuel' : fuel < fuel')
    (hok : parseFrom dir pdu fuel cur items = .ok r) (hseen : r.padSeen = false) :
    parseFrom dir (pdu ++ h :: tail) fuel' cur items = .ok ⟨r.items, pdu.length, true⟩ := by
  have hlen : (pdu ++ h :: tail).length = pdu.length + (tail.length + 1) := by simp
  have hend : ∀ n l, parseFrom dir (pdu ++ h :: tail) (n + 1) pdu.length l = .ok ⟨l, pdu.length, true⟩ := fun n l =>
    parseFrom_padding (by omega) (by rw [byteAt_append_length, hpad])
  induction fuel generalizing cur items fuel' with
  | zero =>
    obtain ⟨n, rfl⟩ : ∃ n, fuel' = n + 1 := ⟨fuel' - 1, by omega⟩
    obtain rfl : cur = pdu.length := by omega
    obtain rfl := Except.ok.inj hok
    exact hend n items
  | succ fuel ih =>
    obtain ⟨n, rfl⟩ : ∃ n, fuel' = n + 1 := ⟨fuel' - 1, by omega⟩
    obtain ⟨hle, rfl⟩ | ⟨-, -, rfl⟩ | ⟨hl, len, hlt, hid, hfield, hfits, hrest⟩ := parseFrom_ok_cases hok
    · obtain rfl : cur = pdu.length := by omega
      exact hend n items
    · cases hseen
    · have hhl := (lengthField_bound hfield).1
      have hbyte : byteAt (pdu ++ h :: tail) cur = byteAt pdu cur := byteAt_append hlt
      rw [parseFrom_subPdu (by omega) (by rwa [hbyte]) (lengthField_append hfield) (by omega), hbyte,
        slice_append hfits]
      exact ih hfits (by omega) (by omega) hrest

theorem parse_padding {dir : Dir} {h : Byte} {rest : List Byte} (hpad : headerLcid h = padLcid) :
    parse (h :: rest) dir = .ok ⟨[], 0, true⟩ :=
  parseFrom_padding (by simp) hpad

theorem parse_append_padding {dir : Dir} {pdu tail : List Byte} {h : Byte} {r : Parsed}
    (hpad : headerLcid h = padLcid) (hok : parse pdu dir = .ok r) (hseen : r.padSeen = false) :
    parse (pdu ++ h :: tail) dir = .ok ⟨r.items, pdu.length, true⟩ :=
  parseFrom_append_padding hpad (by omega) (by omega) (by simp) hok hseen

/-- Settles O31: a header's reserved bits are in none of the fields the walk reads (`ReadAlike.parse_eq`,
`parse_padding`), and the walk ends at a padding header whatever follows it (`parse_append_padding`). -/
theorem reservedBitsAndPaddingAreIgnored : Obligations.ReservedBitsAndPaddingAreIgnored := by
  refine ⟨fun dir h rest => ?_, fun dir h rest hpad => ?_, fun dir pdu tail tail' h r hpad hok hseen => ?_⟩
  · obtain ⟨hlcid, hf⟩ := header_xor_bit7 h
    exact (readAlike_cons hlcid hf rest).parse_eq dir
  · exact parse_padding ((headerLcid_eq h).trans hpad)
  · have hlcid : headerLcid h = padLcid := (headerLcid_eq h).trans hpad
    exact ⟨parse_append_padding hlcid hok hseen,
      (parse_append_padding hlcid hok hseen).trans (parse_append_padding hlcid hok hseen).symm⟩

/-! ## A command that is accepted (R251) -/

/-- An accepted effect does not count itself and leaves the host's side alone. -/
theorem effectOf_hostSide {i : Instr} {s t : State} (h : effectOf i s = .ok t) :
    t.cmdcnt = s.cmdcnt ∧ t.script = s.script ∧ t.rdata = s.rdata := by
  cases i with
  | nop | sreset => obtain rfl := Except.ok.inj h; exact ⟨rfl, rfl, rfl⟩
  | encSub dir lcid => obtain ⟨out, -, -, -, -, -, rfl⟩ := encSub_ok h; exact ⟨rfl, rfl, rfl⟩
  | encPad => obtain ⟨out, -, -, rfl⟩ := encPad_ok h; exact ⟨rfl, rfl, rfl⟩
  | mux dir => obtain ⟨-, -, -, -, rfl⟩ := muxCmd_ok h; exact ⟨rfl, rfl, rfl⟩
  | parse dir => obtain ⟨r, -, -, rfl⟩ := parseCmd_ok h; exact ⟨rfl, rfl, rfl⟩
  | parseBsr variant => obtain ⟨r, -, -, rfl⟩ := parseBsrCmd_ok h; exact ⟨rfl, rfl, rfl⟩
  | hqAlloc dir dev => obtain ⟨-, ⟨-, rfl⟩ | ⟨proc, -, rfl⟩⟩ := hqAlloc_ok h <;> exact ⟨rfl, rfl, rfl⟩
  | hqMark => obtain ⟨r, -, -, rfl⟩ := hqMark_ok h; exact ⟨rfl, rfl, rfl⟩
  | hqResult dir succ proc dev => obtain ⟨r, outcome, -, -, rfl⟩ := hqResult_ok h; exact ⟨rfl, rfl, rfl⟩
  | hqRead dir proc dev => obtain ⟨-, rfl⟩ := hqRead_ok h; exact ⟨rfl, rfl, rfl⟩
  | hqCtx dir proc dev => obtain ⟨-, -, rfl⟩ := hqCtx_ok h; exact ⟨rfl, rfl, rfl⟩
  | lcReg ch dev => obtain ⟨-, -, -, rfl⟩ := lcReg_ok h; exact ⟨rfl, rfl, rfl⟩
  | lcBuf ch dev => obtain ⟨-, rfl⟩ := lcBuf_ok h; exact ⟨rfl, rfl, rfl⟩
  | lcTime dev => obtain ⟨-, l, -, rfl⟩ := lcTime_ok h; rw [lcTimeOver_eq]; exact ⟨rfl, rfl, rfl⟩
  | lcRun dev => obtain ⟨-, run, -, rfl⟩ := lcRun_ok h; rw [writeBack_eq]; exact ⟨rfl, rfl, rfl⟩
  | lcRead ch dev => obtain ⟨-, rfl⟩ := lcRead_ok h; exact ⟨rfl, rfl, rfl⟩

/-- The end of an accepted effect. -/
theorem accepted_complete {i : Instr} {s t : State} (h : effectOf i s = .ok t) : Accepted s t.complete := by
  obtain ⟨-, hfault⟩ := effectOf_marks h
  obtain ⟨hcmdcnt, hscript, hrdata⟩ := effectOf_hostSide h
  refine ⟨?_, rfl, hfault, ?_, (effectOf_params h :), hscript, hrdata⟩
  · rw [State.reg_complete, if_pos rfl]; rfl
  · rw [State.complete_cmdcnt, hcmdcnt]

theorem exec_of_effect {i : Instr} {s t : State} (hi : i ≠ .sreset) (h : effectOf i s = .ok t) :
    exec i s = .next t.complete := by
  rw [exec_eq_settle i s hi, h, State.settle_ok]

/-! ## PARSE_BSR on the short forms (R102, R154, R155) -/

theorem State.fits_eq_true {s : State} {off n : Nat} : s.fits off n = true ↔ off + n ≤ s.params.bufBytes :=
  decide_eq_true_iff

/-- A report of at least one byte in a short form is its first byte's entry (R102). -/
theorem parseBufferStatusReport_short (p : Params) {v : BsrVariant} {bytes : List Byte} (hv : variantIsShort v = true)
    (hlen : 1 ≤ bytes.length) :
    parseBufferStatusReport p v bytes
      = .ok [⟨bsrGroup (byteAt bytes 0), p.bsr5.getD (bsrLevel (byteAt bytes 0)) 0, false⟩] := by
  rw [parseBufferStatusReport, if_neg (by omega), if_pos hv]

theorem parseBsrCmd_of_report {v : BsrVariant} {s : State} {r : List BsrEntry}
    (hfits : s.fits (s.argN 0) (s.argN 1) = true)
    (hreport : parseBufferStatusReport s.params v (s.readBytes (s.argN 0) (s.argN 1)) = .ok r) :
    parseBsrCmd v s = .ok ((s.writeDescs (r.map bsrDesc)).result 8 r.length) := by
  simp only [parseBsrCmd, hfits, hreport]
  rfl

/-- The descriptor of a short report's entry, its fields as bits of the byte. -/
theorem bsrDesc_short (p : Params) (b : Byte) :
    bsrDesc ⟨bsrGroup b, p.bsr5.getD (bsrLevel b) 0, false⟩
      = ⟨(b.extractLsb' 5 3).setWidth 32, p.bsr5.getD (b.extractLsb' 0 5).toNat 0, 0⟩ := by
  rw [bsrDesc, bsrGroup, bsrLevel, bits_toNat, bits_toNat, word, BitVec.ofNat_toNat]
  rfl

/-- Settles O33: the region passes its check, the report is one entry (`parseBufferStatusReport_short`), and the
command lists it. -/
theorem parseBsrShortForms : Obligations.ParseBsrShortForms := by
  intro v s hv off n b hn hfits
  have hshort : variantIsShort v = true := by obtain rfl | rfl := hv <;> rfl
  have hbyte : byteAt (s.readBytes off n) 0 = b := State.getD_readBytes s off n 0 hn
  have hreport := parseBufferStatusReport_short s.params hshort
    (bytes := s.readBytes off n) (by rwa [State.length_readBytes])
  rw [hbyte] at hreport
  have heff : effectOf (.parseBsr v) s = _ := parseBsrCmd_of_report (State.fits_eq_true.2 hfits) hreport
  refine ⟨_, exec_of_effect nofun heff, accepted_complete heff, fun i hi hi15 => ?_, ?_, fun k => ?_, rfl, rfl, rfl,
    rfl⟩
  · have hi8 : i ≠ 8 := by simpa using hi
    simp [hi8, hi15]
  · simp
  · rw [State.descAt_complete, State.descAt_result, State.descAt_writeDescs, List.map_singleton, bsrDesc_short]

/-! ## A grant through mark, failure and context (R107, R175, R177, R180) -/

theorem dirOfNat_bit {w : Nat} (b : BitVec w) (i : Nat) :
    dirOfNat (bits b.toNat i i) = if b.getLsbD i then .ul else .dl := by
  have hbit : bits b.toNat i i < 2 := by simpa using bits_lt b.toNat i i
  rw [dirOfNat]
  by_cases h : b.getLsbD i = true
  · rw [if_pos h, if_neg (by rw [(bits_self_eq_one b i).2 h]; decide)]
  · have hne : bits b.toNat i i ≠ 1 := fun h1 => h ((bits_self_eq_one b i).1 h1)
    rw [if_neg h, if_pos (by omega)]

/-- The addressing fields of a grant as bits of `g[0]` (R106). -/
theorem grantOf_address (s : State) :
    grantDev (grantOf s) = (s.grantReg 0).toNat % 65536
    ∧ grantDir (grantOf s) = (if (s.grantReg 0).getLsbD 16 then .ul else .dl)
    ∧ grantProc (grantOf s) = (s.grantReg 0).toNat / 2 ^ 17 % 16
    ∧ grantIsRetx (grantOf s) = (s.grantReg 0).getLsbD 21 := by
  obtain ⟨hdev, hdir, hproc, hretx⟩ := grantOf_fields s
  refine ⟨?_, ?_, hproc, ?_⟩
  · rw [hdev, bits, pow_zero, Nat.div_one]; rfl
  · rw [hdir, dirOfNat_bit]
  · rw [hretx, Bool.eq_iff_iff, decide_eq_true_iff, bits_self_eq_one]

/-- HQ_MARK on an existing process writes the record `markBusy` returns (R174). -/
theorem hqMark_of_markBusy {s : State} {dev proc : Nat} {dir : Dir} {r : HarqRec}
    (hdev : grantDev (grantOf s) = dev) (hdir : grantDir (grantOf s) = dir) (hproc : grantProc (grantOf s) = proc)
    (haddr : checkAddr s.params dev proc = none)
    (hmark : markBusy (s.harq dev dir proc) (grantOf s) (s.reg 0) = .ok r) :
    hqMark s = .ok ((((s.setHarq dev dir proc r).result 8 (bitNat r.lastNDI)).result 9 r.pos).result 10
      (rvAt s.params r.pos)) := by
  simp only [hqMark, hdev, hdir, hproc, haddr, hmark]

/-- HQ_RESULT on an existing process writes the record `onReceptionResult` returns (R176). -/
theorem hqResult_of_report {s : State} {dev proc outcome : Nat} {dir : Dir} {succ : Bool} {r : HarqRec}
    (haddr : checkAddr s.params dev proc = none)
    (hreport : onReceptionResult s.params (s.harq dev dir proc) succ = .ok (r, outcome)) :
    hqResult dir succ proc dev s = .ok ((s.setHarq dev dir proc r).result 8 outcome) := by
  simp only [hqResult, haddr, hreport]

/-- HQ_CTX on a process with a context unpacks it into the staging registers (R180). -/
theorem hqCtx_of_ctx {s : State} {dev proc : Nat} {dir : Dir} (haddr : checkAddr s.params dev proc = none)
    (hctx : (s.harq dev dir proc).hasCtx = true) :
    hqCtx dir proc dev s = .ok (((((s.setGrantReg 0 (grantWord (s.harq dev dir proc).ctx 0)).setGrantReg 1
      (grantWord (s.harq dev dir proc).ctx 1)).setGrantReg 2 (grantWord (s.harq dev dir proc).ctx 2)).setGrantReg 3
      (grantWord (s.harq dev dir proc).ctx 3)).setReg 8 (s.harq dev dir proc).lastTBS) := by
  simp only [hqCtx, haddr, hctx]
  rfl

theorem exec_hqMark_of_markBusy {s : State} {dev proc : Nat} {dir : Dir} {r : HarqRec}
    (hdev : grantDev (grantOf s) = dev) (hdir : grantDir (grantOf s) = dir) (hproc : grantProc (grantOf s) = proc)
    (haddr : checkAddr s.params dev proc = none)
    (hmark : markBusy (s.harq dev dir proc) (grantOf s) (s.reg 0) = .ok r) :
    ∃ t, exec .hqMark s = .next t ∧ t.params = s.params ∧ t.harq dev dir proc = r :=
  ⟨_, exec_of_effect nofun (hqMark_of_markBusy hdev hdir hproc haddr hmark), by simp, by simp⟩

theorem exec_hqResult_of_report {s : State} {dev proc outcome : Nat} {dir : Dir} {succ : Bool} {r : HarqRec}
    (haddr : checkAddr s.params dev proc = none)
    (hreport : onReceptionResult s.params (s.harq dev dir proc) succ = .ok (r, outcome)) :
    ∃ t, exec (.hqResult dir succ proc dev) s = .next t ∧ t.params = s.params ∧ t.harq dev dir proc = r :=
  ⟨_, exec_of_effect nofun (hqResult_of_report haddr hreport), by simp, by simp⟩

theorem exec_hqCtx_of_ctx {s : State} {dev proc : Nat} {dir : Dir} (haddr : checkAddr s.params dev proc = none)
    (hctx : (s.harq dev dir proc).hasCtx = true) :
    ∃ t, exec (.hqCtx dir proc dev) s = .next t ∧ t.reg 15 = 0 ∧ t.reg 8 = (s.harq dev dir proc).lastTBS
      ∧ ∀ i : Fin 4, t.grantReg i = grantWord (s.harq dev dir proc).ctx i := by
  refine ⟨_, exec_of_effect nofun (hqCtx_of_ctx haddr hctx), by simp, by simp, fun i => ?_⟩
  fin_cases i <;> simp

/-- A New grant on a Free process (R175). -/
theorem markBusy_new {r : HarqRec} {grant : GrantBits} (tbs : Word) (hnew : grantIsRetx grant = false)
    (hfree : r.state = .free) :
    markBusy r grant tbs
      = .ok { r with state := .busy, grant := grant, grantTbs := tbs, lastNDI := !r.lastNDI, pos := 0 } := by
  simp [markBusy, hnew, hfree]

/-- A failure of a New grant before the last redundancy version keeps the grant and its size as context (R177). -/
theorem onReceptionResult_failure {p : Params} {r : HarqRec} (hbusy : r.state = .busy) (hpos : r.pos ≠ p.rvLen - 1)
    (hnew : grantIsRetx r.grant = false) :
    onReceptionResult p r false
      = .ok ({ r with ctx := r.grant, hasCtx := true, lastTBS := r.grantTbs }, outcomeRetx) := by
  simp [onReceptionResult, hbusy, hpos, hnew]

/-- Settles O41: the mark stores the grant and its size in the record (`markBusy_new`), the failure keeps them as
the context (`onReceptionResult_failure`), and HQ_CTX unpacks the context (`hqCtx_of_ctx`), which is the inverse
of packing it (`grantWord_grantOf`). -/
theorem grantIsCarriedVerbatim : Obligations.GrantIsCarriedVerbatim := by
  intro s g0 dev dir proc hdev hdev' hproc hnew hfree hrv
  obtain ⟨hgrantDev, hgrantDir, hgrantProc, hretx⟩ := grantOf_address s
  have haddr : checkAddr s.params dev proc = none := checkAddr_none.2 ⟨hdev, hdev', hproc⟩
  have hnewGrant : grantIsRetx (grantOf s) = false := hretx.trans hnew
  obtain ⟨t, ht, htparams, htrec⟩ := exec_hqMark_of_markBusy hgrantDev hgrantDir hgrantProc haddr
    (markBusy_new (s.reg 0) hnewGrant hfree)
  rw [← htparams] at haddr hrv
  obtain ⟨u, hu, huparams, hurec⟩ := exec_hqResult_of_report haddr
    (onReceptionResult_failure (by rw [htrec]) (by rw [htrec]; show 0 ≠ _; omega) (by rwa [htrec]))
  rw [← huparams] at haddr
  obtain ⟨v, hv, hstatus, hsize, hgrant⟩ := exec_hqCtx_of_ctx haddr (by rw [hurec])
  refine ⟨t, u, v, ht, hu, hv, hstatus, ?_, fun i => ?_⟩
  · rw [hsize, hurec, htrec]
  · rw [hgrant, hurec, htrec, grantWord_grantOf]

end Sys2Proof.Machine

/-! ## The walk of the parser (R151) -/

namespace Sys2Proof.Machine

/-! ### What a header announces (R95) -/

section Announces

variable {pdu : List Byte} {cur hl len : Nat}

theorem exists_announces (pdu : List Byte) (cur : Nat) : ∃ hl len, Announces pdu cur hl len := by
  unfold Announces
  split_ifs
  · exact ⟨_, _, rfl, rfl⟩
  · exact ⟨_, _, rfl, rfl⟩

theorem Announces.two_le (h : Announces pdu cur hl len) : 2 ≤ hl := by
  unfold Announces at h
  split_ifs at h <;> omega

/-- The length field is read where it lies in the PDU. -/
theorem Announces.lengthField_eq (h : Announces pdu cur hl len) :
    lengthField pdu cur = if cur + hl ≤ pdu.length then some (hl, len) else none := by
  unfold Announces at h
  rw [lengthField, headerF_eq]
  split_ifs at h with hf
  · obtain ⟨rfl, rfl⟩ := h
    exact if_pos hf
  · obtain ⟨rfl, rfl⟩ := h
    exact if_neg hf

end Announces

/-! ### The walk has one outcome, and `parse` returns it -/

section Walk

variable {dir : Dir} {pdu : List Byte} {fuel cur : Nat} {items : List SubPdu}

theorem parseFrom_atEnd (hcur : pdu.length ≤ cur) : parseFrom dir pdu fuel cur items = .ok ⟨items, cur, false⟩ := by
  cases fuel with
  | zero => rfl
  | succ n => exact if_pos hcur

theorem parseFrom_badId (hcur : cur < pdu.length) (hpad : headerLcid (byteAt pdu cur) ≠ padLcid)
    (hid : lenIds dir (headerLcid (byteAt pdu cur)) = false) :
    parseFrom dir pdu (fuel + 1) cur items = .error .format := by
  rw [parseFrom, if_neg (by omega)]
  exact (if_neg hpad).trans (if_pos hid)

/-- A sub-PDU whose header or payload runs past the end is a truncation. -/
theorem parseFrom_cut {hl len : Nat} (hcur : cur < pdu.length)
    (hid : lenIds dir (headerLcid (byteAt pdu cur)) = true) (hfield : Announces pdu cur hl len)
    (hend : pdu.length < cur + hl + len) : parseFrom dir pdu (fuel + 1) cur items = .error .trunc := by
  have hpad : headerLcid (byteAt pdu cur) ≠ padLcid := fun h => absurd (lenIds_bound hid).2 (h ▸ by decide)
  simp only [parseFrom, hid, if_neg (Nat.not_le.2 hcur), if_neg hpad, hfield.lengthField_eq]
  by_cases hin : cur + hl ≤ pdu.length
  · simp only [if_pos hin, if_pos hend]
    rfl
  · simp only [if_neg hin]
    rfl

/-- The outcome of a walk whose list continues `items`. -/
def continueList (items : List SubPdu) : Except ErrCode Parsed → Except ErrCode Parsed
  | .ok r => .ok ⟨items ++ r.items, r.cursor, r.padSeen⟩
  | .error e => .error e

theorem continueList_nil (out : Except ErrCode Parsed) : continueList [] out = out := by cases out <;> rfl

/-- A bound of the bytes still to be read is never used up (R310): the parser goes the walk to its end. -/
theorem ParseWalk.parseFrom_eq {out : Except ErrCode Parsed} (h : ParseWalk dir pdu cur out)
    (hfuel : pdu.length ≤ cur + fuel) : parseFrom dir pdu fuel cur items = continueList items out := by
  induction h generalizing fuel items with
  | atEnd cur hend => rw [parseFrom_atEnd hend, continueList, List.append_nil]
  | padding cur hcur hpad =>
    obtain ⟨n, rfl⟩ := Nat.exists_eq_add_one.2 (show 0 < fuel by omega)
    rw [parseFrom_padding hcur ((headerLcid_eq _).trans hpad), continueList, List.append_nil]
  | badId cur hcur hpad hid =>
    obtain ⟨n, rfl⟩ := Nat.exists_eq_add_one.2 (show 0 < fuel by omega)
    rw [← headerLcid_eq] at hpad hid
    exact parseFrom_badId hcur hpad (by rwa [← lenIds_iff, Bool.not_eq_true] at hid)
  | cutField cur hl len hcur hid hfield hend =>
    obtain ⟨n, rfl⟩ := Nat.exists_eq_add_one.2 (show 0 < fuel by omega)
    rw [← headerLcid_eq, ← lenIds_iff] at hid
    exact parseFrom_cut hcur hid hfield (by omega)
  | cutPayload cur hl len hcur hid hfield _ hend =>
    obtain ⟨n, rfl⟩ := Nat.exists_eq_add_one.2 (show 0 < fuel by omega)
    rw [← headerLcid_eq, ← lenIds_iff] at hid
    exact parseFrom_cut hcur hid hfield hend
  | subPdu cur hl len r hcur hid hfield hend _ ih =>
    obtain ⟨n, rfl⟩ := Nat.exists_eq_add_one.2 (show 0 < fuel by omega)
    have hhl := hfield.two_le
    rw [← headerLcid_eq, ← lenIds_iff] at hid
    rw [parseFrom_subPdu hcur hid (hfield.lengthField_eq.trans (if_pos (by omega))) hend, ih (by omega), headerLcid_eq]
    simp only [continueList, List.append_assoc]
    rfl
  | laterError cur hl len e hcur hid hfield hend _ ih =>
    obtain ⟨n, rfl⟩ := Nat.exists_eq_add_one.2 (show 0 < fuel by omega)
    have hhl := hfield.two_le
    rw [← headerLcid_eq, ← lenIds_iff] at hid
    rw [parseFrom_subPdu hcur hid (hfield.lengthField_eq.trans (if_pos (by omega))) hend, ih (by omega)]
    rfl

/-- The walk has an outcome from every cursor: a sub-PDU moves the cursor towards the end (R310). -/
theorem exists_parseWalk (dir : Dir) (pdu : List Byte) (cur : Nat) : ∃ out, ParseWalk dir pdu cur out := by
  obtain hend | hcur := le_or_gt pdu.length cur
  · exact ⟨_, .atEnd cur hend⟩
  by_cases hpad : (pdu.getD cur 0).toNat % 64 = 63
  · exact ⟨_, .padding cur hcur hpad⟩
  by_cases hid : InLenIds dir ((pdu.getD cur 0).toNat % 64)
  · obtain ⟨hl, len, hfield⟩ := exists_announces pdu cur
    have hhl := hfield.two_le
    obtain hcut | hin := Nat.lt_or_ge pdu.length (cur + hl)
    · exact ⟨_, .cutField cur hl len hcur hid hfield hcut⟩
    obtain hcut | hin' := Nat.lt_or_ge pdu.length (cur + hl + len)
    · exact ⟨_, .cutPayload cur hl len hcur hid hfield hin hcut⟩
    obtain ⟨out, hrest⟩ := exists_parseWalk dir pdu (cur + hl + len)
    cases out with
    | ok r => exact ⟨_, .subPdu cur hl len r hcur hid hfield hin' hrest⟩
    | error e => exact ⟨_, .laterError cur hl len e hcur hid hfield hin' hrest⟩
  · exact ⟨_, .badId cur hcur hpad hid⟩
termination_by pdu.length - cur

end Walk

theorem parseWalk_iff {dir : Dir} {pdu : List Byte} {out : Except ErrCode Parsed} :
    ParseWalk dir pdu 0 out ↔ parse pdu dir = out := by
  have hparse : ∀ {out}, ParseWalk dir pdu 0 out → parse pdu dir = out := fun h =>
    (h.parseFrom_eq (Nat.le_add_left _ _)).trans (continueList_nil _)
  refine ⟨hparse, fun h => ?_⟩
  obtain ⟨out', hwalk⟩ := exists_parseWalk dir pdu 0
  rwa [← h, hparse hwalk]

/-- Settles O26: the parser goes a walk to its end (`ParseWalk.parseFrom_eq`, by induction on the walk), and there
is one to go (`exists_parseWalk`). -/
theorem parseIsTheWalk : Obligations.ParseIsTheWalk := fun _ _ _ => parseWalk_iff

end Sys2Proof.Machine

/-! ## Framing a sub-PDU (R96, R97, R142) -/

namespace Sys2Proof.Machine

/-- The header the encoder puts before a payload of `n` bytes. -/
def subPduHeader (lcid n : Nat) : List Byte :=
  if n ≤ 255 then [headerByte false lcid, BitVec.ofNat 8 n]
  else [headerByte true lcid, BitVec.ofNat 8 (n / 256), BitVec.ofNat 8 (n % 256)]

theorem InLenIds.bound {dir : Dir} {lcid : Nat} (h : InLenIds dir lcid) : 1 ≤ lcid ∧ lcid ≤ 62 :=
  lenIds_bound ((lenIds_iff dir lcid).2 h)

theorem lenIds_eq_false {dir : Dir} {lcid : Nat} (h : ¬ InLenIds dir lcid) : lenIds dir lcid = false := by
  rwa [← lenIds_iff, Bool.not_eq_true] at h

theorem length_subPduHeader (lcid n : Nat) : (subPduHeader lcid n).length = headerLen n := by
  unfold subPduHeader headerLen
  split_ifs <;> rfl

/-! ### The encoder -/

section Encoder

variable {dir : Dir} {lcid : Nat} {payload b : List Byte}

theorem encodeSubPDU_badId (h : ¬ InLenIds dir lcid) : encodeSubPDU lcid payload dir = .error .lcid :=
  if_pos (lenIds_eq_false h)

theorem encodeSubPDU_tooLong (hid : InLenIds dir lcid) (hlen : 65535 < payload.length) :
    encodeSubPDU lcid payload dir = .error .len := by
  rw [← lenIds_iff] at hid
  rw [encodeSubPDU, if_neg (by simp [hid])]
  exact if_pos hlen

theorem encodeSubPDU_accepts (hid : InLenIds dir lcid) (hlen : payload.length ≤ 65535) :
    encodeSubPDU lcid payload dir = .ok (subPduHeader lcid payload.length ++ payload) := by
  rw [← lenIds_iff] at hid
  rw [encodeSubPDU, if_neg (by simp [hid]), subPduHeader]
  simp only [if_neg (Nat.not_lt.2 hlen)]
  split_ifs <;> rfl

/-- What the encoder returns is a header and the payload, for the pairs it accepts. -/
theorem encodeSubPDU_ok (h : encodeSubPDU lcid payload dir = .ok b) :
    InLenIds dir lcid ∧ payload.length ≤ 65535 ∧ b = subPduHeader lcid payload.length ++ payload := by
  by_cases hid : InLenIds dir lcid
  · obtain hlen | hlen := le_or_gt payload.length 65535
    · rw [encodeSubPDU_accepts hid hlen] at h
      exact ⟨hid, hlen, (Except.ok.inj h).symm⟩
    · rw [encodeSubPDU_tooLong hid hlen] at h
      cases h
  · rw [encodeSubPDU_badId hid] at h
    cases h

end Encoder

/-! ### The bytes of a header -/

theorem getD_append_length_add {α : Type} (pre bs : List α) (i : Nat) (d : α) :
    (pre ++ bs).getD (pre.length + i) d = bs.getD i d := by
  rw [List.getD_append_right _ _ _ _ (Nat.le_add_right _ _), Nat.add_sub_cancel_left]

/-- The bytes of a header as the numbers they spell (R96, R97). -/
structure SpellsHeader (lcid n : Nat) (b : List Byte) : Prop where
  first : (b.getD 0 0).toNat = if n ≤ 255 then lcid else 64 + lcid
  short : n ≤ 255 → (b.getD 1 0).toNat = n
  long : 255 < n → (b.getD 1 0).toNat = n / 256 ∧ (b.getD 2 0).toNat = n % 256

theorem subPduHeader_spells {lcid n : Nat} (hlcid : lcid < 64) (hn : n ≤ 65535) (rest : List Byte) :
    SpellsHeader lcid n (subPduHeader lcid n ++ rest) := by
  have hbyte : ∀ {m : Nat}, m < 256 → (BitVec.ofNat 8 m).toNat = m := fun h =>
    BitVec.toNat_ofNat _ _ ▸ Nat.mod_eq_of_lt h
  rw [subPduHeader]
  split_ifs with hshort
  · refine ⟨?_, fun _ => hbyte (by omega), fun h => absurd hshort (by omega)⟩
    rw [if_pos hshort]
    exact (headerByte_toNat false lcid hlcid).trans (Nat.zero_add lcid)
  · refine ⟨?_, fun h => absurd h hshort, fun _ => ⟨hbyte (by omega), hbyte (by omega)⟩⟩
    rw [if_neg hshort]
    exact headerByte_toNat true lcid hlcid

/-- Settles O29: what `encodeSubPDU` refuses, and for the others the bytes of `subPduHeader` before the payload. -/
theorem encodeSubPduIsItsRule : Obligations.EncodeSubPduIsItsRule := by
  intro dir lcid payload hlcid n hl
  refine ⟨encodeSubPDU_badId, encodeSubPDU_tooLong, fun hid hn => ⟨_, encodeSubPDU_accepts hid hn, ?_, ?_, ?_⟩⟩
  · rw [List.length_append, length_subPduHeader]
    rfl
  · exact List.drop_left' (length_subPduHeader lcid n)
  · obtain ⟨hfirst, hshort, hlong⟩ := subPduHeader_spells hlcid hn payload
    exact ⟨hfirst, hshort, hlong⟩

/-! ## Framing and parsing agree (P1) -/

/-! ### The header of a framed sub-PDU, as the walk reads it -/

theorem headerF_iff (h : Byte) : h.getLsbD 6 = true ↔ h.toNat / 64 % 2 = 1 := by
  rw [← headerF_eq, headerF, decide_eq_true_eq]
  rfl

/-- The flag and the length bytes of a header announce the payload's length (R95, R96). -/
theorem SpellsHeader.announces {lcid n : Nat} {b : List Byte} (hlcid : lcid < 64) (h : SpellsHeader lcid n b)
    (pre : List Byte) : Announces (pre ++ b) pre.length (headerLen n) n := by
  obtain ⟨hfirst, hshort, hlong⟩ := h
  have hbyte := fun i => getD_append_length_add pre b i 0
  have h0 : (pre ++ b).getD pre.length 0 = b.getD 0 0 := hbyte 0
  rw [Announces, headerLen, h0, hbyte, hbyte]
  by_cases hn : n ≤ 255
  · rw [if_neg (by rw [headerF_iff, hfirst, if_pos hn]; omega), if_pos hn, hshort hn]
    exact ⟨rfl, rfl⟩
  · obtain ⟨h1, h2⟩ := hlong (by omega)
    rw [if_pos (by rw [headerF_iff, hfirst, if_neg hn]; omega), if_neg hn, h1, h2]
    exact ⟨rfl, (Nat.div_add_mod n 256).symm⟩

theorem SpellsHeader.lcid_eq {lcid n : Nat} {b : List Byte} (hlcid : lcid < 64) (h : SpellsHeader lcid n b)
    (pre : List Byte) : ((pre ++ b).getD pre.length 0).toNat % 64 = lcid := by
  have h0 : (pre ++ b).getD pre.length 0 = b.getD 0 0 := getD_append_length_add pre b 0 0
  rw [h0, h.first]
  split_ifs <;> omega

/-! ### The walk over framed sub-PDUs -/

section Frames

variable {dir : Dir} {pre tail : List Byte}

/-- A framed sub-PDU at the cursor is the next of the list, and the walk goes on behind it. -/
theorem parseWalk_frame {lcid : Nat} {payload b : List Byte} {r : Parsed} (hb : encodeSubPDU lcid payload dir = .ok b)
    (hrest : ParseWalk dir (pre ++ (b ++ tail)) (pre.length + b.length) (.ok r)) :
    ParseWalk dir (pre ++ (b ++ tail)) pre.length
      (.ok ⟨⟨lcid, pre.length + headerLen payload.length, payload⟩ :: r.items, r.cursor, r.padSeen⟩) := by
  have hlen := encodeSubPDU_length hb
  obtain ⟨hid, hn, rfl⟩ := encodeSubPDU_ok hb
  have hlcid : lcid < 64 := by have := hid.bound; omega
  rw [List.append_assoc] at hrest ⊢
  have hspells := subPduHeader_spells hlcid hn (payload ++ tail)
  have hread := hspells.lcid_eq hlcid pre
  have hfield := hspells.announces hlcid pre
  have hhl := hfield.two_le
  have hpayload : ((pre ++ (subPduHeader lcid payload.length ++ (payload ++ tail))).drop
      (pre.length + headerLen payload.length)).take payload.length = payload := by
    rw [← length_subPduHeader lcid, ← List.length_append, ← List.append_assoc, List.drop_left, List.take_left]
  rw [hlen, ← Nat.add_assoc] at hrest
  have hwalk := ParseWalk.subPdu pre.length _ _ r (by simp only [List.length_append, length_subPduHeader]; omega)
    (by rwa [hread]) hfield (by simp only [List.length_append, length_subPduHeader]; omega) hrest
  rwa [hread, hpayload] at hwalk

/-- A row of framed sub-PDUs is listed in its order (P1), whatever the walk does behind it. -/
theorem parseWalk_frames {items : List (Nat × List Byte)} {encs : List (List Byte)} {cursor : Nat} {seen : Bool}
    (hencs : List.Forall₂ (fun it b => encodeSubPDU it.1 it.2 dir = .ok b) items encs)
    (hend : ParseWalk dir (pre ++ (encs.flatten ++ tail)) (pre.length + encs.flatten.length) (.ok ⟨[], cursor, seen⟩)) :
    ∃ l : List SubPdu, ParseWalk dir (pre ++ (encs.flatten ++ tail)) pre.length (.ok ⟨l, cursor, seen⟩)
      ∧ l.map (fun it => (it.lcid, it.payload)) = items := by
  induction hencs generalizing pre with
  | nil => exact ⟨[], hend, rfl⟩
  | @cons it b items encs hb _ ih =>
    have hbytes : pre ++ ((b :: encs).flatten ++ tail) = pre ++ b ++ (encs.flatten ++ tail) := by simp
    rw [hbytes, List.flatten_cons, List.length_append, ← Nat.add_assoc, ← List.length_append] at hend
    obtain ⟨l, hwalk, hl⟩ := ih hend
    rw [List.append_assoc, List.length_append] at hwalk
    rw [hbytes, List.append_assoc]
    exact ⟨_, parseWalk_frame hb hwalk, congrArg _ hl⟩

end Frames

/-- The walk ends behind the sub-PDUs, at the end of the PDU or at its padding (R98, R99). -/
theorem parseWalk_tail {dir : Dir} {padLen : Nat} {pad : List Byte} (frames : List Byte)
    (hpad : padLen = 0 ∧ pad = [] ∨ encodePadding padLen = .ok pad) :
    ParseWalk dir (frames ++ pad) frames.length (.ok ⟨[], frames.length, decide (pad ≠ [])⟩) := by
  obtain ⟨-, rfl⟩ | hpad := hpad
  · exact .atEnd _ (by simp)
  · rw [encodePadding] at hpad
    split at hpad; · cases hpad
    obtain rfl := Except.ok.inj hpad
    refine .padding _ (by simp) ?_
    have h0 := getD_append_length_add frames (headerByte false padLcid :: List.replicate (padLen - 1) 0) 0 0
    exact congrArg (fun b : Byte => b.toNat % 64) h0

/-- Framed sub-PDUs, with or without padding after them, parse back (P1). -/
theorem parse_frames {dir : Dir} {items : List (Nat × List Byte)} {encs : List (List Byte)} {padLen : Nat}
    {pad : List Byte} (hencs : List.Forall₂ (fun it b => encodeSubPDU it.1 it.2 dir = .ok b) items encs)
    (hpad : padLen = 0 ∧ pad = [] ∨ encodePadding padLen = .ok pad) :
    ∃ r, parse (encs.flatten ++ pad) dir = .ok r ∧ r.items.map (fun it => (it.lcid, it.payload)) = items
      ∧ r.cursor = encs.flatten.length ∧ r.padSeen = decide (pad ≠ []) := by
  have htail := parseWalk_tail (dir := dir) encs.flatten hpad
  obtain ⟨l, hwalk, hl⟩ := parseWalk_frames (pre := []) hencs (by rwa [List.nil_append, List.length_nil, Nat.zero_add])
  exact ⟨_, parseWalk_iff.1 hwalk, hl, rfl, rfl⟩

/-- Settles O28: multiplexing puts the framed sub-PDUs in one row (R148), and a row parses back (`parse_frames`). -/
theorem parseInvertsFraming : Obligations.ParseInvertsFraming := by
  intro dir data ctrl dataEnc ctrlEnc padLen pad _ hdata hctrl hpad
  cases dir with
  | dl =>
    obtain ⟨r, hr, hitems, hcursor, hseen⟩ := parse_frames (List.rel_append hctrl hdata) hpad
    rw [List.flatten_append] at hr hcursor
    exact ⟨r, hr, hitems, by rw [hcursor, List.length_append, Nat.add_comm], hseen⟩
  | ul =>
    obtain ⟨r, hr, hitems, hcursor, hseen⟩ := parse_frames (List.rel_append hdata hctrl) hpad
    rw [List.flatten_append] at hr hcursor
    exact ⟨r, hr, hitems, by rw [hcursor, List.length_append], hseen⟩

end Sys2Proof.Machine

/-! ## The CODEC commands that store bytes (R141, R144, R147) -/

namespace Sys2Proof.Machine

/-! ### What a command's end leaves -/

theorem refuses_of_effect {i : Instr} {s : State} {e : ErrCode} {code : Nat} (hi : i ≠ .sreset)
    (h : effectOf i s = .error e) (hcode : errCode e = code) : Refuses i s code := by
  rw [Refuses, exec_eq_settle i s hi, h, State.settle_error, ← hcode]
  rfl

theorem State.fits_eq_false {s : State} {off n : Nat} : s.fits off n = false ↔ s.params.bufBytes < off + n :=
  decide_eq_false_iff_not.trans Nat.not_le

/-! ### A stored byte string -/

theorem bufHolds_writeBytes (s : State) (off : Nat) (bs : List Byte) : BufHolds (s.writeBytes off bs) off bs :=
  fun i hi => by
    rw [State.readByte_writeBytes, if_pos (by omega), Nat.add_sub_cancel_left]

theorem bufKeptOutside_writeBytes (s : State) (off : Nat) (bs : List Byte) :
    BufKeptOutside s (s.writeBytes off bs) off bs.length := fun a ha => by
  rw [State.readByte_writeBytes, if_neg (by omega)]

theorem BufHolds.readBytes_eq {t : State} {off : Nat} {bs : List Byte} (h : BufHolds t off bs) :
    t.readBytes off bs.length = bs := by
  refine List.ext_getElem (t.length_readBytes off _) fun i hi hi' => ?_
  rw [← List.getD_eq_getElem _ 0 hi, ← List.getD_eq_getElem _ 0 hi', State.getD_readBytes _ _ _ _ hi', h i hi']

/-- The part of a string behind its head stands behind the head's bytes. -/
theorem BufHolds.append_right {t : State} {off : Nat} {bs cs : List Byte} (h : BufHolds t off (bs ++ cs)) :
    BufHolds t (off + bs.length) cs := fun i hi => by
  rw [Nat.add_assoc, h _ (by rw [List.length_append]; omega), getD_append_length_add]

/-! ### ENC_SUB (R141) -/

section EncSub

variable {dir : Dir} {lcid : Nat} {s : State}

theorem encSub_badId (hid : ¬ InLenIds dir lcid) : encSub dir lcid s = .error .lcid := if_pos (lenIds_eq_false hid)

theorem encSub_tooLong (hid : InLenIds dir lcid) (hn : 65535 < s.argN 1) : encSub dir lcid s = .error .len := by
  rw [← lenIds_iff] at hid
  rw [encSub, if_neg (by simp [hid])]
  exact if_pos hn

theorem encSub_outOfBounds (hid : InLenIds dir lcid) (hn : s.argN 1 ≤ 65535)
    (hout : s.params.bufBytes < s.argN 0 + s.argN 1
      ∨ s.params.bufBytes < s.argN 2 + (headerLen (s.argN 1) + s.argN 1)) : encSub dir lcid s = .error .bounds := by
  rw [← lenIds_iff] at hid
  rw [← State.fits_eq_false, ← State.fits_eq_false] at hout
  rw [encSub, if_neg (by simp [hid])]
  simp only [if_neg (Nat.not_lt.2 hn)]
  obtain hsrc | hdst := hout
  · exact if_pos hsrc
  · rw [if_pos hdst, ite_self]

theorem encSub_accepts (hid : InLenIds dir lcid) (hn : s.argN 1 ≤ 65535)
    (hsrc : s.fits (s.argN 0) (s.argN 1) = true)
    (hdst : s.fits (s.argN 2) (headerLen (s.argN 1) + s.argN 1) = true) :
    encSub dir lcid s = .ok (((s.writeBytes (s.argN 2)
      (subPduHeader lcid (s.argN 1) ++ s.readBytes (s.argN 0) (s.argN 1))).result 8
        (headerLen (s.argN 1) + s.argN 1)).result 9 (headerLen (s.argN 1))) := by
  have henc := encodeSubPDU_accepts hid (payload := s.readBytes (s.argN 0) (s.argN 1)) (by rwa [State.length_readBytes])
  rw [State.length_readBytes] at henc
  rw [← lenIds_iff] at hid
  simp only [encSub, hid, if_neg (Nat.not_lt.2 hn), hsrc, hdst, henc]
  rfl

/-- An accepted ENC_SUB stores the header and the payload as it stood before, and reports the lengths. -/
theorem exec_encSub_stores (hid : InLenIds dir lcid) (hn : s.argN 1 ≤ 65535)
    (hsrc : s.argN 0 + s.argN 1 ≤ s.params.bufBytes)
    (hdst : s.argN 2 + (headerLen (s.argN 1) + s.argN 1) ≤ s.params.bufBytes) :
    ∃ t, exec (.encSub dir lcid) s = .next t ∧ Accepted s t ∧ RegsKept s t [8, 9]
      ∧ t.reg 8 = word (headerLen (s.argN 1) + s.argN 1) ∧ t.reg 9 = word (headerLen (s.argN 1))
      ∧ BufHolds t (s.argN 2) (subPduHeader lcid (s.argN 1) ++ s.readBytes (s.argN 0) (s.argN 1))
      ∧ BufKeptOutside s t (s.argN 2) (headerLen (s.argN 1) + s.argN 1)
      ∧ t.g = s.g ∧ t.desc = s.desc ∧ t.hq = s.hq ∧ t.lc = s.lc := by
  have heff : effectOf (.encSub dir lcid) s = _ :=
    encSub_accepts hid hn (State.fits_eq_true.2 hsrc) (State.fits_eq_true.2 hdst)
  have hkept := bufKeptOutside_writeBytes s (s.argN 2)
    (subPduHeader lcid (s.argN 1) ++ s.readBytes (s.argN 0) (s.argN 1))
  rw [List.length_append, length_subPduHeader, State.length_readBytes] at hkept
  refine ⟨_, exec_of_effect nofun heff, accepted_complete heff, fun i hi hi15 => ?_, by simp, by simp,
    bufHolds_writeBytes s _ _, hkept, rfl, rfl, rfl, rfl⟩
  obtain ⟨hi8, hi9⟩ : i ≠ 8 ∧ i ≠ 9 := by simpa using hi
  simp [hi8, hi9, hi15]

end EncSub

/-- Settles O23: the bytes `exec_encSub_stores` leaves, read one by one (`subPduHeader_spells`), and one refusal for
each check, in the written order. -/
theorem encSubStoresTheSubPdu : Obligations.EncSubStoresTheSubPdu := by
  intro dir lcid s src n dst hl
  refine ⟨fun hid hn hsrc hdst => ?_, fun hid => refuses_of_effect nofun (encSub_badId hid) rfl,
    fun hid hn => refuses_of_effect nofun (encSub_tooLong hid hn) rfl,
    fun hid hn hout => refuses_of_effect nofun (encSub_outOfBounds hid hn hout) rfl⟩
  obtain ⟨t, hexec, hacc, hregs, h8, h9, hbytes, hkept, hframe⟩ := exec_encSub_stores hid hn hsrc hdst
  have hlcid : lcid < 64 := by have := hid.bound; omega
  obtain ⟨hfirst, hshort, hlong⟩ := subPduHeader_spells hlcid hn (s.readBytes src n)
  have hlen : (subPduHeader lcid n ++ s.readBytes src n).length = hl + n := by
    rw [List.length_append, length_subPduHeader, State.length_readBytes]
    rfl
  have hhl : hl = 2 ∧ n ≤ 255 ∨ hl = 3 ∧ 255 < n := by
    by_cases h : n ≤ 255
    · exact .inl ⟨if_pos h, h⟩
    · exact .inr ⟨if_neg h, by omega⟩
  have hread : ∀ i, i < hl + n → t.readByte (dst + i) = (subPduHeader lcid n ++ s.readBytes src n).getD i 0 :=
    fun i hi => hbytes i (hi.trans_eq hlen.symm)
  have hpayload := hbytes.append_right
  rw [length_subPduHeader] at hpayload
  refine ⟨t, hexec, hacc, hregs, h8, h9, ?_, fun h => ?_, fun h => ?_, fun i hi => ?_, hkept, hframe⟩
  · exact (congrArg BitVec.toNat (hread 0 (by omega))).trans hfirst
  · rw [hread 1 (by omega), hshort h]
  · rw [hread 1 (by omega), hread 2 (by omega)]
    exact hlong h
  · exact (hpayload i (by rwa [State.length_readBytes])).trans (State.getD_readBytes s src n i hi)

/-! ### ENC_PAD (R144) -/

theorem encPad_badLength {s : State} (hn : s.argN 1 < 1) : encPad s = .error .padLen := by
  simp only [encPad, encodePadding, if_pos hn]

theorem encodePadding_accepts {n : Nat} (hn : 1 ≤ n) :
    encodePadding n = .ok (headerByte false padLcid :: List.replicate (n - 1) 0) := if_neg (by omega)

theorem encPad_outOfBounds {s : State} (hn : 1 ≤ s.argN 1) (hout : s.params.bufBytes < s.argN 2 + s.argN 1) :
    encPad s = .error .bounds := by
  simp only [encPad, encodePadding_accepts hn, if_pos (State.fits_eq_false.2 hout)]

theorem encPad_accepts {s : State} (hn : 1 ≤ s.argN 1) (hfits : s.fits (s.argN 2) (s.argN 1) = true) :
    encPad s = .ok ((s.writeBytes (s.argN 2) (headerByte false padLcid :: List.replicate (s.argN 1 - 1) 0)).result 8
      (s.argN 1)) := by
  simp only [encPad, encodePadding_accepts hn, hfits]
  rfl

/-- Settles O24: the stored padding byte by byte, and one refusal for each check, in the written order. -/
theorem encPadStoresPadding : Obligations.EncPadStoresPadding := by
  intro s n dst
  refine ⟨fun hn hfits => ?_, fun hn => refuses_of_effect nofun (encPad_badLength hn) rfl,
    fun hn hout => refuses_of_effect nofun (encPad_outOfBounds hn hout) rfl⟩
  have heff : effectOf .encPad s = _ := encPad_accepts hn (State.fits_eq_true.2 hfits)
  have hlen := encodePadding_length (encodePadding_accepts hn)
  have hholds := bufHolds_writeBytes s dst (headerByte false padLcid :: List.replicate (n - 1) 0)
  have hkept := bufKeptOutside_writeBytes s dst (headerByte false padLcid :: List.replicate (n - 1) 0)
  rw [hlen] at hkept
  refine ⟨_, exec_of_effect nofun heff, accepted_complete heff, fun i hi hi15 => ?_, by simp [n, State.argN],
    hholds 0 (by rw [hlen]; exact hn), fun a ha ha' => ?_, hkept, rfl, rfl, rfl, rfl⟩
  · have hi8 : i ≠ 8 := by simpa using hi
    simp [hi8, hi15]
  · obtain ⟨i, rfl⟩ : ∃ i, a = dst + (i + 1) := ⟨a - dst - 1, by omega⟩
    exact (hholds (i + 1) (by rw [hlen]; omega)).trans (by simp)

/-! ### MUX (R147) -/

section Mux

variable {dir : Dir} {s : State}

/-- The four regions of MUX lie in `BUF`. -/
def MuxInBuf (s : State) : Prop :=
  s.argN 0 + s.argN 1 ≤ s.params.bufBytes ∧ s.argN 2 + s.argN 3 ≤ s.params.bufBytes
    ∧ s.argN 4 + s.argN 5 ≤ s.params.bufBytes ∧ s.argN 6 + (s.argN 1 + s.argN 3 + s.argN 5) ≤ s.params.bufBytes

theorem muxCmd_accepts (h : MuxInBuf s) :
    muxCmd dir s = .ok ((s.writeBytes (s.argN 6) (multiplex (s.readBytes (s.argN 0) (s.argN 1))
      (s.readBytes (s.argN 2) (s.argN 3)) (s.readBytes (s.argN 4) (s.argN 5)) dir)).result 8
      (s.argN 1 + s.argN 3 + s.argN 5)) := by
  obtain ⟨hdata, hctrl, hpad, hdst⟩ := h
  rw [← State.fits_eq_true] at hdata hctrl hpad hdst
  simp only [muxCmd, hdata, hctrl, hpad, hdst]
  rfl

theorem muxCmd_outOfBounds (h : ¬ MuxInBuf s) : muxCmd dir s = .error .bounds := by
  simp only [MuxInBuf, not_and_or, Nat.not_le, ← State.fits_eq_false] at h
  rw [muxCmd]
  obtain hdata | hctrl | hpad | hdst := h
  · exact if_pos hdata
  · rw [if_pos hctrl, ite_self]
  · rw [if_pos hpad, ite_self, ite_self]
  · rw [if_pos hdst, ite_self, ite_self, ite_self]

end Mux

/-- Settles O25: the stored string is `multiplex` of the three regions, and the four checks have one code. -/
theorem muxConcatenatesByDirection : Obligations.MuxConcatenatesByDirection := by
  intro dir s dataOff dataLen ctrlOff ctrlLen padOff padLen dst total inBuf
  refine ⟨fun hin => ?_, fun hout => refuses_of_effect nofun (muxCmd_outOfBounds hout) rfl⟩
  have heff : effectOf (.mux dir) s = _ := muxCmd_accepts hin
  have hlen : (multiplex (s.readBytes dataOff dataLen) (s.readBytes ctrlOff ctrlLen) (s.readBytes padOff padLen)
      dir).length = total := by
    simp only [multiplex_length, State.length_readBytes, total]
  have hholds := bufHolds_writeBytes s dst (multiplex (s.readBytes dataOff dataLen) (s.readBytes ctrlOff ctrlLen)
    (s.readBytes padOff padLen) dir)
  refine ⟨_, exec_of_effect nofun heff, accepted_complete heff, fun i hi hi15 => ?_, ?_, ?_, ?_,
    hlen ▸ bufKeptOutside_writeBytes s dst _,
    rfl, rfl, rfl, rfl⟩
  · have hi8 : i ≠ 8 := by simpa using hi
    simp [hi8, hi15]
  · simp [total, dataLen, ctrlLen, padLen, State.argN]
  · rintro rfl
    exact hholds
  · rintro rfl
    exact hholds

end Sys2Proof.Machine

/-! ## PARSE (R150) -/

namespace Sys2Proof.Machine

section Parse

variable {dir : Dir} {s : State}

theorem parseCmd_outOfBounds (hout : s.params.bufBytes < s.argN 0 + s.argN 1) : parseCmd dir s = .error .bounds :=
  if_pos (State.fits_eq_false.2 hout)

/-- PARSE fails as the walk does. -/
theorem parseCmd_of_error {e : ErrCode} (hfits : s.fits (s.argN 0) (s.argN 1) = true)
    (hparse : parse (s.readBytes (s.argN 0) (s.argN 1)) dir = .error e) : parseCmd dir s = .error e := by
  simp only [parseCmd, hfits, hparse]
  rfl

theorem parseCmd_of_ok {r : Parsed} (hfits : s.fits (s.argN 0) (s.argN 1) = true)
    (hparse : parse (s.readBytes (s.argN 0) (s.argN 1)) dir = .ok r) :
    parseCmd dir s = .ok ((((s.writeDescs (r.items.map (subPduDesc (s.argN 0)))).result 8 r.items.length).result 9
      r.cursor).result 10 (bitNat r.padSeen)) := by
  simp only [parseCmd, hfits, hparse]
  rfl

/-- An accepted PARSE lists what the walk of the region returns. -/
theorem exec_parse_reports {r : Parsed} (hin : s.argN 0 + s.argN 1 ≤ s.params.bufBytes)
    (hwalk : ParseWalk dir (s.readBytes (s.argN 0) (s.argN 1)) 0 (.ok r)) :
    ∃ t, exec (.parse dir) s = .next t ∧ Accepted s t ∧ RegsKept s t [8, 9, 10]
      ∧ t.reg 8 = word r.items.length ∧ t.reg 9 = word r.cursor ∧ t.reg 10 = word (bitNat r.padSeen)
      ∧ DescHolds s t (r.items.map (subPduDesc (s.argN 0)))
      ∧ t.g = s.g ∧ t.buf = s.buf ∧ t.hq = s.hq ∧ t.lc = s.lc := by
  have heff : effectOf (.parse dir) s = _ := parseCmd_of_ok (State.fits_eq_true.2 hin) (parseWalk_iff.1 hwalk)
  refine ⟨_, exec_of_effect nofun heff, accepted_complete heff, fun i hi hi15 => ?_, by simp, by simp, by simp,
    s.descAt_writeDescs _, rfl, rfl, rfl, rfl⟩
  obtain ⟨hi8, hi9, hi10⟩ : i ≠ 8 ∧ i ≠ 9 ∧ i ≠ 10 := by simpa using hi
  simp [hi8, hi9, hi10, hi15]

theorem refuses_parse_of_walk {e : ErrCode} {code : Nat} (hin : s.argN 0 + s.argN 1 ≤ s.params.bufBytes)
    (hwalk : ParseWalk dir (s.readBytes (s.argN 0) (s.argN 1)) 0 (.error e)) (hcode : errCode e = code) :
    Refuses (.parse dir) s code :=
  refuses_of_effect nofun (parseCmd_of_error (State.fits_eq_true.2 hin) (parseWalk_iff.1 hwalk)) hcode

end Parse

/-- Settles O27: PARSE reports or refuses as the walk of its region ends (`exec_parse_reports`,
`refuses_parse_of_walk`). -/
theorem parseReportsTheWalk : Obligations.ParseReportsTheWalk := fun _ _ =>
  ⟨fun hin _ hwalk => exec_parse_reports hin hwalk,
    fun hout => refuses_of_effect nofun (parseCmd_outOfBounds hout) rfl,
    fun hin hwalk => refuses_parse_of_walk hin hwalk rfl, fun hin hwalk => refuses_parse_of_walk hin hwalk rfl⟩

/-! ## ENC_SUB and then PARSE (P1) -/

/-- A PDU of one framed sub-PDU is listed as that one. -/
theorem parseWalk_single {dir : Dir} {lcid : Nat} {payload b : List Byte} (hb : encodeSubPDU lcid payload dir = .ok b) :
    ParseWalk dir b 0 (.ok ⟨[⟨lcid, headerLen payload.length, payload⟩], b.length, false⟩) := by
  have hend : ParseWalk dir (b ++ []) b.length (.ok ⟨[], b.length, false⟩) := parseWalk_tail b (.inl ⟨rfl, rfl⟩)
  have hwalk := parseWalk_frame (pre := []) hb (by rwa [List.nil_append, List.length_nil, Nat.zero_add])
  rwa [List.nil_append, List.append_nil, List.length_nil, Nat.zero_add] at hwalk

theorem readByte_of_buf_eq {s t : State} (h : t.buf = s.buf) (a : Nat) : t.readByte a = s.readByte a := by
  rw [State.readByte, h, State.readByte]

/-- Settles O30: the region PARSE is given holds exactly what the encoder returned (`exec_encSub_stores`), whose walk
is `parseWalk_single`. -/
theorem encSubThenParse : Obligations.EncSubThenParse := by
  intro dir lcid s src n dst hl hid hn hsrc hdst
  obtain ⟨t, hexec, ⟨-, -, -, -, hparams, -⟩, -, h8, -, hbytes, -⟩ := exec_encSub_stores hid hn hsrc hdst
  have henc := encodeSubPDU_accepts hid (payload := s.readBytes src n) (by rwa [State.length_readBytes])
  rw [State.length_readBytes] at henc
  have hlen := encodeSubPDU_length henc
  have hwalk := parseWalk_single henc
  rw [State.length_readBytes] at hlen hwalk
  let v := (t.setReg 0 (s.reg 2)).setReg 1 (t.reg 8)
  have hoff : v.argN 0 = dst := by simp [v, State.argN, dst]
  have hcount : v.argN 1 = headerLen n + n := by
    have hhl : headerLen n ≤ 3 := by unfold headerLen; split_ifs <;> omega
    have hreg : v.reg 1 = word (headerLen n + n) := (by simp [v] : v.reg 1 = t.reg 8).trans h8
    rw [State.argN, hreg, BitVec.toNat_ofNat, Nat.mod_eq_of_lt (by omega)]
  have hregion : v.readBytes (v.argN 0) (v.argN 1) = subPduHeader lcid n ++ s.readBytes src n := by
    rw [hoff, hcount, ← hlen]
    exact hbytes.readBytes_eq
  rw [hlen, ← hregion] at hwalk
  obtain ⟨u, hexec', ⟨h15, -⟩, -, h8', h9', h10', hdesc, -, hbuf, -⟩ :=
    exec_parse_reports (by rw [hoff, hcount]; exact hparams ▸ hdst) hwalk
  refine ⟨t, u, hexec, hexec', h15, h8', h9', h10', ?_, fun i hi => ?_⟩
  · have hentry : u.descAt 0 = subPduDesc (v.argN 0) ⟨lcid, headerLen n, s.readBytes src n⟩ := hdesc 0
    rw [hentry, hoff, subPduDesc, State.length_readBytes]
    rfl
  · have hpayload := hbytes.append_right
    rw [length_subPduHeader] at hpayload
    rw [readByte_of_buf_eq hbuf]
    exact (hpayload i (by rwa [State.length_readBytes])).trans (State.getD_readBytes s src n i hi)

/-! ## PARSE_BSR on the long forms, and its refusals (R104, R154, R155) -/

/-- The entry of channel group `i` of a long report whose level, if one remains, is byte `k` (R104). -/
def bsrLongEntry (p : Params) (bytes : List Byte) (k i : Nat) : BsrEntry :=
  if k < bytes.length then ⟨i, p.bsr8.getD (byteAt bytes k).toNat 0, false⟩ else ⟨i, p.bsrFallback, true⟩

theorem bsrLongEntry_of_lt {p : Params} {bytes : List Byte} {k : Nat} (h : k < bytes.length) (i : Nat) :
    bsrLongEntry p bytes k i = ⟨i, p.bsr8.getD (byteAt bytes k).toNat 0, false⟩ := if_pos h

theorem bsrLongEntry_of_le {p : Params} {bytes : List Byte} {k : Nat} (h : bytes.length ≤ k) (i : Nat) :
    bsrLongEntry p bytes k i = ⟨i, p.bsrFallback, true⟩ := if_neg (Nat.not_lt.2 h)

/-- A long report lists the groups whose bit is set, the `j`-th with byte `k + j`: the model's count stands still
once the bytes have run out, but every entry from there on is the fallback. -/
theorem bsrLongFrom_eq_mapIdx (p : Params) (bytes : List Byte) (groups : List Nat) (k : Nat) :
    bsrLongFrom p bytes groups k
      = (groups.filter (bsrBit (byteAt bytes 0))).mapIdx (fun j i => bsrLongEntry p bytes (k + j) i) := by
  induction groups generalizing k with
  | nil => rfl
  | cons i rest ih =>
    rw [bsrLongFrom]
    split_ifs with hbit hk
    · rw [List.filter_cons_of_pos hbit, List.mapIdx_cons, ih]
      simp only [Nat.add_zero, bsrLongEntry_of_lt hk, Nat.add_assoc, Nat.add_comm 1]
    · have hout : bytes.length ≤ k := by omega
      rw [List.filter_cons_of_pos hbit, List.mapIdx_cons, ih]
      simp only [bsrLongEntry_of_le (hout.trans (Nat.le_add_right k _))]
    · rw [List.filter_cons_of_neg hbit, ih]

theorem filter_bsrBit (m : Byte) : (List.range numLcg).filter (bsrBit m) = bsrGroups m :=
  congrArg (fun q => (List.range 8).filter q) (funext (bsrBit_eq m))

theorem parseBufferStatusReport_long (p : Params) {v : BsrVariant} {bytes : List Byte} (hv : variantIsShort v = false)
    (hlen : 1 ≤ bytes.length) :
    parseBufferStatusReport p v bytes
      = .ok ((bsrGroups (byteAt bytes 0)).mapIdx (fun j i => bsrLongEntry p bytes (1 + j) i)) := by
  rw [parseBufferStatusReport, if_neg (by omega), if_neg (by simp [hv]), bsrLongFrom_eq_mapIdx, filter_bsrBit]

theorem bsrDesc_bsrLongEntry (p : Params) (bytes : List Byte) (k : Nat) :
    bsrDesc (bsrLongEntry p bytes (1 + k) ((bsrGroups (bytes.getD 0 0)).getD k 0)) = bsrLongDesc p bytes k := by
  rw [bsrLongEntry, bsrLongDesc]
  split_ifs <;> rfl

/-- The descriptors of a long report, entry by entry. -/
theorem bsrDescs_long (p : Params) (bytes : List Byte) :
    ((bsrGroups (byteAt bytes 0)).mapIdx (fun j i => bsrLongEntry p bytes (1 + j) i)).map bsrDesc
      = (List.range (bsrGroups (byteAt bytes 0)).length).map (bsrLongDesc p bytes) := by
  refine List.ext_getElem (by simp) fun k hk _ => ?_
  have hgroup : k < (bsrGroups (byteAt bytes 0)).length := by simpa using hk
  simp only [List.getElem_map, List.getElem_mapIdx, List.getElem_range]
  exact List.getD_eq_getElem _ 0 hgroup ▸ bsrDesc_bsrLongEntry p bytes k

/-- Settles O34: the report is one entry a set bit (`parseBufferStatusReport_long`), and the command lists it. -/
theorem parseBsrLongForms : Obligations.ParseBsrLongForms := by
  intro v s hv off n bytes count hn hin
  have hlong : variantIsShort v = false := by obtain rfl | rfl := hv <;> rfl
  have hbyte : byteAt bytes 0 = s.readByte off := State.getD_readBytes s off n 0 hn
  have hreport := parseBufferStatusReport_long s.params hlong (bytes := bytes) (by rwa [State.length_readBytes])
  have heff : effectOf (.parseBsr v) s = _ := parseBsrCmd_of_report (State.fits_eq_true.2 hin) hreport
  have hdesc := s.descAt_writeDescs ((List.range count).map (bsrLongDesc s.params bytes))
  have hlist := bsrDescs_long s.params bytes
  rw [hbyte] at hlist
  rw [hbyte, hlist] at heff
  refine ⟨_, exec_of_effect nofun heff, accepted_complete heff, fun i hi hi15 => ?_, ?_, fun k hk => ?_,
    fun k hk => ?_, rfl, rfl, rfl, rfl⟩
  · have hi8 : i ≠ 8 := by simpa using hi
    simp [hi8, hi15]
  · simp [count]
  · exact (hdesc k).trans (by simp [hk])
  · exact (hdesc k).trans (by simp [Nat.not_lt.2 hk])

theorem parseBsrCmd_outOfBounds {v : BsrVariant} {s : State} (hout : s.params.bufBytes < s.argN 0 + s.argN 1) :
    parseBsrCmd v s = .error .bounds := if_pos (State.fits_eq_false.2 hout)

/-- A report of no bytes has no first byte, whatever its form. -/
theorem parseBsrCmd_empty {v : BsrVariant} {s : State} (hfits : s.fits (s.argN 0) (s.argN 1) = true)
    (hn : s.argN 1 = 0) : parseBsrCmd v s = .error .trunc := by
  have hreport : parseBufferStatusReport s.params v (s.readBytes (s.argN 0) (s.argN 1)) = .error .trunc :=
    if_pos (by rw [State.length_readBytes]; omega)
  simp only [parseBsrCmd, hfits, hreport]
  rfl

/-- Settles O35: the region's check comes before the report's. -/
theorem parseBsrRefusals : Obligations.ParseBsrRefusals := fun _ _ =>
  ⟨fun hout => refuses_of_effect nofun (parseBsrCmd_outOfBounds hout) rfl,
    fun hin hn => refuses_of_effect nofun (parseBsrCmd_empty (State.fits_eq_true.2 hin) hn) rfl⟩

end Sys2Proof.Machine

/-! ## The HARQ table commands (R172 to R184) -/

namespace Sys2Proof.Machine

/-! ### Addresses (R171) -/

theorem badDevice_true {p : Params} {dev : Nat} : badDevice p dev = true ↔ dev = 0 ∨ p.numDevices < dev :=
  decide_eq_true_iff

theorem checkAddr_device {p : Params} {dev : Nat} (hdev : dev = 0 ∨ p.numDevices < dev) (proc : Nat) :
    checkAddr p dev proc = some .device := if_pos (badDevice_true.2 hdev)

theorem checkAddr_proc {p : Params} {dev proc : Nat} (hdev : 1 ≤ dev) (hdev' : dev ≤ p.numDevices)
    (hproc : p.numHarq ≤ proc) : checkAddr p dev proc = some .proc := by
  rw [checkAddr, badDevice_false.2 ⟨hdev, hdev'⟩]
  exact if_pos (decide_eq_true hproc)

/-- A command whose first check is the address refuses a device, and then a process, out of range (R171). -/
theorem refuses_address {i : Instr} {s : State} {dev proc : Nat} (hi : i ≠ .sreset)
    (hfirst : ∀ e, checkAddr s.params dev proc = some e → effectOf i s = .error e) :
    (dev = 0 ∨ s.params.numDevices < dev → Refuses i s 8)
    ∧ (1 ≤ dev → dev ≤ s.params.numDevices → s.params.numHarq ≤ proc → Refuses i s 9) :=
  ⟨fun hdev => refuses_of_effect hi (hfirst _ (checkAddr_device hdev proc)) rfl,
    fun hdev hdev' hproc => refuses_of_effect hi (hfirst _ (checkAddr_proc hdev hdev' hproc)) rfl⟩

/-! ### One record written, one record reported -/

/-- A write leaves the record of every other device, direction and process index as it was. -/
theorem State.harq_setHarq_of_ne {s : State} {dev d proc q : Nat} {dir di : Dir} (r : HarqRec) (hproc : proc < 16)
    (hq : q < 16) (hne : (d, di, q) ≠ (dev, dir, proc)) : (s.setHarq dev dir proc r).harq d di q = s.harq d di q := by
  rw [State.harq_setHarq, if_neg]
  intro hkey
  obtain ⟨rfl, rfl, rfl⟩ := hqKey_inj _ _ _ _ _ _ hq hproc hkey
  exact hne rfl

/-- The redundancy version as HQ_MARK and HQ_READ report it. -/
theorem word_rvAt (p : Params) (i : Nat) : word (rvAt p i) = (p.rvSeq.getD i 0).setWidth 32 := by
  rw [rvAt, word, BitVec.ofNat_toNat]

theorem word_harqStateNat (st : HarqState) : word (harqStateNat st) = if st = .free then 0 else 1 := by
  cases st <;> rfl

theorem harqState_ne_free {st : HarqState} : st ≠ .free ↔ st = .busy := by cases st <;> simp

theorem grantIsRetx_eq (gr : GrantBits) : grantIsRetx gr = gr.getLsbD 21 := by
  rw [grantIsRetx, Bool.eq_iff_iff, decide_eq_true_iff, bits_self_eq_one]

/-! ### HQ_ALLOC (R172, R173) -/

section Alloc

variable {dir : Dir} {dev : Nat} {s : State}

theorem allocateFreeProcess_eq_some {p : Nat} :
    allocateFreeProcess s dev dir = some p ↔
      (s.harq dev dir p).state = .free ∧ p < s.params.numHarq ∧ ∀ q, q < p → (s.harq dev dir q).state = .busy := by
  simp [allocateFreeProcess, List.find?_range_eq_some, harqState_ne_free]

theorem allocateFreeProcess_eq_none :
    allocateFreeProcess s dev dir = none ↔ ∀ q, q < s.params.numHarq → (s.harq dev dir q).state = .busy := by
  simp [allocateFreeProcess, harqState_ne_free]

theorem hqAlloc_badDevice (hdev : dev = 0 ∨ s.params.numDevices < dev) : hqAlloc dir dev s = .error .device :=
  if_pos (badDevice_true.2 hdev)

theorem hqAlloc_of_some {p : Nat} (hdev : 1 ≤ dev ∧ dev ≤ s.params.numDevices)
    (hfind : allocateFreeProcess s dev dir = some p) : hqAlloc dir dev s = .ok ((s.result 8 1).result 9 p) := by
  simp only [hqAlloc, badDevice_false.2 hdev, hfind]
  rfl

theorem hqAlloc_of_none (hdev : 1 ≤ dev ∧ dev ≤ s.params.numDevices) (hfind : allocateFreeProcess s dev dir = none) :
    hqAlloc dir dev s = .ok ((s.result 8 0).result 9 0) := by
  simp only [hqAlloc, badDevice_false.2 hdev, hfind]
  rfl

/-- HQ_ALLOC reports its answer in two registers and writes nothing else. -/
theorem exec_hqAlloc_reports {found p : Nat} (h : hqAlloc dir dev s = .ok ((s.result 8 found).result 9 p)) :
    ∃ t, exec (.hqAlloc dir dev) s = .next t ∧ Accepted s t ∧ RegsKept s t [8, 9] ∧ t.reg 8 = word found
      ∧ t.reg 9 = word p ∧ MemoriesKept s t := by
  have heff : effectOf (.hqAlloc dir dev) s = _ := h
  refine ⟨_, exec_of_effect nofun heff, accepted_complete heff, fun i hi hi15 => ?_, by simp, by simp, rfl, rfl, rfl,
    rfl, rfl⟩
  obtain ⟨hi8, hi9⟩ : i ≠ 8 ∧ i ≠ 9 := by simpa using hi
  simp [hi8, hi9, hi15]

end Alloc

/-- Settles O36: the scan finds the least Free process or none (`allocateFreeProcess_eq_some`,
`allocateFreeProcess_eq_none`), and HQ_ALLOC reports what it found. -/
theorem hqAllocFindsTheLeastFree : Obligations.HqAllocFindsTheLeastFree := fun _ _ _ =>
  ⟨fun hdev hdev' _ hp hfree hbusy =>
      exec_hqAlloc_reports (hqAlloc_of_some ⟨hdev, hdev'⟩ (allocateFreeProcess_eq_some.2 ⟨hfree, hp, hbusy⟩)),
    fun hdev hdev' hbusy =>
      exec_hqAlloc_reports (hqAlloc_of_none ⟨hdev, hdev'⟩ (allocateFreeProcess_eq_none.2 hbusy)),
    fun hdev => refuses_of_effect nofun (hqAlloc_badDevice hdev) rfl⟩

/-! ### HQ_MARK (R174, R175) -/

section Mark

variable {r : HarqRec} {grant : GrantBits}

/-- A retransmission of a process that has a context consumes the context (R175). -/
theorem markBusy_retx (tbs : Word) (hretx : grantIsRetx grant = true) (hbusy : r.state = .busy)
    (hctx : r.hasCtx = true) :
    markBusy r grant tbs = .ok { r with grant := grant, grantTbs := tbs, pos := r.pos + 1, hasCtx := false } := by
  rw [markBusy, if_pos hretx, if_pos ⟨hbusy, hctx⟩]

theorem markBusy_new_busy (tbs : Word) (hnew : grantIsRetx grant = false) (hbusy : r.state = .busy) :
    markBusy r grant tbs = .error .harqState := by
  rw [markBusy, if_neg (Bool.eq_false_iff.1 hnew), if_neg (by simp [hbusy])]

theorem markBusy_retx_noCtx (tbs : Word) (hretx : grantIsRetx grant = true)
    (hno : ¬ (r.state = .busy ∧ r.hasCtx = true)) : markBusy r grant tbs = .error .harqState := by
  rw [markBusy, if_pos hretx, if_neg hno]

variable {s : State} {dev proc : Nat} {dir : Dir} (hdev : grantDev (grantOf s) = dev)
  (hdir : grantDir (grantOf s) = dir) (hproc : grantProc (grantOf s) = proc)

include hdev hdir hproc

theorem hqMark_of_refused {e : ErrCode} (haddr : checkAddr s.params dev proc = none)
    (hmark : markBusy (s.harq dev dir proc) (grantOf s) (s.reg 0) = .error e) : hqMark s = .error e := by
  simp only [hqMark, hdev, hdir, hproc, haddr, hmark]

/-- An accepted HQ_MARK replaces the addressed record by what `markBusy` returns, and reports from it. -/
theorem exec_hqMark_moves (hlt : proc < 16) (haddr : checkAddr s.params dev proc = none)
    (hmark : markBusy (s.harq dev dir proc) (grantOf s) (s.reg 0) = .ok r) :
    ∃ t, exec .hqMark s = .next t ∧ Accepted s t ∧ RegsKept s t [8, 9, 10] ∧ t.harq dev dir proc = r
      ∧ (∀ d di q, q < 16 → (d, di, q) ≠ (dev, dir, proc) → t.harq d di q = s.harq d di q)
      ∧ t.reg 8 = word (bitNat r.lastNDI) ∧ t.reg 9 = word r.pos
      ∧ t.reg 10 = (s.params.rvSeq.getD r.pos 0).setWidth 32
      ∧ t.g = s.g ∧ t.buf = s.buf ∧ t.desc = s.desc ∧ t.lc = s.lc := by
  have heff : effectOf .hqMark s = _ := hqMark_of_markBusy hdev hdir hproc haddr hmark
  refine ⟨_, exec_of_effect nofun heff, accepted_complete heff, fun i hi hi15 => ?_, s.harq_setHarq_self dev dir proc r,
    fun _ _ _ => State.harq_setHarq_of_ne r hlt, by simp, by simp, by simp [word_rvAt], rfl, rfl, rfl, rfl⟩
  obtain ⟨hi8, hi9, hi10⟩ : i ≠ 8 ∧ i ≠ 9 ∧ i ≠ 10 := by simpa using hi
  simp [hi8, hi9, hi10, hi15]

end Mark

/-- Settles O37: the grant's own fields address the record (`grantOf_address`), `markBusy` moves it or refuses by
its kind and the record's state, and the command writes back just that record (`exec_hqMark_moves`). -/
theorem hqMarkMovesTheRecord : Obligations.HqMarkMovesTheRecord := by
  intro s g0 grant dev dir proc retx old goes addressed
  obtain ⟨hdev, hdir, hproc, hretx⟩ := grantOf_address s
  have hlt : proc < 16 := Nat.mod_lt _ (by decide)
  have moves {r : HarqRec} (ha : addressed) (hmark : markBusy old grant (s.reg 0) = .ok r) : goes r :=
    exec_hqMark_moves hdev hdir hproc hlt (checkAddr_none.2 ha) hmark
  have refused (ha : addressed) (hmark : markBusy old grant (s.reg 0) = .error .harqState) : Refuses .hqMark s 10 :=
    refuses_of_effect nofun (hqMark_of_refused hdev hdir hproc (checkAddr_none.2 ha) hmark) rfl
  exact ⟨fun ha hnew hfree => moves ha (markBusy_new _ (hretx.trans hnew) hfree),
    fun ha hre hbusy hctx => moves ha (markBusy_retx _ (hretx.trans hre) hbusy hctx),
    fun ha hnew hbusy => refused ha (markBusy_new_busy _ (hretx.trans hnew) hbusy),
    fun ha hre hno => refused ha (markBusy_retx_noCtx _ (hretx.trans hre) hno),
    refuses_address nofun fun e he => by simp only [effectOf, hqMark, hdev, hproc]; rw [he]⟩

/-! ### HQ_RESULT (R176, R177, R183) -/

section Result

variable {p : Params} {r : HarqRec}

theorem onReceptionResult_success (hbusy : r.state = .busy) :
    onReceptionResult p r true = .ok ({ r with state := .free, hasCtx := false, pos := 0 }, outcomeAcked) := by
  rw [onReceptionResult, if_pos hbusy, if_pos rfl]

/-- A failure at the last redundancy version drops the packet (R183). -/
theorem onReceptionResult_last (hbusy : r.state = .busy) (hpos : r.pos = p.rvLen - 1) :
    onReceptionResult p r false = .ok ({ r with state := .free, hasCtx := false, pos := 0 }, outcomeDropped) := by
  rw [onReceptionResult, if_pos hbusy, if_neg Bool.false_ne_true, if_pos hpos]

/-- A failure before the last redundancy version keeps the grant as context, of either kind; the size is that of
the original transmission (R177). -/
theorem onReceptionResult_keepsCtx (hbusy : r.state = .busy) (hpos : r.pos ≠ p.rvLen - 1) :
    onReceptionResult p r false
      = .ok ({ r with ctx := r.grant, hasCtx := true
                      lastTBS := if r.grant.getLsbD 21 then r.lastTBS else r.grantTbs }, outcomeRetx) := by
  rw [onReceptionResult, if_pos hbusy, if_neg Bool.false_ne_true, if_neg hpos, grantIsRetx_eq]

theorem onReceptionResult_free {success : Bool} (hfree : r.state = .free) :
    onReceptionResult p r success = .error .harqState := if_neg (by simp [hfree])

variable {dir : Dir} {succ : Bool} {proc dev : Nat} {s : State}

theorem hqResult_of_refused {e : ErrCode} (haddr : checkAddr s.params dev proc = none)
    (hreport : onReceptionResult s.params (s.harq dev dir proc) succ = .error e) :
    hqResult dir succ proc dev s = .error e := by
  simp only [hqResult, haddr, hreport]

/-- An accepted HQ_RESULT replaces the addressed record by what `onReceptionResult` returns. -/
theorem exec_hqResult_moves {outcome : Nat} (hlt : proc < 16) (haddr : checkAddr s.params dev proc = none)
    (hreport : onReceptionResult s.params (s.harq dev dir proc) succ = .ok (r, outcome)) :
    ∃ t, exec (.hqResult dir succ proc dev) s = .next t ∧ Accepted s t ∧ RegsKept s t [8]
      ∧ t.reg 8 = word outcome ∧ t.harq dev dir proc = r
      ∧ (∀ d di q, q < 16 → (d, di, q) ≠ (dev, dir, proc) → t.harq d di q = s.harq d di q)
      ∧ t.g = s.g ∧ t.buf = s.buf ∧ t.desc = s.desc ∧ t.lc = s.lc := by
  have heff : effectOf (.hqResult dir succ proc dev) s = _ := hqResult_of_report haddr hreport
  refine ⟨_, exec_of_effect nofun heff, accepted_complete heff, fun i hi hi15 => ?_, by simp,
    s.harq_setHarq_self dev dir proc r, fun _ _ _ => State.harq_setHarq_of_ne r hlt, rfl, rfl, rfl, rfl⟩
  have hi8 : i ≠ 8 := by simpa using hi
  simp [hi8, hi15]

end Result

/-- Settles O38: `onReceptionResult` answers by the record's state, the report and the position, and the command
writes back just that record (`exec_hqResult_moves`). -/
theorem hqResultMovesTheRecord : Obligations.HqResultMovesTheRecord := by
  intro dir succ proc dev s hlt old goes addressed
  have moves {r : HarqRec} {outcome : Nat} (ha : addressed)
      (hreport : onReceptionResult s.params old succ = .ok (r, outcome)) : goes r outcome :=
    exec_hqResult_moves hlt (checkAddr_none.2 ha) hreport
  refine ⟨fun ha hbusy hsucc => moves ha ?_, fun ha hbusy hfail hlast => moves ha ?_,
    fun ha hbusy hfail hpos => moves ha ?_, fun ha hfree => ?_,
    refuses_address nofun fun e he => by simp only [effectOf, hqResult, he]⟩
  · rw [hsucc]; exact onReceptionResult_success hbusy
  · rw [hfail]; exact onReceptionResult_last hbusy hlast
  · rw [hfail]; exact onReceptionResult_keepsCtx hbusy hpos
  · exact refuses_of_effect nofun (hqResult_of_refused (checkAddr_none.2 ha) (onReceptionResult_free hfree)) rfl

/-! ### HQ_READ (R178) -/

theorem hqRead_accepts {dir : Dir} {proc dev : Nat} {s : State} (haddr : checkAddr s.params dev proc = none) :
    hqRead dir proc dev s
      = .ok ((((((s.result 8 (harqStateNat (s.harq dev dir proc).state)).result 9 (s.harq dev dir proc).pos).result 10
        (rvAt s.params (s.harq dev dir proc).pos)).result 11 (bitNat (s.harq dev dir proc).lastNDI)).result 12
        (bitNat (s.harq dev dir proc).hasCtx)).setReg 13 (s.harq dev dir proc).lastTBS) := by
  simp only [hqRead, haddr]

/-- Settles O39: HQ_READ is six register writes behind the address check. -/
theorem hqReadReportsTheRecord : Obligations.HqReadReportsTheRecord := by
  intro dir proc dev s r
  refine ⟨fun hdev hdev' hproc => ?_, refuses_address nofun fun e he => by simp only [effectOf, hqRead, he]⟩
  have heff : effectOf (.hqRead dir proc dev) s = _ := hqRead_accepts (checkAddr_none.2 ⟨hdev, hdev', hproc⟩)
  refine ⟨_, exec_of_effect nofun heff, accepted_complete heff, fun i hi hi15 => ?_, by simp [word_harqStateNat, r],
    by simp [r], by simp [word_rvAt, r], by simp [r], by simp [r], by simp [r], rfl, rfl, rfl, rfl, rfl⟩
  have hne : i ≠ 8 ∧ i ≠ 9 ∧ i ≠ 10 ∧ i ≠ 11 ∧ i ≠ 12 ∧ i ≠ 13 := by simpa using hi
  simp [hne, hi15]

/-! ### HQ_CTX (R180) -/

theorem hqCtx_of_noCtx {s : State} {dev proc : Nat} {dir : Dir} (haddr : checkAddr s.params dev proc = none)
    (hctx : (s.harq dev dir proc).hasCtx = false) : hqCtx dir proc dev s = .error .harqState := by
  simp only [hqCtx, haddr, hctx, if_true]

/-- Settles O40: HQ_CTX unpacks the context word by word (`grantWord_eq`) and writes no record. -/
theorem hqCtxReturnsTheContext : Obligations.HqCtxReturnsTheContext := by
  intro dir proc dev s r
  refine ⟨fun hdev hdev' hproc hctx => ?_, fun hdev hdev' hproc hctx => ?_,
    refuses_address nofun fun e he => by simp only [effectOf, hqCtx, he]⟩
  · have heff : effectOf (.hqCtx dir proc dev) s = _ := hqCtx_of_ctx (checkAddr_none.2 ⟨hdev, hdev', hproc⟩) hctx
    refine ⟨_, exec_of_effect nofun heff, accepted_complete heff, fun i hi hi15 => ?_, by simp [r], fun i => ?_, rfl,
      rfl, rfl, rfl⟩
    · have hi8 : i ≠ 8 := by simpa using hi
      simp [hi8, hi15]
    · rw [← grantWord_eq]
      fin_cases i <;> simp [r]
  · exact refuses_of_effect nofun (hqCtx_of_noCtx (checkAddr_none.2 ⟨hdev, hdev', hproc⟩) hctx) rfl

/-! ### A process through its redundancy-version sequence (R183, R184) -/

/-- Before the last position, a failure and the retransmission mark it asks for are one step of `retransmit`: the
process is again Busy without a context, one position further, its NDI unchanged. -/
theorem retransmit_cons {p : Params} {r : HarqRec} {grant : GrantBits} (tbs : Word) (rest : List (GrantBits × Word))
    (hbusy : r.state = .busy) (hpos : r.pos ≠ p.rvLen - 1) (hretx : grant.getLsbD 21 = true) :
    ∃ r', retransmit p r ((grant, tbs) :: rest) = retransmit p r' rest
      ∧ r'.state = .busy ∧ r'.pos = r.pos + 1 ∧ r'.hasCtx = false ∧ r'.lastNDI = r.lastNDI := by
  rw [retransmit, onReceptionResult_keepsCtx hbusy hpos]
  simp only [if_true]
  rw [markBusy_retx tbs ((grantIsRetx_eq grant).trans hretx)]
  case hbusy => exact hbusy
  case hctx => rfl
  exact ⟨_, rfl, hbusy, rfl, rfl, rfl⟩

/-- As long as the sequence lasts, a Busy process without a context takes one position for each
retransmission. -/
theorem retransmit_advances {p : Params} {retxs : List (GrantBits × Word)}
    (hretx : ∀ g ∈ retxs, g.1.getLsbD 21 = true) {r : HarqRec} (hbusy : r.state = .busy) (hctx : r.hasCtx = false)
    (hlen : r.pos + retxs.length ≤ p.rvLen - 1) :
    ∃ rk, retransmit p r retxs = some rk ∧ rk.state = .busy ∧ rk.pos = r.pos + retxs.length ∧ rk.hasCtx = false
      ∧ rk.lastNDI = r.lastNDI := by
  induction retxs generalizing r with
  | nil => exact ⟨r, rfl, hbusy, rfl, hctx, rfl⟩
  | cons g rest ih =>
    obtain ⟨hg, hrest⟩ := List.forall_mem_cons.1 hretx
    rw [List.length_cons] at hlen ⊢
    obtain ⟨r', hstep, hbusy', hpos', hctx', hndi'⟩ :=
      retransmit_cons (p := p) g.2 rest hbusy (by omega) hg
    obtain ⟨rk, hrk, hbusyk, hposk, hctxk, hndik⟩ := ih hrest hbusy' hctx' (by omega)
    exact ⟨rk, hstep.trans hrk, hbusyk, by omega, hctxk, hndik.trans hndi'⟩

/-- Settles O43: the New mark starts at position 0 without a context, each retransmission takes one position
(`retransmit_advances`), and a failure at the last one drops the packet (`onReceptionResult_last`). -/
theorem fullSequenceEndsFree : Obligations.FullSequenceEndsFree := by
  intro p r r1 first tbs retxs _ hr hfree hnew hretx hmark hlen
  obtain ⟨hctxBusy, -, -, -, -⟩ := hr
  have hctx : r.hasCtx = false := Bool.eq_false_iff.2 fun h => by simp [hctxBusy h] at hfree
  obtain ⟨hbusy1, hpos1, hctx1, hndi1⟩ :
      r1.state = .busy ∧ r1.pos = 0 ∧ r1.hasCtx = false ∧ r1.lastNDI = !r.lastNDI := by
    rw [markBusy_new tbs ((grantIsRetx_eq first).trans hnew) hfree] at hmark
    obtain rfl := Except.ok.inj hmark
    exact ⟨rfl, rfl, hctx, rfl⟩
  obtain ⟨rk, hrk, hbusy, hpos, hctxk, hndi⟩ := retransmit_advances (p := p) hretx hbusy1 hctx1 (by omega)
  exact ⟨rk, hrk, hbusy, by omega, hctxk, hndi.trans hndi1, fun hlast =>
    ⟨_, onReceptionResult_last hbusy (by omega), rfl, rfl, rfl⟩⟩

end Sys2Proof.Machine

/-! ## The commands on one channel record (R201 to R204, R218) -/

namespace Sys2Proof.Machine

/-! ### The checks of a device and a channel (R202) -/

theorem badDevice_of_not {p : Params} {dev : Nat} (hdev : ¬ (1 ≤ dev ∧ dev ≤ p.numDevices)) : badDevice p dev = true :=
  badDevice_true.2 (by omega)

theorem checkDevCh_device {p : Params} {dev : Nat} (hdev : ¬ (1 ≤ dev ∧ dev ≤ p.numDevices)) (ch : Nat) :
    checkDevCh p dev ch = some .device := if_pos (badDevice_of_not hdev)

theorem checkDevCh_channel {p : Params} {dev ch : Nat} (hdev : 1 ≤ dev ∧ dev ≤ p.numDevices)
    (hch : ¬ (1 ≤ ch ∧ ch ≤ 32)) : checkDevCh p dev ch = some .channel := by
  have hbad : badChannel ch = true := decide_eq_true (show ch = 0 ∨ 32 < ch by omega)
  rw [checkDevCh, badDevice_false.2 hdev, hbad]
  rfl

theorem checkReg_device {s : State} {dev : Nat} (hdev : ¬ (1 ≤ dev ∧ dev ≤ s.params.numDevices)) (ch : Nat) :
    checkReg s dev ch = some .device := by
  rw [checkReg, checkDevCh_device hdev]

/-- A channel that does not exist and one that is not registered are refused alike. -/
theorem checkReg_channel {s : State} {dev ch : Nat} (hdev : 1 ≤ dev ∧ dev ≤ s.params.numDevices)
    (hch : ¬ (1 ≤ ch ∧ ch ≤ 32) ∨ (s.chan dev ch).valid = false) : checkReg s dev ch = some .channel := by
  by_cases hid : 1 ≤ ch ∧ ch ≤ 32
  · have hv : (s.chan dev ch).valid = false := hch.resolve_left (not_not_intro hid)
    simp only [checkReg, checkDevCh_none.2 ⟨hdev.1, hdev.2, hid⟩, hv, Bool.false_eq_true, if_false]
  · rw [checkReg, checkDevCh_channel hdev hid]

/-- A command whose first check is `check_reg` refuses what that check refuses (R202). -/
theorem refuses_unregistered {i : Instr} {s : State} {dev ch : Nat} (hi : i ≠ .sreset)
    (hfirst : ∀ e, checkReg s dev ch = some e → effectOf i s = .error e) :
    (¬ (1 ≤ dev ∧ dev ≤ s.params.numDevices) → Refuses i s 8)
    ∧ (1 ≤ dev ∧ dev ≤ s.params.numDevices → ¬ (1 ≤ ch ∧ ch ≤ 32) ∨ (s.chan dev ch).valid = false →
        Refuses i s 11) :=
  ⟨fun hdev => refuses_of_effect hi (hfirst _ (checkReg_device hdev ch)) rfl,
    fun hdev hch => refuses_of_effect hi (hfirst _ (checkReg_channel hdev hch)) rfl⟩

/-! ### One record written -/

/-- A write leaves the record of every other device and channel as it was. -/
theorem State.chan_setChan_of_ne {s : State} {dev d ch c : Nat} (r : LcRec) (hch : ch < 64) (hc : c < 64)
    (hne : (d, c) ≠ (dev, ch)) : (s.setChan dev ch r).chan d c = s.chan d c := by
  rw [State.chan_setChan, if_neg]
  intro hkey
  obtain ⟨rfl, rfl⟩ := lcKey_inj _ _ _ _ hc hch hkey
  exact hne rfl

/-- A command whose effect is one write to the channel table. -/
theorem exec_of_setChan {i : Instr} {s : State} {dev ch : Nat} {r : LcRec} (hi : i ≠ .sreset)
    (heff : effectOf i s = .ok (s.setChan dev ch r)) (hch : ch < 64) :
    ∃ t, exec i s = .next t ∧ Accepted s t ∧ RegsKept s t [] ∧ t.chan dev ch = r
      ∧ (∀ d c, c < 64 → (d, c) ≠ (dev, ch) → t.chan d c = s.chan d c)
      ∧ t.g = s.g ∧ t.buf = s.buf ∧ t.desc = s.desc ∧ t.hq = s.hq :=
  ⟨_, exec_of_effect hi heff, accepted_complete heff, fun _ _ hi15 => by simp [hi15], s.chan_setChan_self dev ch r,
    fun _ _ => State.chan_setChan_of_ne r hch, rfl, rfl, rfl, rfl⟩

/-! ### LC_REG (R201) -/

theorem lcParamBad_false {bsd prio lcg : Nat} :
    lcParamBad bsd prio lcg = false ↔ 1 ≤ prio ∧ prio ≤ 16 ∧ lcg ≤ 7 ∧ bsd ≤ 65535 := by
  simp only [lcParamBad, numPrio, numLcg, decide_eq_false_iff_not]
  omega

section LcReg

variable {ch dev : Nat} {s : State}

theorem lcReg_of_check {e : ErrCode} (h : checkDevCh s.params dev ch = some e) : lcReg ch dev s = .error e := by
  rw [lcReg, h]

variable (haddr : checkDevCh s.params dev ch = none)

include haddr

theorem lcReg_badParam (hparam : lcParamBad (s.argN 1) (s.argN 2) (s.argN 3) = true) :
    lcReg ch dev s = .error .param := by
  rw [lcReg, haddr]
  exact if_pos hparam

theorem lcReg_duplicate (hparam : lcParamBad (s.argN 1) (s.argN 2) (s.argN 3) = false)
    (hv : (s.chan dev ch).valid = true) : lcReg ch dev s = .error .dup := by
  simp only [lcReg, haddr, hparam, hv, Bool.false_eq_true, if_false, if_true]

theorem lcReg_accepts (hparam : lcParamBad (s.argN 1) (s.argN 2) (s.argN 3) = false)
    (hv : (s.chan dev ch).valid = false) :
    lcReg ch dev s = .ok (s.setChan dev ch ⟨true, BitVec.ofNat 3 (s.argN 3), BitVec.ofNat 5 (s.argN 2), s.reg 0,
      BitVec.ofNat 16 (s.argN 1), 0, 0, 0⟩) := by
  simp only [lcReg, haddr, hparam, hv, Bool.false_eq_true, if_false]

end LcReg

/-- Settles O44: the checks of `lcReg` in their order, and one record written (`exec_of_setChan`), whose checked
operands fit its fields. -/
theorem lcRegRegistersOneChannel : Obligations.LcRegRegistersOneChannel := by
  intro ch dev s hlt bsd prio lcg goodDev goodCh goodParam
  have addressed (hdev : goodDev) (hch : goodCh) : checkDevCh s.params dev ch = none :=
    checkDevCh_none.2 ⟨hdev.1, hdev.2, hch⟩
  refine ⟨fun hdev hch hparam hv => ?_, fun hdev => ?_, fun hdev hch => ?_, fun hdev hch hparam => ?_,
    fun hdev hch hparam hv => ?_⟩
  · obtain ⟨t, ht, hacc, hregs, hrec, hothers, hkept⟩ := exec_of_setChan (i := .lcReg ch dev) nofun
      (lcReg_accepts (addressed hdev hch) (lcParamBad_false.2 hparam) hv) hlt
    obtain ⟨-, hprio, hlcg, hbsd⟩ := hparam
    refine ⟨t, ht, hacc, hregs, ?_⟩
    rw [hrec]
    exact ⟨rfl, Nat.mod_eq_of_lt (Nat.lt_succ_of_le hlcg), Nat.mod_eq_of_lt (show prio < 32 by omega), rfl,
      Nat.mod_eq_of_lt (Nat.lt_succ_of_le hbsd), rfl, rfl, rfl, hothers, hkept⟩
  · exact refuses_of_effect nofun (lcReg_of_check (checkDevCh_device hdev ch)) rfl
  · exact refuses_of_effect nofun (lcReg_of_check (checkDevCh_channel hdev hch)) rfl
  · exact refuses_of_effect nofun (lcReg_badParam (addressed hdev hch)
      (Bool.eq_true_of_not_eq_false fun h => hparam (lcParamBad_false.1 h))) rfl
  · exact refuses_of_effect nofun (lcReg_duplicate (addressed hdev hch) (lcParamBad_false.2 hparam) hv) rfl

/-! ### LC_BUF (R203) -/

theorem lcBuf_accepts {ch dev : Nat} {s : State} (hreg : checkReg s dev ch = none) :
    lcBuf ch dev s = .ok (s.setChan dev ch { s.chan dev ch with pending := s.reg 0 }) := by
  rw [lcBuf, hreg]

/-- Settles O45: behind `check_reg`, LC_BUF is one record written (`exec_of_setChan`). -/
theorem lcBufReplacesPending : Obligations.LcBufReplacesPending := by
  intro ch dev s hlt goodDev goodCh
  refine ⟨fun hdev hch hv => ?_, refuses_unregistered nofun fun e he => by simp only [effectOf, lcBuf, he]⟩
  exact exec_of_setChan (i := .lcBuf ch dev) nofun (lcBuf_accepts (checkReg_none.2 ⟨⟨hdev.1, hdev.2, hch⟩, hv⟩)) hlt

/-! ### LC_TIME (R204) -/

theorem nodup_channelIds : channelIds.Nodup := List.nodup_range'

/-- LC_TIME over distinct channels advances each registered one of them once. -/
theorem lcTimeOver_chan {dev : Nat} (dt : Nat) {l : List Nat} (s : State) (hnodup : l.Nodup) (hl : ∀ ch ∈ l, ch < 64)
    {d c : Nat} (hc : c < 64) :
    (lcTimeOver dev dt l s).chan d c
      = if d = dev ∧ c ∈ l ∧ (s.chan d c).valid = true then lcElapse dt (s.chan d c) else s.chan d c := by
  induction l generalizing s with
  | nil => simp [lcTimeOver]
  | cons ch l ih =>
    obtain ⟨hfresh, hnodup⟩ := List.nodup_cons.1 hnodup
    obtain ⟨hch, hl⟩ := List.forall_mem_cons.1 hl
    rw [lcTimeOver, ih _ hnodup hl]
    by_cases hhere : (d, c) = (dev, ch)
    · obtain ⟨rfl, rfl⟩ := Prod.mk.inj hhere
      by_cases hv : (s.chan d c).valid = true <;> simp [hfresh, hv]
    · have hsame : (if (s.chan dev ch).valid = true then s.setChan dev ch (lcElapse dt (s.chan dev ch))
          else s).chan d c = s.chan d c := by
        split
        · exact State.chan_setChan_of_ne _ hch hc hhere
        · rfl
      have hmem : d = dev ∧ c ∈ ch :: l ∧ (s.chan d c).valid = true
          ↔ d = dev ∧ c ∈ l ∧ (s.chan d c).valid = true := by
        rw [List.mem_cons]
        exact and_congr_right fun hd => and_congr_left' (or_iff_right fun hcc => hhere (by rw [hd, hcc]))
      rw [hsame, if_congr hmem rfl rfl]

theorem lcTime_accepts {dev : Nat} {s : State} (hdev : 1 ≤ dev ∧ dev ≤ s.params.numDevices) :
    lcTime dev s = .ok (lcTimeOver dev (s.argN 0) channelIds s) := by
  simp only [lcTime, badDevice_false.2 hdev, Bool.false_eq_true, if_false]

/-- Settles O46: LC_TIME visits the channels 1..32 of the device, each once (`lcTimeOver_chan`). -/
theorem lcTimeAdvancesTheDevice : Obligations.LcTimeAdvancesTheDevice := by
  intro dev s
  refine ⟨fun hdev hdev' => ?_, fun hdev => refuses_of_effect nofun (if_pos (badDevice_true.2 hdev)) rfl⟩
  have heff : effectOf (.lcTime dev) s = _ := lcTime_accepts ⟨hdev, hdev'⟩
  have hchan : ∀ d c, c < 64 → (lcTimeOver dev (s.argN 0) channelIds s).chan d c
      = if d = dev ∧ 1 ≤ c ∧ c ≤ 32 ∧ (s.chan d c).valid = true then lcElapse (s.argN 0) (s.chan d c)
        else s.chan d c := fun d c hc => by
    have hids : ∀ ch ∈ channelIds, ch < 64 := fun ch hch => by
      have := mem_channelIds.1 hch
      omega
    simpa only [mem_channelIds, and_assoc] using
      lcTimeOver_chan (dev := dev) (d := d) (s.argN 0) s nodup_channelIds hids hc
  obtain ⟨-, hg, -, -, -, hbuf, hdesc, hhq, -, -, -, hreg⟩ := lcTimeOver_frame dev (s.argN 0) channelIds s
  generalize lcTimeOver dev (s.argN 0) channelIds s = u at heff hchan hg hbuf hdesc hhq hreg
  refine ⟨_, exec_of_effect nofun heff, accepted_complete heff, fun i _ hi15 => ?_, hchan, hg, hbuf, hdesc, hhq⟩
  rw [State.reg_complete, if_neg hi15, hreg]

/-! ### LC_READ (R218) -/

theorem lcRead_accepts {ch dev : Nat} {s : State} (hreg : checkReg s dev ch = none) :
    lcRead ch dev s = .ok (((((((s.setReg 8 (s.chan dev ch).pending).setReg 9 (s.chan dev ch).bj).setReg 10
      (s.chan dev ch).elapsed).setReg 11 (s.chan dev ch).pbr).result 12 (s.chan dev ch).bsd.toNat).result 13
      (s.chan dev ch).prio.toNat).result 14 (s.chan dev ch).lcg.toNat) := by
  rw [lcRead, hreg]

/-- Settles O54: LC_READ is seven register writes behind `check_reg`. -/
theorem lcReadReportsTheChannel : Obligations.LcReadReportsTheChannel := by
  intro ch dev s c goodDev goodCh
  refine ⟨fun hdev hch hv => ?_, refuses_unregistered nofun fun e he => by simp only [effectOf, lcRead, he]⟩
  have heff : effectOf (.lcRead ch dev) s = _ := lcRead_accepts (checkReg_none.2 ⟨⟨hdev.1, hdev.2, hch⟩, hv⟩)
  refine ⟨_, exec_of_effect nofun heff, accepted_complete heff, fun i hi hi15 => ?_, by simp [c], by simp [c],
    by simp [c], by simp [c], by simp [c, word], by simp [c, word], by simp [c, word], rfl, rfl, rfl, rfl, rfl⟩
  have hne : i ≠ 8 ∧ i ≠ 9 ∧ i ≠ 10 ∧ i ≠ 11 ∧ i ≠ 12 ∧ i ≠ 13 ∧ i ≠ 14 := by simpa using hi
  simp [hne, hi15]

end Sys2Proof.Machine

/-! ## The rounds of the LCP run (R206, R209, R210) -/

namespace Sys2Proof.Machine

/-! ### Round 1 (R209) -/

/-- The bytes each channel uses in Round 1, `rem` bytes being left before the first. -/
def round1Uses : Nat → List LcpChan → List Nat
  | _, [] => []
  | rem, c :: cs =>
    let u := if rem < lcpMinGrant then 0 else round1Use rem c
    u :: round1Uses (rem - u) cs

/-- A channel after using `u` bytes in Round 1. -/
def drainBucket (c : LcpChan) (u : Nat) : LcpChan :=
  { c with alloc := c.alloc + u, pending := c.pending - u, bj := if c.unlimited then c.bj else c.bj - u }

theorem drainBucket_zero (c : LcpChan) : drainBucket c 0 = c := by
  simp [drainBucket]

theorem round1_of_lt {rem : Nat} (h : rem < lcpMinGrant) (cs : List LcpChan) : round1 rem cs = (cs, rem) := by
  cases cs with
  | nil => rfl
  | cons c cs => rw [round1, if_pos h]

theorem length_round1Uses (rem : Nat) (cs : List LcpChan) : (round1Uses rem cs).length = cs.length := by
  induction cs generalizing rem with
  | nil => rfl
  | cons c cs ih => rw [round1Uses, List.length_cons, List.length_cons, ih]

theorem sum_round1Uses_le (rem : Nat) (cs : List LcpChan) : (round1Uses rem cs).sum ≤ rem := by
  induction cs generalizing rem with
  | nil => exact Nat.zero_le _
  | cons c cs ih =>
    have huse : (if rem < lcpMinGrant then 0 else round1Use rem c) ≤ rem := by
      split
      · exact Nat.zero_le _
      · exact (min_le_left _ _).trans (min_le_right _ _)
    rw [round1Uses, List.sum_cons]
    exact Nat.add_le_of_le_sub' huse (ih _)

/-- Each use is that of R209 with what the uses before it leave. -/
theorem round1Uses_getD {rem j : Nat} {cs : List LcpChan} {c : LcpChan} (hj : cs[j]? = some c) :
    (round1Uses rem cs).getD j 0
      = if rem - ((round1Uses rem cs).take j).sum < lcpMinGrant then 0
        else round1Use (rem - ((round1Uses rem cs).take j).sum) c := by
  induction cs generalizing rem j with
  | nil => simp at hj
  | cons d cs ih =>
    cases j with
    | zero =>
      obtain rfl := Option.some.inj hj
      rfl
    | succ j =>
      rw [round1Uses, List.getD_cons_succ, List.take_succ_cons, List.sum_cons, ← Nat.sub_sub]
      exact ih hj

/-- Round 1 visits each channel once and lets it use its bytes. -/
theorem round1_eq (rem : Nat) (cs : List LcpChan) :
    round1 rem cs = (List.zipWith drainBucket cs (round1Uses rem cs), rem - (round1Uses rem cs).sum) := by
  induction cs generalizing rem with
  | nil => rfl
  | cons c cs ih =>
    rw [round1, round1Uses]
    by_cases h8 : rem < lcpMinGrant
    · have hrest := ih rem
      rw [round1_of_lt h8] at hrest
      obtain ⟨hcs, hrem⟩ := Prod.mk.inj hrest
      simp only [if_pos h8, Nat.sub_zero, List.zipWith_cons_cons, List.sum_cons, Nat.zero_add, drainBucket_zero, ← hcs,
        ← hrem]
    · simp only [if_neg h8, List.zipWith_cons_cons, List.sum_cons, ← Nat.sub_sub]
      by_cases hserved : 0 < c.bj ∧ 0 < c.pending
      · rw [if_pos hserved, ih]
        rfl
      · have hnone : round1Use rem c = 0 := by
          rw [round1Use]
          omega
        rw [if_neg hserved, hnone, drainBucket_zero, Nat.sub_zero, ih]

/-- Settles O51: the uses of Round 1 (`round1Uses`) are those of R209, and the round is their application
(`round1_eq`). -/
theorem round1GivesBucketShares : Obligations.Round1GivesBucketShares := fun budget cs =>
  ⟨round1Uses budget cs, length_round1Uses budget cs, fun _ _ hj => round1Uses_getD hj, sum_round1Uses_le budget cs,
    round1_eq budget cs⟩

/-! ### One iteration of Round 2 (R210) -/

/-- The bytes channel `j` of a list uses in an iteration with shares `q` and `q + 1`, `i` served channels standing
before the list. -/
def shareUse (p q r i : Nat) (cs : List LcpChan) (j : Nat) (c : LcpChan) : Nat :=
  if wants p c then min (shareOf q r (i + ((cs.take j).filter (wants p)).length)) c.pending else 0

theorem shareOut_eq (p q r i : Nat) (cs : List LcpChan) :
    shareOut p q r i cs
      = (cs.mapIdx (fun j c => useBytes (shareUse p q r i cs j c) c), (cs.mapIdx (shareUse p q r i cs)).sum) := by
  induction cs generalizing i with
  | nil => rfl
  | cons c cs ih =>
    rw [shareOut]
    by_cases hw : wants p c = true
    · have hrest : (fun j => shareUse p q r i (c :: cs) (j + 1)) = shareUse p q r (i + 1) cs := by
        funext j d
        rw [shareUse, List.take_succ_cons, List.filter_cons_of_pos hw, List.length_cons, shareUse, Nat.add_right_comm,
          Nat.add_assoc i]
      have hhead : shareUse p q r i (c :: cs) 0 c = min (shareOf q r i) c.pending := if_pos hw
      simp only [if_pos hw, ih, List.mapIdx_cons, List.sum_cons, hhead, ← hrest]
    · have hrest : (fun j => shareUse p q r i (c :: cs) (j + 1)) = shareUse p q r i cs := by
        funext j d
        rw [shareUse, List.take_succ_cons, List.filter_cons_of_neg hw, shareUse]
      have hhead : shareUse p q r i (c :: cs) 0 c = 0 := if_neg hw
      simp only [if_neg hw, ih, List.mapIdx_cons, List.sum_cons, hhead, ← hrest, Nat.zero_add]
      rfl

theorem iterationUse_eq (p rem : Nat) (cs : List LcpChan) :
    iterationUse p rem cs
      = shareUse p (rem / (cs.filter (wants p)).length) (rem % (cs.filter (wants p)).length) 0 cs := by
  funext j c
  simp only [iterationUse, shareUse, shareOf, Nat.zero_add]
  split_ifs <;> rfl

/-- The model's iteration is that of R210. -/
theorem shareOut_iteration (p rem : Nat) (cs : List LcpChan) :
    shareOut p (rem / (cs.filter (wants p)).length) (rem % (cs.filter (wants p)).length) 0 cs
      = (iterate p rem cs, iterationTotal p rem cs) := by
  rw [shareOut_eq, ← iterationUse_eq]
  rfl

/-- An iteration grants all that remains, or ends the service of at least one channel (R215). -/
theorem iterate_progress {p rem : Nat} {cs : List LcpChan} (hn : (cs.filter (wants p)).length ≠ 0) :
    rem - iterationTotal p rem cs = 0
    ∨ ((iterate p rem cs).filter (wants p)).length < (cs.filter (wants p)).length := by
  obtain ⟨hle, hall⟩ := shareOut_progress p (rem / (cs.filter (wants p)).length)
    (rem % (cs.filter (wants p)).length) 0 cs
  rw [shareOut_iteration] at hle hall
  have hdiv := Nat.div_add_mod rem (cs.filter (wants p)).length
  have hmod := Nat.mod_lt rem (Nat.pos_of_ne_zero hn)
  obtain hlt | heq := Nat.lt_or_eq_of_le hle
  · exact .inr hlt
  · have := hall heq
    left
    omega

/-! ### Round 2 is the walk (R210, R215) -/

theorem round2Loop_of_lt {rem : Nat} (h : rem < lcpMinGrant) (p fuel : Nat) (cs : List LcpChan) :
    round2Loop p fuel rem cs = (cs, rem) := by
  cases fuel with
  | zero => rfl
  | succ fuel => rw [round2Loop, if_pos h]

theorem round2Loop_iterate {p rem : Nat} {cs : List LcpChan} (h8 : ¬ rem < lcpMinGrant)
    (hn : (cs.filter (wants p)).length ≠ 0) (fuel : Nat) :
    round2Loop p (fuel + 1) rem cs = round2Loop p fuel (rem - iterationTotal p rem cs) (iterate p rem cs) := by
  simp only [round2Loop, if_neg h8, if_neg hn, shareOut_iteration]

theorem round2Loop_idle {p rem : Nat} {cs : List LcpChan} (hn : (cs.filter (wants p)).length = 0) (fuel : Nat) :
    round2Loop p fuel rem cs = (cs, rem) := by
  cases fuel with
  | zero => rfl
  | succ fuel => simp only [round2Loop, hn, if_true, ite_self]

theorem Round2Walk.eq_of_lt {p rem rem' : Nat} {cs cs' : List LcpChan} (h : Round2Walk p rem cs cs' rem')
    (hlt : rem < 8) : cs' = cs ∧ rem' = rem := by
  cases h with
  | tooLittle => exact ⟨rfl, rfl⟩
  | allDone => exact ⟨rfl, rfl⟩
  | nextPriority hp h8 | iteration hp h8 => omega

/-- The iterations at one priority: a walk that goes on from where the loop ends is a walk from its start. The bound
is enough, since an iteration that leaves 8 bytes leaves one served channel fewer. -/
theorem round2Walk_of_loop {p fuel rem : Nat} {cs cs' : List LcpChan} {rem' : Nat} (hp : p ≤ 16)
    (hfuel : rem < lcpMinGrant ∨ (cs.filter (wants p)).length < fuel)
    (h : Round2Walk (p + 1) (round2Loop p fuel rem cs).2 (round2Loop p fuel rem cs).1 cs' rem') :
    Round2Walk p rem cs cs' rem' := by
  induction fuel generalizing rem cs with
  | zero =>
    have h8 : rem < 8 := hfuel.resolve_right (Nat.not_lt_zero _)
    obtain ⟨rfl, rfl⟩ := h.eq_of_lt h8
    exact .tooLittle p _ _ hp h8
  | succ fuel ih =>
    by_cases h8 : rem < lcpMinGrant
    · rw [round2Loop_of_lt h8] at h
      obtain ⟨rfl, rfl⟩ := h.eq_of_lt h8
      exact .tooLittle p _ _ hp h8
    by_cases hn : (cs.filter (wants p)).length = 0
    · rw [round2Loop_idle hn] at h
      have hidle : ∀ c ∈ cs, wants p c = false := by simpa using hn
      exact .nextPriority p rem cs cs' rem' hp (Nat.not_lt.1 h8) hidle h
    · rw [round2Loop_iterate h8 hn] at h
      have hserved : ∃ c ∈ cs, wants p c = true := by simpa using hn
      refine .iteration p rem cs cs' rem' hp (Nat.not_lt.1 h8) hserved (ih ?_ h)
      obtain hrem | hless := iterate_progress (rem := rem) hn
      · left
        rw [hrem]
        decide
      · have hlt := hfuel.resolve_left h8
        right
        omega

/-- Round 2 over the priorities from `p` on is a walk. -/
theorem round2Walk_round2 {n p : Nat} (hp : p + n = 17) (rem : Nat) (cs : List LcpChan) :
    Round2Walk p rem cs (round2 (List.range' p n) rem cs).1 (round2 (List.range' p n) rem cs).2 := by
  induction n generalizing p rem cs with
  | zero =>
    obtain rfl : p = 17 := hp
    exact .allDone rem cs
  | succ n ih =>
    rw [List.range'_succ, round2]
    refine round2Walk_of_loop (by omega) (.inr ?_) (ih (by omega) _ _)
    exact Nat.lt_succ_of_le (List.length_filter_le _ _)

/-- A walk has one outcome: its steps exclude each other. -/
theorem Round2Walk.unique {p rem rem₁ rem₂ : Nat} {cs cs₁ cs₂ : List LcpChan} (h₁ : Round2Walk p rem cs cs₁ rem₁)
    (h₂ : Round2Walk p rem cs cs₂ rem₂) : cs₁ = cs₂ ∧ rem₁ = rem₂ := by
  induction h₁ with
  | tooLittle p rem cs hp hlt =>
    obtain ⟨rfl, rfl⟩ := h₂.eq_of_lt hlt
    exact ⟨rfl, rfl⟩
  | allDone rem cs =>
    cases h₂ with
    | allDone => exact ⟨rfl, rfl⟩
    | tooLittle hp | nextPriority hp | iteration hp => omega
  | nextPriority p rem cs cs' rem' hp h8 hidle _ ih =>
    cases h₂ with
    | tooLittle | allDone => omega
    | nextPriority _ _ _ _ _ _ _ _ hrest => exact ih hrest
    | iteration _ _ _ _ _ _ _ hserved _ =>
      obtain ⟨c, hc, hw⟩ := hserved
      rw [hidle c hc] at hw
      cases hw
  | iteration p rem cs cs' rem' hp h8 hserved _ ih =>
    cases h₂ with
    | tooLittle | allDone => omega
    | nextPriority _ _ _ _ _ _ _ hidle _ =>
      obtain ⟨c, hc, hw⟩ := hserved
      rw [hidle c hc] at hw
      cases hw
    | iteration _ _ _ _ _ _ _ _ hrest => exact ih hrest

/-- Settles O52: Round 2 is a walk (`round2Walk_round2`), and a walk has one outcome. -/
theorem round2IsTheWalk : Obligations.Round2IsTheWalk := by
  intro rem cs cs' rem'
  have hwalk : Round2Walk 1 rem cs (round2 priorities rem cs).1 (round2 priorities rem cs).2 :=
    round2Walk_round2 (n := 16) rfl rem cs
  refine ⟨fun h => ?_, fun h => ?_⟩
  · obtain ⟨hcs, hrem⟩ := hwalk.unique h
    exact Prod.ext hcs hrem
  · rwa [h] at hwalk

/-! ### The order of service (R206) -/

theorem mem_serviceOrder {cs : List LcpChan} (hcs : ∀ c ∈ cs, c.prio < 32) {c : LcpChan} :
    c ∈ serviceOrder cs ↔ c ∈ cs := by
  simp only [serviceOrder, List.mem_flatMap, List.mem_range, List.mem_filter, decide_eq_true_eq]
  exact ⟨fun ⟨_, _, hc, _⟩ => hc, fun hc => ⟨c.prio, hcs c hc, hc, rfl⟩⟩

/-- Channels by ascending channelId come out by priority and then channelId. -/
theorem serviceOrder_pairwise {cs : List LcpChan} (hcs : cs.Pairwise (fun c d => c.id < d.id)) :
    (serviceOrder cs).Pairwise ServedBefore := by
  have hprio : ∀ {p : Nat} {c : LcpChan}, c ∈ cs.filter (fun c => decide (c.prio = p)) → c.prio = p := fun hc =>
    of_decide_eq_true (List.mem_filter.1 hc).2
  refine List.pairwise_flatMap.2 ⟨fun p _ => ?_, List.pairwise_lt_range.imp fun hlt c hc d hd => ?_⟩
  · refine (hcs.filter _).imp_of_mem fun hc hd hid => .inr ⟨(hprio hc).trans (hprio hd).symm, hid⟩
  · left
    rwa [hprio hc, hprio hd]

theorem mem_registered {s : State} {dev : Nat} {c : LcpChan} :
    c ∈ registered s dev ↔
      (1 ≤ c.id ∧ c.id ≤ 32) ∧ (s.chan dev c.id).valid = true ∧ c = lcpChanOf c.id (s.chan dev c.id) := by
  simp only [registered, List.mem_map, List.mem_filter, mem_channelIds]
  constructor
  · rintro ⟨ch, ⟨hch, hv⟩, rfl⟩
    exact ⟨hch, hv, rfl⟩
  · rintro ⟨hch, hv, hc⟩
    exact ⟨c.id, ⟨hch, hv⟩, hc.symm⟩

theorem registered_prio_lt {s : State} {dev : Nat} : ∀ c ∈ registered s dev, c.prio < 32 := fun c hc => by
  obtain ⟨-, -, heq⟩ := mem_registered.1 hc
  rw [heq]
  exact (s.chan dev c.id).prio.isLt

theorem registered_ids (s : State) (dev : Nat) :
    (registered s dev).map LcpChan.id = channelIds.filter (fun ch => (s.chan dev ch).valid) := by
  rw [registered, List.map_map]
  exact List.map_id _

theorem registered_pairwise (s : State) (dev : Nat) : (registered s dev).Pairwise (fun c d => c.id < d.id) := by
  have hids : ((registered s dev).map LcpChan.id).Pairwise (· < ·) := by
    rw [registered_ids]
    exact (List.pairwise_lt_range' 1).filter _
  exact List.pairwise_map.1 hids

/-- The channels of a run are the registered records of the device. -/
theorem mem_service {s : State} {dev : Nat} {c : LcpChan} :
    c ∈ serviceOrder (registered s dev) ↔
      (1 ≤ c.id ∧ c.id ≤ 32) ∧ (s.chan dev c.id).valid = true ∧ c = lcpChanOf c.id (s.chan dev c.id) :=
  (mem_serviceOrder registered_prio_lt).trans mem_registered

/-- Settles O49: the sort (`serviceOrder_pairwise`), and what is sorted (`mem_service`), field by field. -/
theorem serviceOrderIsByPriority : Obligations.ServiceOrderIsByPriority := by
  intro dev s
  refine ⟨serviceOrder_pairwise (registered_pairwise s dev), fun c => ?_⟩
  have hunlimited : c.unlimited = decide ((s.chan dev c.id).pbr = pbrInf)
      ↔ (c.unlimited = true ↔ (s.chan dev c.id).pbr = 0xFFFFFFFF) := by
    rw [Bool.eq_iff_iff, decide_eq_true_iff]
  rw [mem_service, ← hunlimited]
  obtain ⟨id, prio, unlimited, pbr, bsd, elapsed, pending, bj, alloc⟩ := c
  simp only [lcpChanOf, LcpChan.mk.injEq, true_and, and_assoc]

end Sys2Proof.Machine

/-! ## LC_RUN (R207) -/

namespace Sys2Proof.Machine

/-! ### The stages of a run (R212) -/

/-- Round 1 behind its gate, on channels whose buckets are filled: the channels after, and the remaining budget. -/
def gatedRound1 (cs : List LcpChan) (b : Nat) : List LcpChan × Nat :=
  if 2 ≤ activeCount cs then round1 b cs else (cs, b)

/-- The two rounds of a run, Round 2 over a list of priorities. -/
def runRounds (ps : List Nat) (cs : List LcpChan) (b : Nat) : List LcpChan × Nat :=
  round2 ps (gatedRound1 (cs.map (bucketUpdate b)) b).2 (gatedRound1 (cs.map (bucketUpdate b)) b).1

/-- Step 4 on one channel (R211). -/
def resetElapsed (c : LcpChan) : LcpChan := { c with elapsed := 0 }

theorem lcpRun_eq (cs : List LcpChan) (b : Nat) :
    lcpRun cs b = ((runRounds priorities cs b).1.map resetElapsed, (runRounds priorities cs b).2) := by
  simp only [lcpRun, runRounds, gatedRound1]
  rfl

theorem lcpRun_fst (cs : List LcpChan) (b : Nat) :
    (lcpRun cs b).1 = (runRounds priorities cs b).1.map resetElapsed := by
  rw [lcpRun_eq]

theorem lcpRun_snd (cs : List LcpChan) (b : Nat) : (lcpRun cs b).2 = (runRounds priorities cs b).2 := by
  rw [lcpRun_eq]

theorem activeCount_bucketUpdate (b : Nat) (cs : List LcpChan) :
    activeCount (cs.map (bucketUpdate b)) = activeCount cs := by
  rw [activeCount, List.filter_map, List.length_map]
  rfl

/-- The run is that of R212: step 1 is `bucketFilled` by definition, and each round is the walk of its rule. -/
theorem lcpRun_runWalk (b : Nat) (cs : List LcpChan) : RunWalk b cs (lcpRun cs b).1 (lcpRun cs b).2 := by
  have hgate : 2 ≤ activeCount (cs.map (bucketUpdate b)) ↔ AtLeastTwoActive cs := by
    rw [activeCount_bucketUpdate]
    rfl
  refine ⟨(gatedRound1 (cs.map (bucketUpdate b)) b).1, (gatedRound1 (cs.map (bucketUpdate b)) b).2,
    (runRounds priorities cs b).1, fun htwo => ?_, fun hfew => ?_, ?_, lcpRun_fst cs b⟩
  · rw [gatedRound1, if_pos (hgate.2 htwo)]
    obtain ⟨us, hlen, hus, -, hround⟩ := round1GivesBucketShares b (cs.map (bucketUpdate b))
    rw [hround]
    exact ⟨us, hlen, hus, rfl, rfl⟩
  · rw [gatedRound1, if_neg fun h => hfew (hgate.1 h)]
    exact ⟨rfl, rfl⟩
  · rw [round2IsTheWalk, lcpRun_snd, runRounds]

/-! ### Bytes move from the budget to the channels (R214) -/

theorem gatedRound1_served (cs : List LcpChan) (b : Nat) :
    List.Forall₂ ServedTo cs (gatedRound1 cs b).1
    ∧ granted (gatedRound1 cs b).1 + (gatedRound1 cs b).2 = granted cs + b := by
  unfold gatedRound1
  split
  · exact round1_served b cs
  · exact ⟨servedTo_refl cs, rfl⟩

theorem runRounds_served (ps : List Nat) (cs : List LcpChan) (b : Nat) :
    List.Forall₂ ServedTo (cs.map (bucketUpdate b)) (runRounds ps cs b).1
    ∧ granted (runRounds ps cs b).1 + (runRounds ps cs b).2 = granted (cs.map (bucketUpdate b)) + b := by
  obtain ⟨hserved1, hsum1⟩ := gatedRound1_served (cs.map (bucketUpdate b)) b
  obtain ⟨hserved2, hsum2⟩ := round2_served ps (gatedRound1 (cs.map (bucketUpdate b)) b).2
    (gatedRound1 (cs.map (bucketUpdate b)) b).1
  exact ⟨servedTo_trans hserved1 hserved2, hsum2.trans hsum1⟩

/-- A map that keeps `alloc` keeps the bytes granted. -/
theorem granted_map {f : LcpChan → LcpChan} (hf : ∀ c, (f c).alloc = c.alloc) (cs : List LcpChan) :
    granted (cs.map f) = granted cs := by
  simp only [granted, List.map_map, Function.comp_def, hf]

theorem lcpRun_granted (cs : List LcpChan) (b : Nat) :
    granted (lcpRun cs b).1 + (lcpRun cs b).2 = granted cs + b := by
  rw [lcpRun_fst, lcpRun_snd, granted_map (f := resetElapsed) fun _ => rfl, (runRounds_served priorities cs b).2,
    granted_map (f := bucketUpdate b) fun _ => rfl]

theorem exists_served_of_mem {cs ds : List LcpChan} {d : LcpChan} (h : List.Forall₂ ServedTo cs ds) (hd : d ∈ ds) :
    ∃ c ∈ cs, ServedTo c d := by
  induction h with
  | nil => cases hd
  | cons hcd _ ih =>
    obtain rfl | hd := List.mem_cons.1 hd
    · exact ⟨_, List.mem_cons_self, hcd⟩
    · obtain ⟨c, hc, hcd'⟩ := ih hd
      exact ⟨c, List.mem_cons_of_mem _ hc, hcd'⟩

/-- A channel after a run: its elapsed time is 0, its bytes moved from pending to granted. -/
theorem exists_of_mem_lcpRun {cs : List LcpChan} {b : Nat} {d : LcpChan} (hd : d ∈ (lcpRun cs b).1) :
    d.elapsed = 0 ∧ ∃ c ∈ cs, d.id = c.id ∧ d.prio = c.prio ∧ d.alloc + d.pending = c.alloc + c.pending := by
  rw [lcpRun_fst] at hd
  obtain ⟨e, he, rfl⟩ := List.mem_map.1 hd
  obtain ⟨c', hc', hserved⟩ := exists_served_of_mem (runRounds_served priorities cs b).1 he
  obtain ⟨c, hc, rfl⟩ := List.mem_map.1 hc'
  exact ⟨rfl, c, hc, hserved.id, hserved.prio, hserved.moved⟩

/-! ### Where a run stops (R210, R214) -/

theorem round2_idle {ps : List Nat} {rem : Nat} {cs : List LcpChan}
    (h : rem < lcpMinGrant ∨ ∀ p ∈ ps, ∀ c ∈ cs, wants p c = false) : round2 ps rem cs = (cs, rem) := by
  induction ps with
  | nil => rfl
  | cons p ps ih =>
    have hloop : round2Loop p (cs.length + 1) rem cs = (cs, rem) := by
      obtain hlt | hidle := h
      · exact round2Loop_of_lt hlt _ _ _
      · refine round2Loop_idle ?_ _
        simpa using hidle p List.mem_cons_self
    rw [round2, hloop]
    exact ih (h.imp_right fun hidle q hq => hidle q (List.mem_cons_of_mem _ hq))

theorem ServedTo.wants_eq_false {c d : LcpChan} (h : ServedTo c d) {p : Nat} (hc : wants p c = false) :
    wants p d = false := by
  obtain ⟨-, hprio, -, -, -, -, hmoved, hmore⟩ := h
  simp only [wants, decide_eq_false_iff_not, hprio] at hc ⊢
  omega

/-- Round 2 ends with less than the minimum grant, or with nothing pending at any of its priorities. -/
theorem round2_done (ps : List Nat) (rem : Nat) (cs : List LcpChan) :
    (round2 ps rem cs).2 < lcpMinGrant ∨ ∀ p ∈ ps, ∀ c ∈ (round2 ps rem cs).1, wants p c = false := by
  induction ps generalizing rem cs with
  | nil => exact .inr nofun
  | cons p ps ih =>
    rw [round2]
    obtain hlt | hidle := round2Loop_done p (cs.length + 1) rem cs (Nat.lt_succ_of_le (List.length_filter_le _ _))
    · left
      simpa only [round2_idle (.inl hlt)] using hlt
    · refine (ih _ _).imp_right fun hrest => List.forall_mem_cons.2 ⟨fun d hd => ?_, hrest⟩
      obtain ⟨c, hc, hserved⟩ := exists_served_of_mem (round2_served ps _ _).1 hd
      exact hserved.wants_eq_false (by simpa using List.filter_eq_nil_iff.1 hidle c hc)

/-- A run ends with less than the minimum grant, or with nothing pending at the priorities 1..16. -/
theorem lcpRun_done {cs : List LcpChan} {b : Nat} (h : ¬ (lcpRun cs b).2 < 8) {d : LcpChan}
    (hd : d ∈ (lcpRun cs b).1) (hprio : 1 ≤ d.prio ∧ d.prio ≤ 16) : d.pending = 0 := by
  rw [lcpRun_fst] at hd
  rw [lcpRun_snd] at h
  obtain ⟨e, he, rfl⟩ := List.mem_map.1 hd
  have hmem : e.prio ∈ priorities := by
    rw [priorities, List.mem_range'_1, numPrio]
    exact ⟨hprio.1, Nat.lt_succ_of_le hprio.2⟩
  have hidle := (round2_done priorities _ _).resolve_left h e.prio hmem e he
  simpa [wants, resetElapsed] using hidle

/-! ### The run of a device -/

/-- The run that LC_RUN makes on a device. -/
def deviceRun (s : State) (dev : Nat) : List LcpChan × Nat := lcpRun (serviceOrder (registered s dev)) (s.reg 0).toNat

/-- A channel that stands in a device's run at its end. -/
structure InRun (s : State) (dev : Nat) (d : LcpChan) : Prop where
  id : 1 ≤ d.id ∧ d.id ≤ 32
  valid : (s.chan dev d.id).valid = true
  prio : d.prio = (s.chan dev d.id).prio.toNat
  elapsed : d.elapsed = 0
  moved : d.alloc + d.pending = (s.chan dev d.id).pending.toNat

theorem inRun_of_mem {s : State} {dev : Nat} {d : LcpChan} (hd : d ∈ (deviceRun s dev).1) : InRun s dev d := by
  obtain ⟨helapsed, c, hc, hid, hprio, hmoved⟩ := exists_of_mem_lcpRun hd
  obtain ⟨hch, hv, heq⟩ := mem_service.1 hc
  rw [← hid] at hch hv heq
  rw [heq] at hprio hmoved
  exact ⟨hch, hv, hprio, helapsed, hmoved.trans (Nat.zero_add _)⟩

theorem nodup_service (s : State) (dev : Nat) : (serviceOrder (registered s dev)).Nodup :=
  (serviceOrder_pairwise (registered_pairwise s dev)).imp fun h => by
    rintro rfl
    unfold ServedBefore at h
    omega

/-- The channels of a run are the registered ones of the device, each once. -/
theorem deviceRun_ids_perm (s : State) (dev : Nat) :
    ((deviceRun s dev).1.map LcpChan.id).Perm (channelIds.filter (fun ch => (s.chan dev ch).valid)) := by
  rw [deviceRun, lcpRun_ids, ← registered_ids]
  have hreg : (registered s dev).Nodup := (registered_pairwise s dev).imp fun h => by
    rintro rfl
    omega
  exact ((List.perm_ext_iff_of_nodup (nodup_service s dev) hreg).2 fun _ => mem_serviceOrder registered_prio_lt).map _

theorem mem_deviceRun_ids {s : State} {dev ch : Nat} :
    ch ∈ (deviceRun s dev).1.map LcpChan.id ↔ (1 ≤ ch ∧ ch ≤ 32) ∧ (s.chan dev ch).valid = true := by
  rw [(deviceRun_ids_perm s dev).mem_iff, List.mem_filter, mem_channelIds]

/-- What a run grants and what it leaves make up the budget (R214 (b)). -/
theorem deviceRun_granted (s : State) (dev : Nat) :
    granted (deviceRun s dev).1 + (deviceRun s dev).2 = (s.reg 0).toNat := by
  have hzero : granted (serviceOrder (registered s dev)) = 0 := by
    refine List.sum_eq_zero fun n hn => ?_
    obtain ⟨c, hc, rfl⟩ := List.mem_map.1 hn
    rw [(mem_service.1 hc).2.2]
    rfl
  rw [deviceRun, lcpRun_granted, hzero, Nat.zero_add]

/-! ### What LC_RUN leaves (R207, R211) -/

/-- What an accepted LC_RUN leaves of the state, `run` being the run it made. -/
structure RunApplied (dev : Nat) (run : List LcpChan × Nat) (s t : State) : Prop where
  exec : exec (.lcRun dev) s = .next t
  accepted : Accepted s t
  regs : RegsKept s t [8, 9, 10]
  count : t.reg 8 = word (lcpOutput run.1).length
  unused : t.reg 9 = word run.2
  used : t.reg 10 = word ((s.reg 0).toNat - run.2)
  desc : t.desc = descWrite s.desc 0 (lcpOutput run.1)
  g : t.g = s.g
  buf : t.buf = s.buf
  hq : t.hq = s.hq
  record : ∀ c ∈ run.1, t.chan dev c.id = lcpRecord (s.chan dev c.id) c
  others : ∀ d c, c < 64 → ¬ (d = dev ∧ 1 ≤ c ∧ c ≤ 32 ∧ (s.chan dev c).valid = true) → t.chan d c = s.chan d c

theorem lcRun_accepts {dev : Nat} {s : State} (hdev : 1 ≤ dev ∧ dev ≤ s.params.numDevices) :
    lcRun dev s = .ok (((((writeBack dev (deviceRun s dev).1 s).writeDescs (lcpOutput (deviceRun s dev).1)).result 8
      (lcpOutput (deviceRun s dev).1).length).result 9 (deviceRun s dev).2).result 10
      (s.argN 0 - (deviceRun s dev).2)) := by
  simp only [lcRun, badDevice_false.2 hdev, Bool.false_eq_true, if_false]
  rfl

/-- Writing back a device's run: each of its records takes its channel's numbers, every other record stays. -/
theorem writeBack_deviceRun (s : State) (dev : Nat) :
    (∀ c ∈ (deviceRun s dev).1,
      (writeBack dev (deviceRun s dev).1 s).chan dev c.id = lcpRecord (s.chan dev c.id) c)
    ∧ ∀ d c, c < 64 → ¬ (d = dev ∧ 1 ≤ c ∧ c ≤ 32 ∧ (s.chan dev c).valid = true) →
        (writeBack dev (deviceRun s dev).1 s).chan d c = s.chan d c := by
  have hids : ∀ c ∈ (deviceRun s dev).1, c.id < 64 := fun c hc => by
    have := (inRun_of_mem hc).id
    omega
  have hnodup : ((deviceRun s dev).1.map LcpChan.id).Nodup :=
    (deviceRun_ids_perm s dev).nodup_iff.2 (nodup_channelIds.filter _)
  obtain ⟨hrecord, hrest⟩ := writeBack_chan dev (deviceRun s dev).1 s hnodup hids
  refine ⟨hrecord, fun d c hc hout => ?_⟩
  by_cases hd : d = dev
  · subst hd
    refine hrest c hc fun hmem => hout ?_
    obtain ⟨⟨h1, h32⟩, hv⟩ := mem_deviceRun_ids.1 hmem
    exact ⟨rfl, h1, h32, hv⟩
  · exact writeBack_deviceKept _ s hd hids c hc

theorem exec_lcRun {dev : Nat} {s : State} (hdev : 1 ≤ dev) (hdev' : dev ≤ s.params.numDevices) :
    ∃ t, RunApplied dev (deviceRun s dev) s t := by
  have heff : effectOf (.lcRun dev) s = _ := lcRun_accepts ⟨hdev, hdev'⟩
  obtain ⟨hrecord, hothers⟩ := writeBack_deviceRun s dev
  generalize deviceRun s dev = run at heff hrecord hothers
  obtain ⟨-, hg, -, -, -, hbuf, hdesc, hhq, -, -, -, hreg⟩ := writeBack_frame dev run.1 s
  generalize writeBack dev run.1 s = u at *
  refine ⟨_, exec_of_effect nofun heff, accepted_complete heff, fun i hi hi15 => ?_, by simp, by simp,
    by simp [State.argN], ?_, hg, hbuf, hhq, hrecord, hothers⟩
  · obtain ⟨hi8, hi9, hi10⟩ : i ≠ 8 ∧ i ≠ 9 ∧ i ≠ 10 := by simpa using hi
    simp [hi8, hi9, hi10, hi15, hreg]
  · simp [hdesc]

theorem descHolds_of_desc {s t : State} {ds : List Desc} (h : t.desc = descWrite s.desc 0 ds) : DescHolds s t ds :=
  fun k => by
    rw [State.descAt, h]
    exact s.descAt_writeDescs ds k

/-- Settles O48: the run is that of R212 (`lcpRun_runWalk`), and LC_RUN applies it (`exec_lcRun`). -/
theorem lcRunAppliesTheRun : Obligations.LcRunAppliesTheRun := by
  intro dev s budget
  refine ⟨fun hdev hdev' => ?_, fun hdev => refuses_of_effect nofun (if_pos (badDevice_true.2 hdev)) rfl⟩
  obtain ⟨t, ht⟩ := exec_lcRun hdev hdev'
  refine ⟨t, (deviceRun s dev).1, (deviceRun s dev).2, lcpRun_runWalk _ _, ht.exec, ht.accepted, ht.regs, ?_, ht.unused,
    ht.used, descHolds_of_desc ht.desc, fun c hc => ⟨(inRun_of_mem hc).elapsed, ht.record c hc⟩⟩
  rw [ht.count, lcpOutput, List.length_map]

/-! ### The records after LC_RUN (R211, R214) -/

/-- The bytes by which a channel's pending bytes fall between two states. -/
def pendingFall (s t : State) (dev ch : Nat) : Nat := (s.chan dev ch).pending.toNat - (t.chan dev ch).pending.toNat

theorem word_toNat_of_le {n : Nat} {w : Word} (h : n ≤ w.toNat) : (word n).toNat = n :=
  Nat.mod_eq_of_lt (Nat.lt_of_le_of_lt h w.isLt)

section Applied

variable {dev : Nat} {s t : State} (ht : RunApplied dev (deviceRun s dev) s t)

include ht

theorem RunApplied.pending_toNat {d : LcpChan} (hd : d ∈ (deviceRun s dev).1) :
    (t.chan dev d.id).pending.toNat = d.pending := by
  rw [ht.record d hd]
  exact word_toNat_of_le (w := (s.chan dev d.id).pending) (by
    have := (inRun_of_mem hd).moved
    omega)

/-- A channel is granted what its pending bytes fall by (R214 (a)). -/
theorem RunApplied.pendingFall_eq {d : LcpChan} (hd : d ∈ (deviceRun s dev).1) :
    pendingFall s t dev d.id = d.alloc := by
  have := (inRun_of_mem hd).moved
  rw [pendingFall, ht.pending_toNat hd]
  omega

theorem RunApplied.pendingFall_unregistered {ch : Nat} (hch : ch ∈ channelIds) (hv : (s.chan dev ch).valid = false) :
    pendingFall s t dev ch = 0 := by
  have := mem_channelIds.1 hch
  rw [pendingFall, ht.others dev ch (by omega) (by simp [hv]), Nat.sub_self]

/-- What a registered channel becomes. -/
theorem RunApplied.registered {ch : Nat} (hch : 1 ≤ ch ∧ ch ≤ 32) (hv : (s.chan dev ch).valid = true) :
    ∃ d ∈ (deviceRun s dev).1, d.id = ch ∧ t.chan dev ch = lcpRecord (s.chan dev ch) d := by
  obtain ⟨d, hd, rfl⟩ := List.mem_map.1 (mem_deviceRun_ids.2 ⟨hch, hv⟩)
  exact ⟨d, hd, rfl, ht.record d hd⟩

/-- The falls over all channels of the device sum to what the run grants. -/
theorem RunApplied.sum_pendingFall : (channelIds.map (pendingFall s t dev)).sum = granted (deviceRun s dev).1 := by
  have hunregistered : ((channelIds.filter (fun ch => ¬ (s.chan dev ch).valid)).map (pendingFall s t dev)).sum = 0 := by
    refine List.sum_eq_zero fun n hn => ?_
    obtain ⟨ch, hch, rfl⟩ := List.mem_map.1 hn
    obtain ⟨hmem, hv⟩ := List.mem_filter.1 hch
    exact ht.pendingFall_unregistered hmem (by simpa using hv)
  calc (channelIds.map (pendingFall s t dev)).sum
      = ((channelIds.filter (fun ch => (s.chan dev ch).valid)).map (pendingFall s t dev)).sum := by
        rw [← List.sum_map_filter_add_sum_map_filter_not (fun ch => (s.chan dev ch).valid = true), hunregistered]
        simp
    _ = (((deviceRun s dev).1.map LcpChan.id).map (pendingFall s t dev)).sum :=
        ((deviceRun_ids_perm s dev).map _).sum_eq.symm
    _ = granted (deviceRun s dev).1 := by
        rw [List.map_map, granted]
        exact congrArg List.sum (List.map_congr_left fun d hd => ht.pendingFall_eq hd)

/-- The list names each channel whose pending bytes fell, with the fall. -/
theorem RunApplied.output_perm :
    (lcpOutput (deviceRun s dev).1).Perm
      ((channelIds.filter (fun ch => decide (0 < pendingFall s t dev ch))).map
        (fun ch => ⟨word ch, word (pendingFall s t dev ch), 0⟩)) := by
  have hout : lcpOutput (deviceRun s dev).1
      = (((deviceRun s dev).1.map LcpChan.id).filter (fun ch => decide (0 < pendingFall s t dev ch))).map
          (fun ch => ⟨word ch, word (pendingFall s t dev ch), 0⟩) := by
    rw [lcpOutput, List.filter_map, List.map_map]
    rw [List.filter_congr fun d hd => by rw [← ht.pendingFall_eq hd]]
    refine List.map_congr_left fun d hd => ?_
    rw [← ht.pendingFall_eq (List.mem_of_mem_filter hd)]
    rfl
  have hfilter : (channelIds.filter (fun ch => (s.chan dev ch).valid)).filter
        (fun ch => decide (0 < pendingFall s t dev ch))
      = channelIds.filter (fun ch => decide (0 < pendingFall s t dev ch)) := by
    rw [List.filter_filter]
    refine List.filter_congr fun ch hch => ?_
    cases hv : (s.chan dev ch).valid with
    | true => simp
    | false => simp [ht.pendingFall_unregistered hch hv]
  rw [hout, ← hfilter]
  exact ((deviceRun_ids_perm s dev).filter _).map _

end Applied

/-- Settles O47: the falls of the pending bytes are the grants of the run (`RunApplied.pendingFall_eq`), which
conserves the budget (`deviceRun_granted`) and stops as R210 says (`lcpRun_done`). -/
theorem lcRunConservesTheBudget : Obligations.LcRunConservesTheBudget := by
  intro dev s hdev hdev' budget
  obtain ⟨t, ht⟩ := exec_lcRun hdev hdev'
  have hsum := deviceRun_granted s dev
  refine ⟨t, (deviceRun s dev).2, lcpOutput (deviceRun s dev).1, ht.exec, ht.accepted, ht.regs, ?_, ht.count, ht.unused,
    ht.used, fun c h1 h32 hv => ?_, ht.others, ?_, fun hok => ?_, ?_, descHolds_of_desc ht.desc, ht.g, ht.buf, ht.hq⟩
  · exact Nat.le_of_add_left_le hsum.le
  · obtain ⟨d, hd, rfl, hrec⟩ := ht.registered ⟨h1, h32⟩ hv
    have hin := inRun_of_mem hd
    refine ⟨?_, ?_, ?_⟩
    · have := hin.moved
      rw [ht.pending_toNat hd]
      omega
    · rw [hrec, lcpRecord, hin.elapsed]
      rfl
    · rw [hrec]
      exact ⟨hv, rfl, rfl, rfl, rfl⟩
  · exact (congrArg (· + (deviceRun s dev).2) ht.sum_pendingFall).trans hsum
  · by_cases h8 : (deviceRun s dev).2 < 8
    · exact .inl h8
    · refine .inr fun c h1 h32 hv => ?_
      obtain ⟨d, hd, rfl, hrec⟩ := ht.registered ⟨h1, h32⟩ hv
      have hprio := (hok dev d.id).1 hv
      rw [← (inRun_of_mem hd).prio] at hprio
      rw [hrec, lcpRecord, lcpRun_done h8 hd hprio]
      rfl
  · simpa only [pendingFall, Nat.sub_pos_iff_lt, channelIds, maxLcidData] using ht.output_perm

/-! ### The bucket levels of a run (R208) -/

/-- The bucket level of a record after step 1 (R208). -/
def filledLevel (b : Nat) (r : LcRec) : Nat :=
  if r.pbr = 0xFFFFFFFF then min r.pending.toNat b
  else min (r.bj.toNat + r.pbr.toNat * min r.elapsed.toNat r.bsd.toNat / 1000) (2 ^ 32 - 1)

theorem bucketUpdate_bj (b ch : Nat) (r : LcRec) : (bucketUpdate b (lcpChanOf ch r)).bj = filledLevel b r := by
  simp only [bucketUpdate, lcpChanOf, filledLevel, decide_eq_true_eq]
  rfl

theorem word_filledLevel (b : Nat) (r : LcRec) : (word (filledLevel b r)).toNat = filledLevel b r := by
  refine Nat.mod_eq_of_lt ?_
  have hpending := r.pending.isLt
  unfold filledLevel
  split <;> omega

/-! ### A run with less than the minimum grant (R207) -/

/-- Below 8 bytes a run fills the buckets and resets the elapsed times. -/
theorem lcpRun_of_lt {b : Nat} (h : b < 8) (cs : List LcpChan) :
    lcpRun cs b = (cs.map (fun c => resetElapsed (bucketUpdate b c)), b) := by
  have hround1 : gatedRound1 (cs.map (bucketUpdate b)) b = (cs.map (bucketUpdate b), b) := by
    rw [gatedRound1, round1_of_lt h, ite_self]
  have hrounds : runRounds priorities cs b = (cs.map (bucketUpdate b), b) := by
    rw [runRounds, hround1, round2_idle (.inl h)]
  refine Prod.ext ?_ ?_
  · rw [lcpRun_fst, hrounds, List.map_map]
    rfl
  · rw [lcpRun_snd, hrounds]

/-- Settles O50: below 8 bytes neither round takes place (`lcpRun_of_lt`). -/
theorem smallBudgetOnlyFillsBuckets : Obligations.SmallBudgetOnlyFillsBuckets := by
  intro dev s hdev hdev' h8
  obtain ⟨t, ht⟩ := exec_lcRun hdev hdev'
  have hrun := lcpRun_of_lt h8 (serviceOrder (registered s dev))
  have hout : lcpOutput (deviceRun s dev).1 = [] := by
    rw [lcpOutput, List.map_eq_nil_iff, List.filter_eq_nil_iff, deviceRun, hrun]
    intro d hd
    obtain ⟨c, hc, rfl⟩ := List.mem_map.1 hd
    rw [(mem_service.1 hc).2.2]
    simp [resetElapsed, bucketUpdate, lcpChanOf]
  have hleft : (deviceRun s dev).2 = (s.reg 0).toNat := congrArg Prod.snd hrun
  refine ⟨t, ht.exec, ht.accepted, ?_, ?_, ?_, ?_, fun c h1 h32 hv => ?_⟩
  · rw [ht.count, hout]
    rfl
  · rw [ht.unused, hleft, word, BitVec.ofNat_toNat, BitVec.setWidth_eq]
  · rw [ht.used, hleft, Nat.sub_self]
    rfl
  · rw [ht.desc, hout, descWrite]
  · have hmem : resetElapsed (bucketUpdate (s.reg 0).toNat (lcpChanOf c (s.chan dev c)))
        ∈ (deviceRun s dev).1 := by
      rw [deviceRun, hrun]
      exact List.mem_map_of_mem (mem_service.2 ⟨⟨h1, h32⟩, hv, rfl⟩)
    have hrec : t.chan dev c = _ := ht.record _ hmem
    rw [hrec]
    refine ⟨?_, rfl, ?_⟩
    · simp [lcpRecord, resetElapsed, bucketUpdate, lcpChanOf, word]
    · rw [lcpRecord, resetElapsed, bucketUpdate_bj]
      exact word_filledLevel _ _

end Sys2Proof.Machine

/-! ## A run with one active channel (R207, R209) -/

namespace Sys2Proof.Machine

/-- A list of channels without pending bytes. -/
def Idle (cs : List LcpChan) : Prop := ∀ d ∈ cs, d.pending = 0

theorem Idle.wants_eq_false {cs : List LcpChan} (h : Idle cs) (p : Nat) : ∀ d ∈ cs, wants p d = false := fun d hd => by
  simp [wants, h d hd]

/-- A test that one channel of a list meets. -/
theorem filter_sole {q : LcpChan → Bool} {as bs : List LcpChan} {c : LcpChan} (hothers : ∀ d ∈ as ++ bs, q d = false)
    (hc : q c = true) : (as ++ c :: bs).filter q = [c] := by
  have hnone : (as ++ bs).filter q = [] :=
    List.filter_eq_nil_iff.2 fun d hd => Bool.eq_false_iff.1 (hothers d hd)
  rw [List.filter_append, List.append_eq_nil_iff] at hnone
  rw [List.filter_append, List.filter_cons_of_pos hc, hnone.1, hnone.2]
  rfl

theorem Idle.append {as bs : List LcpChan} (has : Idle as) (hbs : Idle bs) : Idle (as ++ bs) :=
  List.forall_mem_append.2 ⟨has, hbs⟩

theorem Idle.filter_wants {cs : List LcpChan} (h : Idle cs) (p : Nat) : cs.filter (wants p) = [] := by
  simpa using h.wants_eq_false p

theorem Idle.map {cs : List LcpChan} (h : Idle cs) {f : LcpChan → LcpChan} (hf : ∀ c, (f c).pending = c.pending) :
    Idle (cs.map f) := fun d hd => by
  obtain ⟨c, hc, rfl⟩ := List.mem_map.1 hd
  exact (hf c).trans (h c hc)

/-- An iteration passes over channels without pending bytes. -/
theorem shareOut_idle_append {as : List LcpChan} (h : Idle as) (p q r i : Nat) (cs : List LcpChan) :
    shareOut p q r i (as ++ cs) = (as ++ (shareOut p q r i cs).1, (shareOut p q r i cs).2) := by
  induction as with
  | nil => rfl
  | cons d as ih =>
    have hd : ¬ wants p d = true := by simp [h.wants_eq_false p d List.mem_cons_self]
    rw [List.cons_append, shareOut, if_neg hd, ih fun e he => h e (List.mem_cons_of_mem _ he)]
    rfl

theorem shareOut_idle {cs : List LcpChan} (h : Idle cs) (p q r i : Nat) : shareOut p q r i cs = (cs, 0) := by
  simpa [shareOut] using shareOut_idle_append h p q r i []

theorem round2_append (ps qs : List Nat) (rem : Nat) (cs : List LcpChan) :
    round2 (ps ++ qs) rem cs = round2 qs (round2 ps rem cs).2 (round2 ps rem cs).1 := by
  induction ps generalizing rem cs with
  | nil => rfl
  | cons p ps ih => exact ih _ _

/-- Once the only channel with pending bytes has used what it may, it has nothing pending or nothing remains. -/
theorem idle_or_spent {as bs : List LcpChan} (has : Idle as) (hbs : Idle bs) (c : LcpChan) (rem : Nat) :
    rem - min rem c.pending < lcpMinGrant ∨ Idle (as ++ useBytes (min rem c.pending) c :: bs) := by
  obtain hle | hlt := le_or_gt rem c.pending
  · left
    rw [min_eq_left hle, Nat.sub_self]
    decide
  · refine .inr (List.forall_mem_append.2 ⟨has, List.forall_mem_cons.2 ⟨?_, hbs⟩⟩)
    rw [useBytes, min_eq_right (Nat.le_of_lt hlt), Nat.sub_self]

section Sole

variable {as bs : List LcpChan} {c : LcpChan} (has : Idle as) (hbs : Idle bs) (hc : 0 < c.pending)

include has hbs hc

theorem filter_wants_sole : (as ++ c :: bs).filter (wants c.prio) = [c] :=
  filter_sole ((has.append hbs).wants_eq_false _) (decide_eq_true ⟨rfl, hc⟩)

/-- The only channel with pending bytes may use all that remains. -/
theorem iterate_sole (rem : Nat) :
    iterate c.prio rem (as ++ c :: bs) = as ++ useBytes (min rem c.pending) c :: bs
    ∧ iterationTotal c.prio rem (as ++ c :: bs) = min rem c.pending := by
  have hw : wants c.prio c = true := decide_eq_true ⟨rfl, hc⟩
  have hshare : shareOf (rem / 1) (rem % 1) 0 = rem := by simp [shareOf, Nat.mod_one]
  have hiter := shareOut_iteration c.prio rem (as ++ c :: bs)
  rw [filter_wants_sole has hbs hc, List.length_singleton, shareOut_idle_append has, shareOut, if_pos hw,
    shareOut_idle hbs, hshare] at hiter
  obtain ⟨hcs, htotal⟩ := Prod.mk.inj hiter
  exact ⟨hcs.symm, htotal.symm⟩

/-- Round 2 with one active channel gives it the smaller of the budget and its pending bytes. -/
theorem round2_sole {ps : List Nat} {rem : Nat} (hprio : c.prio ∈ ps) (h8 : 8 ≤ rem) :
    round2 ps rem (as ++ c :: bs) = (as ++ useBytes (min rem c.pending) c :: bs, rem - min rem c.pending) := by
  obtain ⟨before, after, rfl, hfirst⟩ := List.eq_append_cons_of_mem hprio
  have hbefore : round2 before rem (as ++ c :: bs) = (as ++ c :: bs, rem) := by
    refine round2_idle (.inr fun p hp => List.forall_mem_append.2 ⟨has.wants_eq_false p, List.forall_mem_cons.2
      ⟨decide_eq_false fun hw => hfirst (hw.1 ▸ hp), hbs.wants_eq_false p⟩⟩)
  have hone : ((as ++ c :: bs).filter (wants c.prio)).length = 1 := by
    rw [filter_wants_sole has hbs hc]
    rfl
  obtain ⟨hcs, htotal⟩ := iterate_sole has hbs hc rem
  have hdone := idle_or_spent has hbs c rem
  have hloop : round2Loop c.prio ((as ++ c :: bs).length + 1) rem (as ++ c :: bs)
      = (as ++ useBytes (min rem c.pending) c :: bs, rem - min rem c.pending) := by
    rw [round2Loop_iterate (Nat.not_lt.2 h8) (by rw [hone]; decide), hcs, htotal]
    obtain hspent | hidle := hdone
    · exact round2Loop_of_lt hspent _ _ _
    · exact round2Loop_idle (by rw [hidle.filter_wants]; rfl) _
  rw [round2_append, hbefore, round2, hloop]
  exact round2_idle (hdone.imp_right fun hidle p _ => hidle.wants_eq_false p)

theorem activeCount_sole : activeCount (as ++ c :: bs) = 1 := by
  rw [activeCount, filter_sole (fun d hd => ?_) (decide_eq_true hc)]
  · rfl
  · simp [has.append hbs d hd]

end Sole

/-- A run with one active channel: Round 1 is skipped, and the channel is served in Round 2 without regard to its
bucket. -/
theorem lcpRun_sole {as bs : List LcpChan} {c : LcpChan} {b : Nat} (has : Idle as) (hbs : Idle bs)
    (hc : 0 < c.pending) (hprio : 1 ≤ c.prio ∧ c.prio ≤ 16) (h8 : 8 ≤ b) :
    lcpRun (as ++ c :: bs) b
      = ((as.map (bucketUpdate b)).map resetElapsed
          ++ resetElapsed (useBytes (min b c.pending) (bucketUpdate b c))
          :: (bs.map (bucketUpdate b)).map resetElapsed, b - min b c.pending) := by
  have has' := has.map (f := bucketUpdate b) fun _ => rfl
  have hbs' := hbs.map (f := bucketUpdate b) fun _ => rfl
  have hmem : (bucketUpdate b c).prio ∈ priorities := by
    rw [priorities, List.mem_range'_1, numPrio]
    exact ⟨hprio.1, Nat.lt_succ_of_le hprio.2⟩
  have hgate : gatedRound1 ((as ++ c :: bs).map (bucketUpdate b)) b = ((as ++ c :: bs).map (bucketUpdate b), b) := by
    rw [gatedRound1, activeCount_bucketUpdate, activeCount_sole has hbs hc]
    rfl
  rw [lcpRun_eq, runRounds, hgate, List.map_append, List.map_cons,
    round2_sole (c := bucketUpdate b c) has' hbs' hc hmem h8, List.map_append, List.map_cons]
  rfl

/-- The one active channel of a device in its order of service. -/
theorem service_sole {s : State} {dev ch : Nat} (hch : 1 ≤ ch ∧ ch ≤ 32) (hv : (s.chan dev ch).valid = true)
    (hothers : ∀ ch', 1 ≤ ch' → ch' ≤ 32 → ch' ≠ ch → (s.chan dev ch').pending = 0) :
    ∃ as bs, serviceOrder (registered s dev) = as ++ lcpChanOf ch (s.chan dev ch) :: bs
      ∧ Idle as ∧ Idle bs ∧ ∀ d ∈ as ++ bs, d.alloc = 0 := by
  have hmem : lcpChanOf ch (s.chan dev ch) ∈ serviceOrder (registered s dev) := mem_service.2 ⟨hch, hv, rfl⟩
  obtain ⟨as, bs, heq⟩ := List.append_of_mem hmem
  have hnodup := nodup_service s dev
  rw [heq, List.nodup_middle, List.nodup_cons] at hnodup
  have hrecord : ∀ d ∈ as ++ bs, d.pending = 0 ∧ d.alloc = 0 := fun d hd => by
    have hmem : d ∈ serviceOrder (registered s dev) := by
      rw [heq]
      exact List.perm_middle.mem_iff.2 (List.mem_cons_of_mem _ hd)
    obtain ⟨hid, -, hd'⟩ := mem_service.1 hmem
    have hne : d.id ≠ ch := fun h => by
      rw [h] at hd'
      exact hnodup.1 (hd' ▸ hd)
    rw [hd']
    exact ⟨congrArg BitVec.toNat (hothers d.id hid.1 hid.2 hne), rfl⟩
  obtain ⟨has, hbs⟩ := List.forall_mem_append.1 hrecord
  exact ⟨as, bs, heq, fun d hd => (has d hd).1, fun d hd => (hbs d hd).1, fun d hd => (hrecord d hd).2⟩

/-- A run that grants bytes to one channel lists that channel. -/
theorem lcpOutput_sole {as bs : List LcpChan} {c : LcpChan} (hothers : ∀ d ∈ as ++ bs, d.alloc = 0) (hc : 0 < c.alloc) :
    lcpOutput (as ++ c :: bs) = [⟨word c.id, word c.alloc, 0⟩] := by
  rw [lcpOutput, filter_sole (fun d hd => ?_) (decide_eq_true hc)]
  · rfl
  · simp [hothers d hd]

/-- The run of a device with one active channel: that channel uses `used` bytes and keeps its bucket as step 1
left it; the list names it alone. -/
theorem deviceRun_sole {s : State} {dev ch used : Nat} (hch : 1 ≤ ch ∧ ch ≤ 32) (hv : (s.chan dev ch).valid = true)
    (hprio : 1 ≤ (s.chan dev ch).prio.toNat ∧ (s.chan dev ch).prio.toNat ≤ 16)
    (hpending : 0 < (s.chan dev ch).pending.toNat)
    (hothers : ∀ ch', 1 ≤ ch' → ch' ≤ 32 → ch' ≠ ch → (s.chan dev ch').pending = 0) (h8 : 8 ≤ (s.reg 0).toNat)
    (hused : used = min (s.reg 0).toNat (s.chan dev ch).pending.toNat) :
    (deviceRun s dev).2 = (s.reg 0).toNat - used
    ∧ lcpOutput (deviceRun s dev).1 = [⟨word ch, word used, 0⟩]
    ∧ resetElapsed (useBytes used (bucketUpdate (s.reg 0).toNat (lcpChanOf ch (s.chan dev ch))))
        ∈ (deviceRun s dev).1 := by
  obtain ⟨as, bs, hservice, has, hbs, halloc⟩ := service_sole hch hv hothers
  rw [deviceRun, hservice, lcpRun_sole has hbs hpending hprio h8, hused]
  refine ⟨rfl, (lcpOutput_sole (fun d hd => ?_) ?_).trans ?_, List.mem_append_right _ List.mem_cons_self⟩
  · rw [List.map_map, List.map_map, ← List.map_append] at hd
    obtain ⟨e, he, rfl⟩ := List.mem_map.1 hd
    exact halloc e he
  · show 0 < 0 + min (s.reg 0).toNat (s.chan dev ch).pending.toNat
    omega
  · simp [resetElapsed, useBytes, bucketUpdate, lcpChanOf]

/-- Settles O53: the run with one active channel is `deviceRun_sole`, and LC_RUN writes back what it leaves. -/
theorem singleActiveChannelSkipsItsBucket : Obligations.SingleActiveChannelSkipsItsBucket := by
  intro dev s c hdev hdev' hok h8 h1 h32 hv hpending hothers used
  obtain ⟨t, ht⟩ := exec_lcRun hdev hdev'
  have hpos : 0 < (s.chan dev c).pending.toNat := Nat.pos_of_ne_zero fun h => hpending (BitVec.eq_of_toNat_eq h)
  obtain ⟨hleft, hout, hmem⟩ := deviceRun_sole ⟨h1, h32⟩ hv ((hok dev c).1 hv) hpos hothers h8 (Nat.min_comm _ _)
  have hrec : t.chan dev c = _ := ht.record _ hmem
  refine ⟨t, ht.exec, ht.accepted, ?_, ?_, ?_, descHolds_of_desc (hout ▸ ht.desc), ?_, ?_⟩
  · rw [ht.count, hout]
    rfl
  · rw [ht.unused, hleft]
  · rw [ht.used, hleft, Nat.sub_sub_self (Nat.min_le_right _ _)]
  · rw [hrec]
    rfl
  · rw [hrec]
    exact (congrArg (fun n => (word n).toNat) (bucketUpdate_bj _ _ _)).trans (word_filledLevel _ _)

end Sys2Proof.Machine

/-! ## The system commands (R240, R241) -/

namespace Sys2Proof

theorem opcodeNat_injective {o o' : Opcode} (h : opcodeNat o = opcodeNat o') : o = o' :=
  Option.some.inj ((opcodeOfNat_opcodeNat o).symm.trans (h ▸ opcodeOfNat_opcodeNat o'))

/-- A word with an opcode's byte and a 1 in a reserved bit of its format is no command (R118). -/
theorem decode_error_of_reserved {o : Opcode} {w : Word} {f : Nat × Nat} (hop : bits w.toNat 31 24 = opcodeNat o)
    (hf : f ∈ reservedBits o) (hbit : bits w.toNat f.1 f.2 ≠ 0) : decode w = .error (.mustBeZero o) := by
  obtain ⟨hnone, -⟩ | ⟨o', hop', hcases⟩ := decode_cases w
  · rw [hop, opcodeOfNat_opcodeNat] at hnone
    cases hnone
  · obtain rfl := opcodeNat_injective (hop'.trans hop)
    obtain ⟨hzero, -⟩ | ⟨-, he⟩ := hcases
    · exact absurd (beq_iff_eq.1 (List.all_eq_true.1 hzero f hf)) hbit
    · exact he

end Sys2Proof

namespace Sys2Proof.Machine

/-- NOP has no effect of its own, so only the end of a command is left (R240). -/
theorem exec_nop (s : State) : exec .nop s = .next s.complete := exec_of_effect nofun rfl

/-- Settles O20: NOP is the end of an accepted command (`exec_nop`); another word with opcode byte 0 has a 1 among
the 24 bits that the format reserves (`decode_error_of_reserved`). -/
theorem nopOnlyReports : Obligations.NopOnlyReports := by
  refine ⟨exec_nop, decodeEncodeRoundTrip .nop rfl, fun w hne hlt => ?_⟩
  have hop : bits w.toNat 31 24 = opcodeNat .nop := by
    rw [bits_31_24, Nat.div_eq_of_lt hlt]
    rfl
  have hlow : bits w.toNat 23 0 = w.toNat := by
    rw [bits, pow_zero, Nat.div_one, Nat.mod_eq_of_lt hlt]
  have hpos : w.toNat ≠ 0 := fun h => hne (BitVec.eq_of_toNat_eq h)
  exact decode_error_of_reserved hop List.mem_cons_self (hlow.trans_ne hpos)

/-- A write of the word of SRESET to `CMD` leaves the state the hardware reset leaves (R241, R290). -/
theorem step_of_sreset {s : State} {rest : List HostAction} (hs : s.script = .write 0x080 0x01000000 :: rest) :
    step s = .next { s with script := rest }.resetAll :=
  calc
    step s = exec .sreset { s with script := rest } :=
      step_of_commandWord hs (decodeEncodeRoundTrip .sreset rfl)
    _ = .next { s with script := rest }.resetAll := exec_sreset _

/-- Settles O21: `exec_sreset` names the state, and the step of either reset ends in it (`step_of_sreset`,
`step_of_hardReset`). -/
theorem bothResetsGiveTheResetState : Obligations.BothResetsGiveTheResetState :=
  ⟨exec_sreset, fun s rest hs =>
    (step_of_sreset hs).trans (step_of_hardReset (s := { s with script := .hardReset :: rest }) rfl).symm⟩

end Sys2Proof.Machine

/-! ## The end of every command (R251, R252, R253) -/

namespace Sys2Proof.Machine

/-- Settles O13: an accepted command reports 0 (`accepted_complete`) and a refused one the code of its failed
check, which is at most 13 (`errCode_range`); both ends count the command. -/
theorem everyCommandReportsItsStatus : Obligations.EveryCommandReportsItsStatus := by
  intro i s hi
  obtain ⟨t, ht⟩ := exec_next i s
  obtain ⟨u, hu, rfl⟩ | ⟨e, -, rfl⟩ := exec_cases hi ht
  · obtain ⟨h15, hstatus, -, hcmdcnt, -⟩ := accepted_complete hu
    exact ⟨_, 0, ht, Nat.zero_le 13, h15, hstatus, hcmdcnt⟩
  · exact ⟨_, errCode e, ht, (errCode_range e).2, by simp, rfl, rfl⟩

/-- Settles O14: an accepted command and SRESET leave the status 0, so a non-zero status is that of a refusal, whose
whole next state is its definition. -/
theorem refusalChangesOnlyTheMarks : Obligations.RefusalChangesOnlyTheMarks := by
  intro i s t h hstatus
  by_cases hi : i = .sreset
  · subst hi
    obtain rfl := Host.Outcome.next.inj h
    exact absurd rfl hstatus
  · obtain ⟨u, -, rfl⟩ | ⟨e, -, rfl⟩ := exec_cases hi h
    · exact absurd rfl hstatus
    · obtain ⟨hpos, hle⟩ := errCode_range e
      exact ⟨errCode e, hpos, hle, rfl⟩

/-- The state with other contents in `FAULT`. -/
def State.withFault (s : State) (f : Word) : State := { s with fault := f }

/-- An effect neither reads nor writes `FAULT`: with other contents there it makes the same checks and the same
writes. -/
theorem effectOf_withFault (i : Instr) (s : State) (f : Word) :
    effectOf i (s.withFault f) = (effectOf i s).map (·.withFault f) := by
  obtain ⟨l, hl⟩ := effectOf_masked i s
  have hself := hl s.status s.fault s.desc
  have hother : effectOf i (s.withFault f) = (effectOf i s).map (·.masked s.status f (descWrite s.desc 0 l)) :=
    hl s.status f s.desc
  rw [hother]
  cases heff : effectOf i s with
  | error e => rfl
  | ok t =>
    rw [State.masked_self, heff] at hself
    have ht : t = t.masked s.status s.fault (descWrite s.desc 0 l) := Except.ok.inj hself
    rw [ht]
    rfl

/-- The bits a refusal adds to an empty `FAULT` are those it adds to any. -/
theorem faultSet_eq_or (f : Word) (k : Nat) : faultSet f k = f ||| faultSet 0 k :=
  congrArg (f ||| ·) BitVec.zero_or.symm

/-- A command but SRESET ends the same whatever `FAULT` held, but that the old bits stay and those of its own end
join them (R253). -/
theorem exec_withFault {i : Instr} (hi : i ≠ .sreset) (s : State) :
    ∃ t : State, ∀ f, exec i (s.withFault f) = .next (t.withFault (f ||| t.fault)) := by
  simp only [exec_eq_settle i _ hi, effectOf_withFault]
  cases effectOf i s with
  | ok u =>
    have hkept (f : Word) : (u.withFault f).complete = (u.withFault 0).complete.withFault (f ||| 0) :=
      congrArg u.complete.withFault BitVec.or_zero.symm
    exact ⟨(u.withFault 0).complete, fun f => congrArg _ (hkept f)⟩
  | error e =>
    have hset (f : Word) :
        (s.withFault f).refuse e = ((s.withFault 0).refuse e).withFault (f ||| faultSet 0 (errCode e)) :=
      congrArg (s.refuse e).withFault (faultSet_eq_or f (errCode e))
    exact ⟨(s.withFault 0).refuse e, fun f => congrArg _ (hset f)⟩

/-- Settles O15: one next state, up to the old bits of `FAULT`, serves every content of `FAULT` (`exec_withFault`),
and an empty `FAULT` gives that state itself; both resets clear the register. -/
theorem faultIsStickyAndNeverRead : Obligations.FaultIsStickyAndNeverRead := by
  refine ⟨fun i s f hi => ?_, fun s => ⟨_, exec_sreset s, rfl⟩, fun s rest hs => ⟨_, step_of_hardReset hs, rfl⟩⟩
  obtain ⟨t, ht⟩ := exec_withFault hi s
  have hempty : exec i (s.withFault 0) = .next (t.withFault t.fault) :=
    (ht 0).trans (congrArg Host.Outcome.next (congrArg t.withFault BitVec.zero_or))
  exact ⟨t, hempty, ht f⟩

end Sys2Proof.Machine
